-- ==== Sys2Proof/Word.lean ====
section
/-! DEFINITION. The word types of `spec/00_scope.md` rules R8 and R9. -/

namespace Sys2Proof

/-- A word: 64 bits, bit 63 the most significant (R8). -/
abbrev W64 := BitVec 64

/-- A word read as a binary64 datum: sign bit 63, biased exponent bits 62:52, fraction bits 51:0 (R9). -/
abbrev F64 := BitVec 64

/-- The source's ComplexSample: a real and an imaginary part (R9, R16). -/
structure C64 where
  re : F64
  im : F64
  deriving DecidableEq, Repr

/-- The pattern of +0.0 (R111, R161). -/
abbrev plusZero : F64 := 0x0000000000000000#64

end Sys2Proof
end

