-- ==== Sys2Proof/Config.lean ====
section
/-! DEFINITION. The configuration of one built core (`spec/00_scope.md` rules R6, R7) and the free values
(`spec/40_complex_arithmetic.md` rules R106, R113). -/

namespace Sys2Proof

/-- The four operations of the `Numerics` record (R101 to R104). -/
inductive NumOp where
  | add
  | sub
  | mul
  | div
  deriving DecidableEq, Repr

/-- Which `Numerics` a core was built with (R6, R113): the default, IEEE 754 binary64 with roundTiesToEven, or some
other four total functions, told apart by a number and otherwise free. -/
inductive NumericsChoice where
  | ieee
  | other (id : Nat)
  deriving DecidableEq, Repr

/-- The bounds of R6 on a configuration; the twiddle ROM has N/2 entries (R7, R24). -/
abbrev Config.Legal (log2n kmax lmax : Nat) (tw : List C64) : Prop :=
  (1 ≤ log2n ∧ log2n ≤ 31) ∧ (1 ≤ kmax ∧ kmax ≤ 2 ^ 31) ∧ (1 ≤ lmax ∧ lmax ≤ 2 ^ 31) ∧ tw.length = 2 ^ (log2n - 1)

/-- The parameters of R6. A configuration outside their bounds cannot be written down (U1, U2). -/
structure Config where
  /-- log2 of the transform length -/
  log2n : Nat
  /-- depth of KER in cells -/
  kmax : Nat
  /-- depth of SIG in cells -/
  lmax : Nat
  /-- contents of the twiddle-factor ROM -/
  tw : List C64
  /-- the arithmetic -/
  numerics : NumericsChoice
  legal : Config.Legal log2n kmax lmax tw
  deriving DecidableEq, Repr

/-- The transform length N (R6). -/
def Config.n (c : Config) : Nat := 2 ^ c.log2n

/-- N/2: the depth of the twiddle ROM and of the spectrum FFT.GETS returns (R7, R130). -/
def Config.half (c : Config) : Nat := 2 ^ (c.log2n - 1)

/-- The depth of OUT (R7). -/
def Config.ymax (c : Config) : Nat := c.lmax + c.kmax - 1

/-- FREE VALUE (log entry 3): the bits from which the NaN result of a default operation on two operands is drawn.
R106 leaves the NaN open and R113 lets it depend on nothing but the operands. -/
opaque Config.freeNaN : NumOp → F64 → F64 → BitVec 64

/-- FREE VALUE (log entry 4): arithmetic other than the default (R113), one record of four total functions per number. -/
opaque Config.otherNumerics : Nat → NumOp → F64 → F64 → F64

end Sys2Proof
end

