-- ==== Sys2Proof/Machine/Binary64.lean ====
section
/-! DEFINITION. Binary64 arithmetic (`spec/40_complex_arithmetic.md` rules R100 to R107, R113). Every finite binary64 is a
whole multiple of 2^-1074, the UNIT below, so that a result is computed exactly in natural numbers and rounded once. -/

namespace Sys2Proof.Machine

/-- A binary64 datum by its class (R100): `fin neg m e` stands for m × 2^e units, negated when `neg`. -/
inductive Datum where
  | nan
  | inf (neg : Bool)
  | fin (neg : Bool) (m e : Nat)
  deriving DecidableEq, Repr

/-- The biased exponent, bits 62:52 (R9). -/
def expOf (w : F64) : Nat := (w.extractLsb' 52 11).toNat

/-- The fraction, bits 51:0 (R9). -/
def fracOf (w : F64) : Nat := (w.extractLsb' 0 52).toNat

/-- The class and value of a pattern (R100): exponent 0 gives zeros and subnormals, 2047 infinities and NaNs. -/
def datumOf (w : F64) : Datum :=
  if expOf w = 2047 then (if fracOf w = 0 then .inf w.msb else .nan)
  else if expOf w = 0 then .fin w.msb (fracOf w) 0
  else .fin w.msb (2 ^ 52 + fracOf w) (expOf w - 1)

/-- The pattern with the given sign and the given bits 62:0. -/
def packSign (neg : Bool) (mag : Nat) : F64 := BitVec.ofNat 64 (cond neg (2 ^ 63) 0 + mag)

/-- Bits 62:0 of an infinity. -/
def infMag : Nat := 2047 * 2 ^ 52

/-- The infinity of a sign. -/
def infinity (neg : Bool) : F64 := packSign neg infMag

/-- x / 2^d rounded to a whole number, ties to even. -/
def shiftRne (x d : Nat) : Nat :=
  let q := x / 2 ^ d
  let r := x % 2 ^ d
  if 2 ^ d < 2 * r ∨ (2 * r = 2 ^ d ∧ q % 2 = 1) then q + 1 else q

/-- Bits 62:0 of x / 2^sh units rounded once to binary64 with roundTiesToEven (R105): `max sh (log2 x - 52)` low bits are
dropped, so that 53 significant bits are left, or fewer for a subnormal; overflow gives an infinity. A carry out of the
fraction moves into the exponent field by itself. -/
def roundMag (x sh : Nat) : Nat :=
  let d := max sh (x.log2 - 52)
  min ((d - sh) * 2 ^ 52 + shiftRne x d) infMag

/-- A NaN pattern drawn from 64 free bits: exponent all ones, fraction not zero, either sign (R106, U7). Every NaN
pattern is the draw of some bits, itself for one. -/
def nanFrom (bits : BitVec 64) : F64 :=
  let frac := bits.toNat % 2 ^ 52
  packSign bits.msb (infMag + if frac = 0 then 2 ^ 51 else frac)

/-- The NaN an operation returns (R106): some NaN, which one is free. -/
def nanResult (op : NumOp) (a b : F64) : F64 := nanFrom (Config.freeNaN op a b)

/-- The signed value, in units, of a finite datum. -/
def signedUnits (neg : Bool) (m e : Nat) : Int := cond neg (-((m * 2 ^ e : Nat) : Int)) ((m * 2 ^ e : Nat) : Int)

/-- A signed number of units rounded to binary64; `zeroNeg` is the sign of an exact zero. -/
def roundInt (zeroNeg : Bool) (z : Int) : F64 :=
  if z = 0 then packSign zeroNeg 0 else packSign (decide (z < 0)) (roundMag z.natAbs 0)

/-- Addition of two data that are not NaN (R101, R107); `none` for the invalid ∞ − ∞ (R106). -/
def addDatum : Datum → Datum → Option F64
  | .nan, _ => none
  | _, .nan => none
  | .inf s, .inf t => if s = t then some (infinity s) else none
  | .inf s, .fin _ _ _ => some (infinity s)
  | .fin _ _ _, .inf t => some (infinity t)
  | .fin s m e, .fin t n f => some (roundInt (s && t) (signedUnits s m e + signedUnits t n f))

/-- The datum with its sign flipped; a NaN stays one. -/
def negDatum : Datum → Datum
  | .nan => .nan
  | .inf s => .inf (!s)
  | .fin s m e => .fin (!s) m e

/-- Multiplication (R103, R107); `none` for a NaN operand and for the invalid 0 × ∞ (R106). -/
def mulDatum : Datum → Datum → Option F64
  | .nan, _ => none
  | _, .nan => none
  | .inf s, .inf t => some (infinity (s != t))
  | .inf s, .fin t n _ => if n = 0 then none else some (infinity (s != t))
  | .fin s m _, .inf t => if m = 0 then none else some (infinity (s != t))
  | .fin s m e, .fin t n f => some (packSign (s != t) (roundMag ((m * 2 ^ e) * (n * 2 ^ f)) 1074))

/-- Division of two finite magnitudes given in units: the quotient is taken to half a unit, with one bit more below it that says
whether anything was left over, which is all that rounding once needs. -/
def divMag (x y : Nat) : Nat :=
  let num := x * 2 ^ 1075
  roundMag (2 * (num / y) + if num % y = 0 then 0 else 1) 2

/-- Division (R104, R107); `none` for a NaN operand and for the invalid 0/0 and ∞/∞ (R106). -/
def divDatum : Datum → Datum → Option F64
  | .nan, _ => none
  | _, .nan => none
  | .inf _, .inf _ => none
  | .inf s, .fin t _ _ => some (infinity (s != t))
  | .fin s _ _, .inf t => some (packSign (s != t) 0)
  | .fin s m e, .fin t n f =>
    if n = 0 then (if m = 0 then none else some (infinity (s != t)))
    else some (packSign (s != t) (divMag (m * 2 ^ e) (n * 2 ^ f)))

/-- The default operations (R101 to R107). -/
def ieeeOp (op : NumOp) (a b : F64) : F64 :=
  let r := match op with
    | .add => addDatum (datumOf a) (datumOf b)
    | .sub => addDatum (datumOf a) (negDatum (datumOf b))
    | .mul => mulDatum (datumOf a) (datumOf b)
    | .div => divDatum (datumOf a) (datumOf b)
  match r with
  | some w => w
  | none => nanResult op a b

/-- The operation of a core's `Numerics` (R6, R113). -/
def numericsOp (c : NumericsChoice) (op : NumOp) (a b : F64) : F64 :=
  match c with
  | .ieee => ieeeOp op a b
  | .other id => Config.otherNumerics id op a b

/-- `fadd` (R101). -/
def fadd (c : NumericsChoice) (a b : F64) : F64 := numericsOp c .add a b

/-- `fsub` (R102). -/
def fsub (c : NumericsChoice) (a b : F64) : F64 := numericsOp c .sub a b

/-- `fmul` (R103). -/
def fmul (c : NumericsChoice) (a b : F64) : F64 := numericsOp c .mul a b

/-- `fdiv` (R104). -/
def fdiv (c : NumericsChoice) (a b : F64) : F64 := numericsOp c .div a b

/-- `toF64(n)` (R11): the binary64 with the value of a natural number, exact for the powers of two it is used on. -/
def toF64 (n : Nat) : F64 := packSign false (roundMag (n * 2 ^ 1074) 0)

/-- Whether a pattern is a NaN (R100). -/
def isNaN (w : F64) : Bool := decide (datumOf w = .nan)

/-- Whether a pattern is a zero, a subnormal or a normal number (R100). -/
def isFinite (w : F64) : Bool := decide (expOf w ≠ 2047)

/-- The value of a finite pattern in units of 2^-1074. -/
def unitsOf (w : F64) : Int :=
  match datumOf w with
  | .fin s m e => signedUnits s m e
  | .inf _ => 0
  | .nan => 0

end Sys2Proof.Machine
end

