-- ==== Sys2Proof/Machine/Complex.lean ====
section
/-! DEFINITION. The ComplexSample operations (`spec/40_complex_arithmetic.md` rules R108 to R111). -/

namespace Sys2Proof.Machine

/-- `cadd` (R108): two additions, each rounded once. -/
def cadd (c : NumericsChoice) (a b : C64) : C64 := ⟨fadd c a.re b.re, fadd c a.im b.im⟩

/-- `csub` (R109): two subtractions, each rounded once. -/
def csub (c : NumericsChoice) (a b : C64) : C64 := ⟨fsub c a.re b.re, fsub c a.im b.im⟩

/-- `cmul` (R110): four products, one subtraction, one addition, six roundings, in this order of the operands. -/
def cmul (c : NumericsChoice) (a b : C64) : C64 :=
  ⟨fsub c (fmul c a.re b.re) (fmul c a.im b.im), fadd c (fmul c a.re b.im) (fmul c a.im b.re)⟩

/-- A real value as a ComplexSample (R111). -/
def ofReal (v : F64) : C64 := ⟨v, plusZero⟩

/-- Both parts divided by a real value (R129). -/
def cdivReal (c : NumericsChoice) (z : C64) (h : F64) : C64 := ⟨fdiv c z.re h, fdiv c z.im h⟩

end Sys2Proof.Machine
end

