-- ==== Sys2Proof/Syntax.lean ====
section
/-! DEFINITION. The eleven commands of `spec/30_encoding.md` rule R78, one constructor per row of the opcode table.
The payload words of a load command are no operand of the header: the command takes them from INCH (R75). -/

namespace Sys2Proof

/-- A command as its header word states it. `cnt` is the CNT field: a count of elements, not of words (R74). -/
inductive Instr where
  /-- NOP (R181) -/
  | nop
  /-- STAT (R182) -/
  | stat
  /-- FFT.SETR, load N real samples (R120) -/
  | fftSetr (cnt : Nat)
  /-- FFT.SETC, load N complex samples (R121) -/
  | fftSetc (cnt : Nat)
  /-- FFT.RUN, transform BUF in place (R123) -/
  | fftRun
  /-- FFT.GETS, return the first N/2 cells of BUF (R130) -/
  | fftGets
  /-- FIR.SETK, load the tap kernel (R150) -/
  | firSetk (cnt : Nat)
  /-- FIR.SETX, load the signal (R152) -/
  | firSetx (cnt : Nat)
  /-- FIR.CONV, full convolution (R156) -/
  | firConv
  /-- FIR.FILT, causal direct-form filtering (R158) -/
  | firFilt
  /-- FIR.GETY, return the result (R160) -/
  | firGety
  deriving DecidableEq, Repr

end Sys2Proof
end

