-- ==== Sys2Proof/WellFormed.lean ====
section
/-! DEFINITION. Which terms of `Instr` are commands: CNT fits its 32-bit field (`spec/30_encoding.md` rules R71, R74).
Whether a CNT is accepted is the command's own check and a fault of the machine, not a matter of form. -/

namespace Sys2Proof

/-- The value of the CNT field of a command's header; 0 for the commands of use H0 (R72). -/
def Instr.cnt : Instr → Nat
  | .fftSetr c => c
  | .fftSetc c => c
  | .firSetk c => c
  | .firSetx c => c
  | .nop => 0
  | .stat => 0
  | .fftRun => 0
  | .fftGets => 0
  | .firConv => 0
  | .firFilt => 0
  | .firGety => 0

/-- A command whose CNT fits its field (R74). -/
abbrev Instr.WellFormed (i : Instr) : Prop := i.cnt < 2 ^ 32

end Sys2Proof
end

