-- ==== Sys2Proof/Decode.lean ====
section
/-! DEFINITION. Decoding a header word (`spec/30_encoding.md` rules R71, R72, R78 to R82) and encoding a command. -/

namespace Sys2Proof

/-- Why a word is no header: cause 1 or cause 2 of R221. -/
inductive DecodeError where
  /-- OPC is none of the eleven values (R79) -/
  | illegalOpcode
  /-- RSV is not zero, or CNT is not zero on a command of use H0 (R80) -/
  | reservedField
  deriving DecidableEq, Repr

/-- OPC, bits 63:56 (R71). -/
def opcOf (h : W64) : BitVec 8 := h.extractLsb' 56 8

/-- RSV, bits 55:32 (R71). -/
def rsvOf (h : W64) : BitVec 24 := h.extractLsb' 32 24

/-- CNT, bits 31:0 (R71). -/
def cntOf (h : W64) : BitVec 32 := h.extractLsb' 0 32

/-- The two uses of the header format (R72): a command without a count, and a load command that takes one. -/
inductive HeaderUse where
  | h0 (i : Instr)
  | hc (load : Nat → Instr)

/-- The opcode map (R78); `none` for the 245 illegal values (R79). -/
def opcodeUse (opc : BitVec 8) : Option HeaderUse :=
  if opc = 0x00#8 then some (.h0 .nop)
  else if opc = 0x01#8 then some (.h0 .stat)
  else if opc = 0x10#8 then some (.hc .fftSetr)
  else if opc = 0x11#8 then some (.hc .fftSetc)
  else if opc = 0x12#8 then some (.h0 .fftRun)
  else if opc = 0x13#8 then some (.h0 .fftGets)
  else if opc = 0x20#8 then some (.hc .firSetk)
  else if opc = 0x21#8 then some (.hc .firSetx)
  else if opc = 0x22#8 then some (.h0 .firConv)
  else if opc = 0x23#8 then some (.h0 .firFilt)
  else if opc = 0x24#8 then some (.h0 .firGety)
  else none

/-- Decoding is total and ordered: OPC first, then RSV, then the CNT of an H0 command (R82, R223). -/
def decode (h : W64) : Except DecodeError Instr :=
  match opcodeUse (opcOf h) with
  | none => .error .illegalOpcode
  | some use =>
    if rsvOf h ≠ 0#24 then .error .reservedField
    else match use with
      | .h0 i => if cntOf h ≠ 0#32 then .error .reservedField else .ok i
      | .hc load => .ok (load (cntOf h).toNat)

/-- The OPC of a command (R78). -/
def Instr.opc : Instr → BitVec 8
  | .nop => 0x00#8
  | .stat => 0x01#8
  | .fftSetr _ => 0x10#8
  | .fftSetc _ => 0x11#8
  | .fftRun => 0x12#8
  | .fftGets => 0x13#8
  | .firSetk _ => 0x20#8
  | .firSetx _ => 0x21#8
  | .firConv => 0x22#8
  | .firFilt => 0x23#8
  | .firGety => 0x24#8

/-- The header word of a command: `OPC ‖ RSV ‖ CNT` with RSV zero (R71). -/
def encodeHeader (i : Instr) : W64 := i.opc ++ 0#24 ++ BitVec.ofNat 32 i.cnt

/-- The words of a command: its header, then its payload words (R70). -/
def encode (i : Instr) (payload : List W64) : List W64 := encodeHeader i :: payload

/-- The command the decoder reads from a header whose bits are the low `nbits` bits of `w`, every bit above them 0. -/
def decodeTableWord (nbits w : Nat) : Option Instr :=
  match decode (BitVec.ofNat 64 (w % 2 ^ nbits)) with
  | .ok i => some i
  | .error _ => none

end Sys2Proof
end

