-- ==== Sys2Proof/Machine/Twiddle.lean ====
section
/-! DEFINITION. The default contents of the twiddle-factor ROM (`spec/41_fft_commands.md` rule R122): correctly rounded
cos(2πt/N) and −sin(2πt/N), computed in whole numbers of 2^-256. No command uses this file: a core's ROM is `Config.tw`.
UNVERIFIED (log entry 6): that 256 bits are enough to round every entry correctly. -/

namespace Sys2Proof.Machine

/-- The number of fraction bits of the fixed-point numbers of this file. -/
def fixBits : Nat := 256

/-- Terms `k, k+1, …` of the series of arctan(1/q) in fixed point; `p` is 2^256 / q^(2k+1). -/
def atanTerms (q : Nat) : Nat → Nat → Nat → Int
  | 0, _, _ => 0
  | fuel + 1, k, p => ((p / (2 * k + 1) : Nat) : Int) - atanTerms q fuel (k + 1) (p / (q * q))

/-- arctan(1/q) in fixed point. -/
def atanInv (q : Nat) : Int := atanTerms q 120 0 (2 ^ fixBits / q)

/-- π in fixed point, by Machin's formula π/4 = 4 arctan(1/5) − arctan(1/239). -/
def piFix : Nat := (4 * (4 * atanInv 5 - atanInv 239)).toNat

/-- The alternating series whose term after `t` is `t·x²/((j+1)(j+2))`, for sine (first term x, j = 1) and cosine (first term 1,
j = 0). -/
def trigTerms (xx : Nat) : Nat → Nat → Nat → Int
  | 0, _, _ => 0
  | fuel + 1, j, t => (t : Int) - trigTerms xx fuel (j + 2) (t * xx / 2 ^ fixBits / ((j + 1) * (j + 2)))

/-- The angle of `a/b` of a full turn, in fixed point. -/
def turnAngle (a b : Nat) : Nat := 2 * piFix * a / b

/-- sin of `a/b` of a full turn, in fixed point, for angles up to π/4. -/
def sinTurn (a b : Nat) : Nat :=
  let x := turnAngle a b
  (trigTerms (x * x / 2 ^ fixBits) 40 1 x).toNat

/-- cos of `a/b` of a full turn, in fixed point, for angles up to π/4. -/
def cosTurn (a b : Nat) : Nat :=
  let x := turnAngle a b
  (trigTerms (x * x / 2 ^ fixBits) 40 0 (2 ^ fixBits)).toNat

/-- A fixed-point magnitude with a sign, rounded to binary64; an exact zero is +0.0 (R122). -/
def roundFix (neg : Bool) (v : Nat) : F64 :=
  packSign (neg && decide (v ≠ 0)) (roundMag (v * 2 ^ 1074) fixBits)

/-- Entry t of the default ROM for a transform of length n (R122), 0 ≤ t < n/2, with the angle taken into the first eighth of a
turn. -/
def defaultTwiddle (n t : Nat) : C64 :=
  if 8 * t ≤ n then ⟨roundFix false (cosTurn t n), roundFix true (sinTurn t n)⟩
  else if 4 * t ≤ n then ⟨roundFix false (sinTurn (n - 4 * t) (4 * n)), roundFix true (cosTurn (n - 4 * t) (4 * n))⟩
  else if 8 * t ≤ 3 * n then ⟨roundFix true (sinTurn (4 * t - n) (4 * n)), roundFix true (cosTurn (4 * t - n) (4 * n))⟩
  else ⟨roundFix true (cosTurn (n - 2 * t) (2 * n)), roundFix true (sinTurn (n - 2 * t) (2 * n))⟩

/-- The default ROM for LOG2N = `log2n` (R122). -/
def defaultTw (log2n : Nat) : List C64 := (List.range (2 ^ (log2n - 1))).map (defaultTwiddle (2 ^ log2n))

/-- The entries R122 tabulates for LOG2N = 2. -/
def twForFour : List C64 := [⟨0x3FF0000000000000#64, 0x0000000000000000#64⟩, ⟨0x0000000000000000#64, 0xBFF0000000000000#64⟩]

end Sys2Proof.Machine
end

