-- ==== Sys2Proof/Machine/State.lean ====
section
/-! DEFINITION. The state of the core (`spec/10_state.md` rule R20), why a step can stop, and reset (R36, R250). -/

namespace Sys2Proof.Machine

/-- The stores of R50. -/
inductive StoreName where
  | buf
  | tw
  | ker
  | sig
  | out
  deriving DecidableEq, Repr

/-- A store: the written cells with their indices, in rising order of index. A cell that is not listed is unwritten and holds
no value (R34). -/
abbrev Store (α : Type) := List (Nat × α)

/-- The canonical form of a store: indices strictly rising, so that equal contents are equal lists. -/
abbrev Store.Wf {α : Type} (st : Store α) : Prop := (st.map Prod.fst).Pairwise (· < ·)

/-- The four load commands, the only ones that take payload words (R75). -/
inductive LoadCmd where
  | fftSetr
  | fftSetc
  | firSetk
  | firSetx
  deriving DecidableEq, Repr

/-- A held core (R56): the load command it is inside, its CNT, and the payload words it has taken so far. -/
structure Held where
  cmd : LoadCmd
  cnt : Nat
  taken : List W64
  deriving DecidableEq, Repr

/-- The cause codes (R221). -/
inductive Cause where
  | illegalOpcode
  | reservedField
  | fftCount
  | fftEmpty
  | firCapacity
  | firNull
  | firNoResult
  | firLength
  deriving DecidableEq, Repr

/-- The state of R20 and R22, the hold of R56, and the configuration (R6), which nothing changes (log entry 1). -/
structure State where
  /-- the configuration (R6): a parameter, not state of the spec -/
  cfg : Config
  /-- BUF (R23) -/
  buf : Store C64
  /-- KER (R25) -/
  ker : Store F64
  /-- SIG (R26) -/
  sig : Store F64
  /-- OUT (R27) -/
  out : Store F64
  /-- ACC (R28) -/
  acc : F64
  /-- KLEN (R25, R32) -/
  klen : Nat
  /-- XLEN (R26, R32) -/
  xlen : Nat
  /-- YLEN (R27, R32) -/
  ylen : Nat
  /-- FV (R29) -/
  fv : Bool
  /-- KV (R29) -/
  kv : Bool
  /-- XV (R29) -/
  xv : Bool
  /-- YV (R29) -/
  yv : Bool
  /-- FAULT (R30) -/
  fault : Bool
  /-- CAUSE (R30) -/
  cause : BitVec 8
  /-- INCH, the word to be taken next first (R56) -/
  inch : List W64
  /-- OUTCH, the oldest word first (R57) -/
  outch : List W64
  /-- the number of words taken from INCH since reset (R22) -/
  pc : Nat
  /-- the load command the core is held inside, if any (R56) -/
  held : Option Held
  deriving DecidableEq, Repr

/-- Why the model stops. -/
inductive Fault where
  /-- Raised by a step of a core with FAULT = 1: the core has no step until reset (R224, U26). Safe. -/
  | coreStopped (cause : BitVec 8)
  /-- Raised by a read of an unwritten cell (R34, U22). R33 says that no reachable state comes to it. Safe. -/
  | unwrittenCell (store : StoreName) (index : Nat)
  /-- Raised by an access outside a store's index range (R50). R65 says that no reachable state comes to it. Safe. -/
  | noSuchCell (store : StoreName) (index : Nat)
  deriving DecidableEq, Repr

/-- Why the model gives no meaning. -/
inductive Refusal where
  /-- Raised by `exec` for an instruction without a meaning; every instruction has one, so nothing raises it. Safe. -/
  | notModelled (mnemonic : String)
  deriving DecidableEq, Repr

/-- The reset state of a core of a given configuration (R36, R250): flags, FAULT, CAUSE and lengths 0, every cell
unwritten, channels empty, pc 0, no command held. ACC is unspecified there and +0.0 here (DESIGN CHOICE, log entry 2). -/
def State.resetOf (c : Config) : State :=
  { cfg := c, buf := [], ker := [], sig := [], out := [], acc := plusZero, klen := 0, xlen := 0, ylen := 0,
    fv := false, kv := false, xv := false, yv := false, fault := false, cause := 0#8, inch := [], outch := [], pc := 0,
    held := none }

/-- The configuration of `State.reset` (DESIGN CHOICE, log entry 1): the sizes most vectors of spec/ use, the default ROM
and the default arithmetic. -/
def resetConfig : Config :=
  { log2n := 2, kmax := 4, lmax := 8, tw := twForFour, numerics := .ieee, legal := by decide }

/-- The machine right after reset (R36). -/
def State.reset : State := State.resetOf resetConfig

end Sys2Proof.Machine
end

