-- ==== Sys2Proof/Machine/Flags.lean ====
section
/-! DEFINITION. The STATUS word and the ports computed from the flags (`spec/10_state.md` rules R29 to R31,
`spec/20_memory.md` rule R58), and the codes of the causes (`spec/60_exceptions.md` rule R221). -/

namespace Sys2Proof.Machine

/-- The code of a cause (R221). -/
def causeCode : Cause → BitVec 8
  | .illegalOpcode => 1#8
  | .reservedField => 2#8
  | .fftCount => 3#8
  | .fftEmpty => 4#8
  | .firCapacity => 5#8
  | .firNull => 6#8
  | .firNoResult => 7#8
  | .firLength => 8#8

/-- STATUS (R31): CAUSE in bits 15:8, FAULT, YV, XV, KV, FV in bits 4 to 0, every other bit zero. -/
def statusWord (s : State) : W64 :=
  0#48 ++ s.cause ++ 0#3 ++ BitVec.ofBool s.fault ++ BitVec.ofBool s.yv ++ BitVec.ofBool s.xv ++ BitVec.ofBool s.kv ++
    BitVec.ofBool s.fv

/-- The port `fault`, STATUS bit 4 (R58, R229). -/
def faultPort (s : State) : Bool := (statusWord s).getLsbD 4

/-- The port `in_ready` as far as the model has it: low for good while FAULT = 1 (R58). -/
def inReady (s : State) : Bool := !s.fault

end Sys2Proof.Machine
end

