-- ==== Sys2Proof/Machine/Ops.lean ====
section
/-! DEFINITION. The named operations: cells of stores, loops, the channels, raising a fault, and the loads' payload
(`spec/00_scope.md` rule R11, `spec/20_memory.md` rules R50 to R57, `spec/60_exceptions.md` rule R224). -/

namespace Sys2Proof.Machine

/-- How a meaning ends. -/
abbrev Result := Host.Outcome State Fault Refusal

/-! Cells of a store. -/

/-- The value of a cell, `none` when it is unwritten (R34). -/
def cellAt {α : Type} : Store α → Nat → Option α
  | [], _ => none
  | (j, v) :: rest, i => if i = j then some v else cellAt rest i

/-- The store with one cell written, in canonical form again. -/
def setCell {α : Type} : Store α → Nat → α → Store α
  | [], i, v => [(i, v)]
  | (j, w) :: rest, i, v =>
    if i < j then (i, v) :: (j, w) :: rest
    else if i = j then (i, v) :: rest
    else (j, w) :: setCell rest i v

/-- `S[i]` (R11): a read of cell i of a store of `size` cells. -/
def readCell {α : Type} (name : StoreName) (size : Nat) (st : Store α) (i : Nat) : Except Fault α :=
  if i < size then
    match cellAt st i with
    | some v => .ok v
    | none => .error (.unwrittenCell name i)
  else .error (.noSuchCell name i)

/-- `S[i] <- v` (R11): a write of cell i of a store of `size` cells. -/
def writeCell {α : Type} (name : StoreName) (size : Nat) (st : Store α) (i : Nat) (v : α) : Except Fault (Store α) :=
  if i < size then .ok (setCell st i v) else .error (.noSuchCell name i)

/-- `TW[x]` (R24): a read of the twiddle ROM. -/
def readTw (c : Config) (x : Nat) : Except Fault C64 :=
  match c.tw[x]? with
  | some w => .ok w
  | none => .error (.noSuchCell .tw x)

/-- The loop `for i in a .. a+count-1 ascending` (R10) over a value that each pass takes and answers. -/
def forUp {σ : Type} (body : Nat → σ → Except Fault σ) : Nat → Nat → σ → Except Fault σ
  | _, 0, x => .ok x
  | a, count + 1, x =>
    match body a x with
    | .ok y => forUp body (a + 1) count y
    | .error f => .error f

/-- Cells a, a+1, … of a store written with the values of a list, in index order. -/
def writeSeq {α : Type} (name : StoreName) (size : Nat) : Nat → List α → Store α → Except Fault (Store α)
  | _, [], st => .ok st
  | a, v :: vs, st =>
    match writeCell name size st a v with
    | .ok st' => writeSeq name size (a + 1) vs st'
    | .error f => .error f

/-- Cells a, a+1, …, a+count-1 of a store, read in index order. -/
def readSeq {α : Type} (name : StoreName) (size : Nat) (st : Store α) : Nat → Nat → Except Fault (List α)
  | _, 0 => .ok []
  | a, count + 1 =>
    match readCell name size st a with
    | .error f => .error f
    | .ok v =>
      match readSeq name size st (a + 1) count with
      | .error f => .error f
      | .ok vs => .ok (v :: vs)

/-! The channels, faults and the updates of the other registers. -/

/-- `In()`, k times (R56): k words leave the front of INCH and pc counts them (R22). -/
def takeWords (k : Nat) (s : State) : State := { s with inch := s.inch.drop k, pc := s.pc + k }

/-- `Out(w)` for each word of a list (R57). -/
def putWords (ws : List W64) (s : State) : State := { s with outch := s.outch ++ ws }

/-- `raise Fault(c)` (R224): FAULT and CAUSE are written and nothing else. -/
def raise (c : Cause) (s : State) : State := { s with fault := true, cause := causeCode c }

/-- The core is held inside a load command (R56). -/
def hold (h : Held) (s : State) : State := { s with held := some h }

/-- No load command is under way. -/
def release (s : State) : State := { s with held := none }

/-- BUF as the transform leaves it (R123): no flag is written. -/
def storeTransform (b : Store C64) (s : State) : State := { s with buf := b }

/-- BUF as a completed load leaves it: FV <- 1 (R120, R121). -/
def storeSamples (b : Store C64) (s : State) : State := { s with buf := b, fv := true }

/-- KER as a completed load leaves it: KLEN <- cnt, KV <- 1 (R150). -/
def storeKernel (k : Store F64) (cnt : Nat) (s : State) : State := { s with ker := k, klen := cnt, kv := true }

/-- SIG as a completed load leaves it: XLEN <- cnt, XV <- 1 (R152). -/
def storeSignal (x : Store F64) (cnt : Nat) (s : State) : State := { s with sig := x, xlen := cnt, xv := true }

/-- OUT and ACC as an application of the kernel leaves them: YLEN <- m, YV <- 1 (R156, R158). -/
def storeResult (acc : F64) (y : Store F64) (m : Nat) (s : State) : State :=
  { s with acc := acc, out := y, ylen := m, yv := true }

/-- The outcome of work on a store followed by an update of the state. -/
def thenNext {α : Type} (r : Except Fault α) (update : α → State) : Result :=
  match r with
  | .ok x => .next (update x)
  | .error f => .fault f

/-! The payload of a load command. -/

/-- P, the payload words of a load command with a given CNT (R75). -/
def payloadOf (cmd : LoadCmd) (cnt : Nat) : Nat :=
  match cmd with
  | .fftSetr => cnt
  | .fftSetc => 2 * cnt
  | .firSetk => cnt
  | .firSetx => cnt

/-- How many payload words a load command that has taken the words `taken` still needs. -/
def payloadLeft (cmd : LoadCmd) (cnt : Nat) (taken : List W64) : Nat := payloadOf cmd cnt - taken.length

/-- A load command that has taken the words `taken` of its payload: it takes the rest from INCH and completes, or takes what
INCH has and holds (R56). The words taken are kept aside until the last one is there, since no one can see a store that is
partly loaded (R54; log entry 7). -/
def loadPayload (cmd : LoadCmd) (cnt : Nat) (complete : List W64 → State → Result) (taken : List W64) (s : State) : Result :=
  if payloadLeft cmd cnt taken ≤ s.inch.length then
    complete (taken ++ s.inch.take (payloadLeft cmd cnt taken)) (release (takeWords (payloadLeft cmd cnt taken) s))
  else .next (hold ⟨cmd, cnt, taken ++ s.inch⟩ (takeWords s.inch.length s))

end Sys2Proof.Machine
end

