-- ==== Sys2Proof/Machine/Operands.lean ====
section
/-! DEFINITION. The operand forms of the commands: the check of CNT, payload words as samples, cells as response words
(`spec/30_encoding.md` rules R74 to R77), and the words placed to run one command. -/

namespace Sys2Proof.Machine

/-- Whether a load command accepts its CNT: equal to N, or within the memory (R74, R120, R121, R150, R152). -/
def cntAccepted (c : Config) (cmd : LoadCmd) (cnt : Nat) : Bool :=
  match cmd with
  | .fftSetr => decide (cnt = c.n)
  | .fftSetc => decide (cnt = c.n)
  | .firSetk => decide (cnt ≤ c.kmax)
  | .firSetx => decide (cnt ≤ c.lmax)

/-- Payload words as complex elements, real part first (R76). -/
def pairUp : List W64 → List C64
  | re :: im :: rest => ⟨re, im⟩ :: pairUp rest
  | [_] => []
  | [] => []

/-- Complex elements as response words, real part first (R77). -/
def flattenPairs : List C64 → List W64
  | [] => []
  | z :: rest => z.re :: z.im :: flattenPairs rest

/-- The load command of an instruction, if it is one (R72). -/
def loadCmdOf : Instr → Option LoadCmd
  | .fftSetr _ => some .fftSetr
  | .fftSetc _ => some .fftSetc
  | .firSetk _ => some .firSetk
  | .firSetx _ => some .firSetx
  | .nop => none
  | .stat => none
  | .fftRun => none
  | .fftGets => none
  | .firConv => none
  | .firFilt => none
  | .firGety => none

/-- How many payload words a command takes on a core: none when its check turns it away (R75). -/
def payloadTaken (c : Config) (i : Instr) : Nat :=
  match loadCmdOf i with
  | some cmd => if cntAccepted c cmd i.cnt then payloadOf cmd i.cnt else 0
  | none => 0

/-- The state in which a header word stands at the front of INCH, with as many zero words behind it as its command takes as
payload, and in which the core is about to take a header: not faulted and not held (log entry 15). -/
def placeHeader (h : W64) (s : State) : State :=
  let payload := match decode h with
    | .ok i => payloadTaken s.cfg i
    | .error _ => 0
  { s with inch := h :: (List.replicate payload 0#64 ++ s.inch), fault := false, cause := 0#8, held := none }

end Sys2Proof.Machine
end

