-- ==== Sys2Proof/Machine/Fft.lean ====
section
/-! DEFINITION. The FFT unit's commands (`spec/41_fft_commands.md`). -/

namespace Sys2Proof.Machine

/-! Loading samples. -/

/-- The end of FFT.SETR (R120): every cell of BUF is written with a payload word as its real part, and FV <- 1. -/
def completeFftSetr (ws : List W64) (s : State) : Result :=
  thenNext (writeSeq .buf s.cfg.n 0 (ws.map ofReal) s.buf) (fun b => storeSamples b s)

/-- FFT.SETR once its header has been accepted, having taken the words `taken` (R120). -/
def loadFftSetr (cnt : Nat) (taken : List W64) (s : State) : Result :=
  loadPayload .fftSetr cnt completeFftSetr taken s

/-- FFT.SETR (R120). -/
def execFftSetr (cnt : Nat) (s : State) : Result :=
  if cntAccepted s.cfg .fftSetr cnt then loadFftSetr cnt [] s else .next (raise .fftCount s)

/-- The end of FFT.SETC (R121): every cell of BUF is written with two payload words, and FV <- 1. -/
def completeFftSetc (ws : List W64) (s : State) : Result :=
  thenNext (writeSeq .buf s.cfg.n 0 (pairUp ws) s.buf) (fun b => storeSamples b s)

/-- FFT.SETC once its header has been accepted, having taken the words `taken` (R121). -/
def loadFftSetc (cnt : Nat) (taken : List W64) (s : State) : Result :=
  loadPayload .fftSetc cnt completeFftSetc taken s

/-- FFT.SETC (R121). -/
def execFftSetc (cnt : Nat) (s : State) : Result :=
  if cntAccepted s.cfg .fftSetc cnt then loadFftSetc cnt [] s else .next (raise .fftCount s)

/-! The transform. -/

/-- `bitrev(i)` over a number of bits (R124). -/
def bitrev : Nat → Nat → Nat
  | 0, _ => 0
  | bits + 1, i => (i % 2) * 2 ^ bits + bitrev bits (i / 2)

/-- One position of step 1 (R125): the pair is swapped once, when `i < bitrev(i)`. -/
def swapReversed (c : Config) (i : Nat) (b : Store C64) : Except Fault (Store C64) :=
  let r := bitrev c.log2n i
  if i < r then do
    let x ← readCell .buf c.n b i
    let y ← readCell .buf c.n b r
    let b' ← writeCell .buf c.n b i y
    writeCell .buf c.n b' r x
  else .ok b

/-- Step 1, the bit-reversal permutation (R125). -/
def permute (c : Config) (b : Store C64) : Except Fault (Store C64) := forUp (swapReversed c) 0 c.n b

/-- The twiddle index, evaluated left to right in natural numbers (R127). -/
def twidx (n i m k : Nat) : Nat := (i - m) * n / k / 2

/-- The butterfly on cells p and q with twiddle index x (R128). -/
def butterfly (c : Config) (p q x : Nat) (b : Store C64) : Except Fault (Store C64) := do
  let w ← readTw c x
  let bq ← readCell .buf c.n b q
  let u ← readCell .buf c.n b p
  let t := cmul c.numerics w bq
  let b' ← writeCell .buf c.n b p (cadd c.numerics u t)
  writeCell .buf c.n b' q (csub c.numerics u t)

/-- One block of a stage: k butterflies from the base index m (R126). -/
def block (c : Config) (k m : Nat) (b : Store C64) : Except Fault (Store C64) :=
  forUp (fun i => butterfly c i (i + k) (twidx c.n i m k)) m k b

/-- One stage: the N/(2k) blocks with base indices 0, 2k, 4k, … (R126). -/
def stage (c : Config) (k : Nat) (b : Store C64) : Except Fault (Store C64) :=
  forUp (fun j => block c k (j * (2 * k))) 0 (c.n / (2 * k)) b

/-- Step 2: the stages k = 1, 2, 4, …, N/2 (R126). -/
def stages (c : Config) (b : Store C64) : Except Fault (Store C64) := forUp (fun j => stage c (2 ^ j)) 0 c.log2n b

/-- One cell of step 3 divided by a real value (R129). -/
def divideCell (c : Config) (h : F64) (i : Nat) (b : Store C64) : Except Fault (Store C64) := do
  let z ← readCell .buf c.n b i
  writeCell .buf c.n b i (cdivReal c.numerics z h)

/-- The pattern of 2.0, the second divisor of the DC cell (R129). -/
def two64 : F64 := 0x4000000000000000#64

/-- Step 3, normalisation: every cell is divided by N/2, then cell 0 once more by 2.0 (R129). -/
def normalise (c : Config) (b : Store C64) : Except Fault (Store C64) := do
  let b' ← forUp (divideCell c (toF64 c.half)) 0 c.n b
  divideCell c two64 0 b'

/-- The three steps of the transform in order (R123). -/
def transform (c : Config) (b : Store C64) : Except Fault (Store C64) := do
  let b1 ← permute c b
  let b2 ← stages c b1
  normalise c b2

/-- FFT.RUN (R123). -/
def execFftRun (s : State) : Result :=
  if s.fv then thenNext (transform s.cfg s.buf) (fun b => storeTransform b s) else .next (raise .fftEmpty s)

/-! Reading the spectrum. -/

/-- FFT.GETS (R130): the first N/2 cells of BUF, real part then imaginary part. -/
def execFftGets (s : State) : Result :=
  if s.fv then thenNext (readSeq .buf s.cfg.n s.buf 0 s.cfg.half) (fun zs => putWords (flattenPairs zs) s)
  else .next (raise .fftEmpty s)

end Sys2Proof.Machine
end

