-- ==== Sys2Proof/Machine/Fir.lean ====
section
/-! DEFINITION. The FIR unit's commands (`spec/42_fir_commands.md`). -/

namespace Sys2Proof.Machine

/-! Loading the operands. -/

/-- The end of FIR.SETK (R150): the taps are written from cell 0, KLEN <- cnt, KV <- 1. -/
def completeFirSetk (cnt : Nat) (ws : List W64) (s : State) : Result :=
  thenNext (writeSeq .ker s.cfg.kmax 0 ws s.ker) (fun k => storeKernel k cnt s)

/-- FIR.SETK once its header has been accepted, having taken the words `taken` (R150). -/
def loadFirSetk (cnt : Nat) (taken : List W64) (s : State) : Result :=
  loadPayload .firSetk cnt (completeFirSetk cnt) taken s

/-- FIR.SETK (R150). -/
def execFirSetk (cnt : Nat) (s : State) : Result :=
  if cntAccepted s.cfg .firSetk cnt then loadFirSetk cnt [] s else .next (raise .firCapacity s)

/-- The end of FIR.SETX (R152): the samples are written from cell 0, XLEN <- cnt, XV <- 1. -/
def completeFirSetx (cnt : Nat) (ws : List W64) (s : State) : Result :=
  thenNext (writeSeq .sig s.cfg.lmax 0 ws s.sig) (fun x => storeSignal x cnt s)

/-- FIR.SETX once its header has been accepted, having taken the words `taken` (R152). -/
def loadFirSetx (cnt : Nat) (taken : List W64) (s : State) : Result :=
  loadPayload .firSetx cnt (completeFirSetx cnt) taken s

/-- FIR.SETX (R152). -/
def execFirSetx (cnt : Nat) (s : State) : Result :=
  if cntAccepted s.cfg .firSetx cnt then loadFirSetx cnt [] s else .next (raise .firCapacity s)

/-! Applying the kernel. -/

/-- One multiply-accumulate step: the product is rounded, then the sum (R161). -/
def macStep (c : NumericsChoice) (acc a b : F64) : F64 := fadd c acc (fmul c a b)

/-- The step of FIR.CONV for output element n and signal index i: `SIG[i] · KER[n-i]` (R156). -/
def convStep (s : State) (n i : Nat) (acc : F64) : Except Fault F64 := do
  let x ← readCell .sig s.cfg.lmax s.sig i
  let h ← readCell .ker s.cfg.kmax s.ker (n - i)
  pure (macStep s.cfg.numerics acc x h)

/-- The first signal index of output element n, `max(0, n-(K-1))` taken in the integers (R156, R163). -/
def convFirst (klen n : Nat) : Nat := n + 1 - klen

/-- How many signal indices output element n has, up to `min(n, L-1)` (R156, R163). -/
def convCount (klen xlen n : Nat) : Nat := min (n + 1) xlen - convFirst klen n

/-- Output element n of the full convolution, from +0.0 in ascending signal index (R156, R157). -/
def convElement (s : State) (n : Nat) : Except Fault F64 :=
  forUp (convStep s n) (convFirst s.klen n) (convCount s.klen s.xlen n) plusZero

/-- The step of FIR.FILT for output element y and tap index b: `KER[b] · SIG[y-b]` (R158). -/
def filtStep (s : State) (y b : Nat) (acc : F64) : Except Fault F64 := do
  let h ← readCell .ker s.cfg.kmax s.ker b
  let x ← readCell .sig s.cfg.lmax s.sig (y - b)
  pure (macStep s.cfg.numerics acc h x)

/-- Output element y of the causal filter, from +0.0 in ascending tap index over exactly the b with b < K and y - b > 0
(R158, R159). -/
def filtElement (s : State) (y : Nat) : Except Fault F64 := forUp (filtStep s y) 0 (min s.klen y) plusZero

/-- One output element computed and stored: the accumulator and OUT after it (R156, R158). -/
def storeElement (s : State) (element : Nat → Except Fault F64) (n : Nat) (x : F64 × Store F64) :
    Except Fault (F64 × Store F64) := do
  let acc ← element n
  let out ← writeCell .out s.cfg.ymax x.2 n acc
  pure (acc, out)

/-- Output elements 0 to m-1 computed and stored in order. -/
def applyKernel (s : State) (element : Nat → Except Fault F64) (m : Nat) : Except Fault (F64 × Store F64) :=
  forUp (storeElement s element) 0 m (s.acc, s.out)

/-- FIR.CONV (R156). -/
def execFirConv (s : State) : Result :=
  if s.kv && s.xv then
    if s.klen + s.xlen = 0 then .next (raise .firLength s)
    else
      let m := s.xlen + s.klen - 1
      thenNext (applyKernel s (convElement s) m) (fun r => storeResult r.1 r.2 m s)
  else .next (raise .firNull s)

/-- FIR.FILT (R158). -/
def execFirFilt (s : State) : Result :=
  if s.kv && s.xv then
    thenNext (applyKernel s (filtElement s) s.xlen) (fun r => storeResult r.1 r.2 s.xlen s)
  else .next (raise .firNull s)

/-! Reading the result. -/

/-- FIR.GETY (R160): the length, then the elements. -/
def execFirGety (s : State) : Result :=
  if s.yv then
    thenNext (readSeq .out s.cfg.ymax s.out 0 s.ylen) (fun ys => putWords (BitVec.ofNat 64 s.ylen :: ys) s)
  else .next (raise .firNoResult s)

end Sys2Proof.Machine
end

