-- ==== Sys2Proof/Machine/System.lean ====
section
/-! DEFINITION. The system commands NOP and STAT (`spec/43_system_commands.md`). -/

namespace Sys2Proof.Machine

/-- NOP (R181): no effect. -/
def execNop (s : State) : Result := .next s

/-- STAT (R182): `Out(STATUS)`. -/
def execStat (s : State) : Result := .next (putWords [statusWord s] s)

end Sys2Proof.Machine
end

