-- ==== Sys2Proof/Machine/Dispatch.lean ====
section
/-! DEFINITION. One arm per command (`spec/30_encoding.md` rule R78). -/

namespace Sys2Proof.Machine

def exec (i : Instr) (s : State) : Host.Outcome State Fault Refusal :=
  match i with
  | .nop => Sys2Proof.Machine.execNop s
  | .stat => Sys2Proof.Machine.execStat s
  | .fftSetr cnt => Sys2Proof.Machine.execFftSetr cnt s
  | .fftSetc cnt => Sys2Proof.Machine.execFftSetc cnt s
  | .fftRun => Sys2Proof.Machine.execFftRun s
  | .fftGets => Sys2Proof.Machine.execFftGets s
  | .firSetk cnt => Sys2Proof.Machine.execFirSetk cnt s
  | .firSetx cnt => Sys2Proof.Machine.execFirSetx cnt s
  | .firConv => Sys2Proof.Machine.execFirConv s
  | .firFilt => Sys2Proof.Machine.execFirFilt s
  | .firGety => Sys2Proof.Machine.execFirGety s

end Sys2Proof.Machine
end

