-- ==== Sys2Proof/Machine/Cycle.lean ====
section
/-! DEFINITION. What the core does next: nothing once faulted, more payload when held, else a header
(`spec/20_memory.md` rule R56, `spec/30_encoding.md` rule R82, `spec/60_exceptions.md` rule R224). -/

namespace Sys2Proof.Machine

/-- The cause of a header that does not decode (R82, R221). -/
def decodeCause : DecodeError → Cause
  | .illegalOpcode => .illegalOpcode
  | .reservedField => .reservedField

/-- A header word that has been taken: its command runs, or the core faults (R82). -/
def runHeader (h : W64) (s : State) : Result :=
  match decode h with
  | .ok i => exec i s
  | .error e => .next (raise (decodeCause e) s)

/-- A held core goes on with the load command it is inside (R56). -/
def resume (h : Held) (s : State) : Result :=
  match h.cmd with
  | .fftSetr => loadFftSetr h.cnt h.taken s
  | .fftSetc => loadFftSetc h.cnt h.taken s
  | .firSetk => loadFirSetk h.cnt h.taken s
  | .firSetx => loadFirSetx h.cnt h.taken s

/-- One step. A faulted core has none (R224). A held core takes payload words, an idle core with an empty INCH waits and
nothing changes (R56; log entry 9), and otherwise the front word of INCH is a header (R82). -/
def cycle (s : State) : Result :=
  if s.fault then .fault (.coreStopped s.cause)
  else
    match s.held with
    | some h => resume h s
    | none =>
      match s.inch with
      | [] => .next s
      | h :: _ => runHeader h (takeWords 1 s)

end Sys2Proof.Machine
end

