-- ==== Sys2Proof/Machine/Step.lean ====
section
/-! DEFINITION. The step of the core, and the state in which its next step runs a given command. -/

namespace Sys2Proof.Machine

/-- One step of the core. -/
def step (s : State) : Host.Outcome State Fault Refusal := cycle s

/-- The state with the command whose header has the low `nbits` bits of `w` at the front of INCH, its payload words zero. -/
def State.withFetchWord (s : State) (nbits w : Nat) : State := placeHeader (BitVec.ofNat 64 (w % 2 ^ nbits)) s

end Sys2Proof.Machine
end

