-- ==== Sys2Proof/Machine/HostPort.lean ====
section
/-! DEFINITION. What the host can do to the core (`spec/20_memory.md` rules R56 to R58, `spec/70_reset_and_hazards.md` rules
R250, R251, R263). -/

namespace Sys2Proof.Machine

/-- The host offers a word on INCH: it is appended while `in_ready` may be high, and is not taken while FAULT = 1 (R58). -/
def hostAppend (w : W64) (s : State) : State := if inReady s then { s with inch := s.inch ++ [w] } else s

/-- The host takes the front word of OUTCH, if there is one (R57). -/
def hostTake (s : State) : Option (W64 × State) :=
  match s.outch with
  | [] => none
  | w :: rest => some (w, { s with outch := rest })

/-- The host asserts reset (R250): the reset state, whatever the core was doing; the configuration stays. -/
def hostReset (s : State) : State := State.resetOf s.cfg

/-- The sideband, readable at any time (R31, R58). -/
def hostStatus (s : State) : W64 := statusWord s

/-- Everything that can happen next: a step of the core, or an action of the host (R13, R263). -/
inductive Event where
  | core
  | append (w : W64)
  | take
  | reset
  deriving DecidableEq, Repr

/-- The state after an event; taking from an empty OUTCH does nothing. -/
def event (e : Event) (s : State) : Result :=
  match e with
  | .core => step s
  | .append w => .next (hostAppend w s)
  | .take =>
    match hostTake s with
    | some r => .next r.2
    | none => .next s
  | .reset => .next (hostReset s)

end Sys2Proof.Machine
end

