-- ==== Sys2Proof/Machine/Run.lean ====
section
/-! DEFINITION. A run and its end (`spec/70_reset_and_hazards.md` rules R261, R262): the core after one reset, the words the host
still has to append, and the words the host has taken. -/

namespace Sys2Proof.Machine

/-- The core is about to take a header: not faulted and not held (R56). -/
abbrev State.Ready (s : State) : Prop := s.fault = false ∧ s.held = none

/-- The core is idle: ready, with nothing on INCH (R56). -/
abbrev State.Idle (s : State) : Prop := s.Ready ∧ s.inch = []

/-- A run in progress (R261). It stands beside the state and is no part of it (log entry 19, DESIGN CHOICE). -/
structure Run where
  /-- the core -/
  core : State
  /-- the words of W the host has not appended yet, first word first -/
  pending : List W64
  /-- the words the host has taken from OUTCH, first word first -/
  received : List W64
  deriving DecidableEq, Repr

/-- What can happen in a run (R261): a step of the core, the host appends the next word of W, the host takes a word. A reset ends
the run and starts another. -/
inductive RunAction where
  | core
  | append
  | take
  deriving DecidableEq, Repr

/-- A run over the words W, right after its reset (R261). -/
def Run.start (c : Config) (words : List W64) : Run := { core := State.resetOf c, pending := words, received := [] }

/-- A run after a step of the core; a core that stops has no step. -/
def Run.withStep (r : Run) (o : Result) : Host.Outcome Run Fault Refusal :=
  match o with
  | .next s => .next { r with core := s }
  | .fault f => .fault f
  | .refused e => .refused e

/-- The host offers the next word of W; it stays the next one where in_ready is low (R58) and where W is exhausted nothing
happens. -/
def Run.appendNext (r : Run) : Run :=
  match r.pending with
  | [] => r
  | w :: rest => if inReady r.core then { r with core := hostAppend w r.core, pending := rest } else r

/-- The host takes the front word of OUTCH, if there is one, and keeps it (R57). -/
def Run.takeFront (r : Run) : Run :=
  match hostTake r.core with
  | none => r
  | some (w, s) => { r with core := s, received := r.received ++ [w] }

/-- One action of a run. -/
def Run.advance (a : RunAction) (r : Run) : Host.Outcome Run Fault Refusal :=
  match a with
  | .core => r.withStep (step r.core)
  | .append => .next r.appendNext
  | .take => .next r.takeFront

/-- A run through a schedule of actions: any order in which the core steps and the host appends and takes. -/
def Run.acts : List RunAction → Run → Host.Outcome Run Fault Refusal
  | [], r => .next r
  | a :: rest, r =>
    match r.advance a with
    | .next r' => Run.acts rest r'
    | .fault f => .fault f
    | .refused e => .refused e

/-- How a run stands (R261). -/
inductive RunStatus where
  /-- the core has a word to take, or is idle and the host has words of W left -/
  | running
  /-- idle, and every word of W taken -/
  | endedWell
  /-- FAULT = 1 -/
  | goneWrong
  /-- held with INCH empty, and the host has words of W left -/
  | notEnded
  /-- held with INCH empty and W exhausted: a framing error of the host, neither final nor a fault -/
  | stuck
  deriving DecidableEq, Repr

/-- R261: the end of a run, by FAULT, INCH, the hold and what is left of W. -/
def Run.status (r : Run) : RunStatus :=
  if r.core.fault then .goneWrong
  else if r.core.inch ≠ [] then .running
  else if r.core.held.isSome then (if r.pending = [] then .stuck else .notEnded)
  else if r.pending = [] then .endedWell
  else .running

/-- All words the core has put on OUTCH since reset, in order, whether the host has taken them or not (R261). -/
def Run.output (r : Run) : List W64 := r.received ++ r.core.outch

/-- R261: the result of a run that ended well, its output and the final STATUS; no other run has one. -/
def Run.result (r : Run) : Option (List W64 × W64) :=
  if r.status = .endedWell then some (r.output, statusWord r.core) else none

/-- What the host can know of a run: how it stands, its output, and STATUS. -/
def Run.outcome (r : Run) : RunStatus × List W64 × W64 := (r.status, r.output, statusWord r.core)

/-- At most so many steps of the core, fewer where it stops. -/
def coreSteps : Nat → State → State
  | 0, s => s
  | k + 1, s =>
    match step s with
    | .next t => coreSteps k t
    | .fault _ => s
    | .refused _ => s

/-- So many offers of the host. -/
def Run.appendMany : Nat → Run → Run
  | 0, r => r
  | k + 1, r => Run.appendMany k r.appendNext

/-- The run in which the host appends all that is left of W at once and the core then steps until it waits or stops: a step takes
a word or waits, so one step for each word on INCH is enough. -/
def Run.finish (r : Run) : Run :=
  let full := r.appendMany r.pending.length
  { full with core := coreSteps full.core.inch.length full.core }

end Sys2Proof.Machine
end

