-- ==== Sys2Proof/Safety.lean ====
section
/-! DEFINITION. What counts as a good state and a run that keeps to its words, in the terms
statements use (`spec/10_state.md` rules R32, R33, `spec/70_reset_and_hazards.md` rule R261). -/

namespace Sys2Proof.Machine

/-- Every listed cell lies in the store's index range (R50). -/
abbrev Store.Within {α : Type} (st : Store α) (size : Nat) : Prop := ∀ p ∈ st, p.1 < size

/-- Cells 0 to m-1 are written (R33). -/
abbrev Store.FilledTo {α : Type} (st : Store α) (m : Nat) : Prop := ∀ i < m, (cellAt st i).isSome = true

/-- What a hold must be (R56): a load command whose CNT was accepted, short of at least one payload word. -/
abbrev Held.Good (c : Config) (h : Held) : Prop :=
  cntAccepted c h.cmd h.cnt = true ∧ h.taken.length < payloadOf h.cmd h.cnt

/-- The invariants of R32 and R33, the canonical form of the stores, the codes of R221 and the form of a hold. -/
structure Inv (s : State) : Prop where
  bufWf : Store.Wf s.buf
  kerWf : Store.Wf s.ker
  sigWf : Store.Wf s.sig
  outWf : Store.Wf s.out
  bufWithin : Store.Within s.buf s.cfg.n
  kerWithin : Store.Within s.ker s.cfg.kmax
  sigWithin : Store.Within s.sig s.cfg.lmax
  outWithin : Store.Within s.out s.cfg.ymax
  /-- R33 (a) -/
  bufFilled : s.fv = true → Store.FilledTo s.buf s.cfg.n
  /-- R33 (b) -/
  kerFilled : s.kv = true → Store.FilledTo s.ker s.klen
  /-- R33 (c) -/
  sigFilled : s.xv = true → Store.FilledTo s.sig s.xlen
  /-- R33 (d) -/
  outFilled : s.yv = true → Store.FilledTo s.out s.ylen
  /-- R32 -/
  klenBound : s.klen ≤ s.cfg.kmax
  xlenBound : s.xlen ≤ s.cfg.lmax
  ylenBound : s.ylen ≤ s.cfg.ymax
  /-- R33 (e) -/
  klenZero : s.kv = false → s.klen = 0
  xlenZero : s.xv = false → s.xlen = 0
  ylenZero : s.yv = false → s.ylen = 0
  /-- R33 (f) -/
  causeZero : s.fault = false → s.cause = 0#8
  /-- R221 -/
  causeRange : s.fault = true → 1 ≤ s.cause.toNat ∧ s.cause.toNat ≤ 8
  /-- R224: a faulted core is inside no command -/
  heldReady : s.fault = true → s.held = none
  heldGood : ∀ h ∈ s.held, Held.Good s.cfg h

/-- The sum of R157 and R161: the products of a list of indices, each rounded, added to +0.0 one at a time in the order of the
list. -/
def macSum (c : NumericsChoice) (a b : Nat → F64) (indices : List Nat) : F64 :=
  indices.foldl (fun acc i => fadd c acc (fmul c (a i) (b i))) plusZero

/-- A signal or kernel given as a function agrees with the written cells of a store below a length. -/
abbrev Store.Holds {α : Type} (st : Store α) (m : Nat) (f : Nat → α) : Prop := ∀ i < m, cellAt st i = some (f i)

/-- With the default arithmetic every element of the result is written and none is -0.0 (R107: each sum starts at +0.0). -/
def NoNegativeZero (s : State) : Prop :=
  s.cfg.numerics = .ieee → ∀ n < s.ylen, ∃ y : F64, cellAt s.out n = some y ∧ y ≠ 0x8000000000000000#64

/-- The words of W in their order: pc of them are taken, and those on INCH and those not yet appended are the rest (R22, R261). -/
abbrev Run.Follows (words : List W64) (r : Run) : Prop :=
  r.core.pc ≤ words.length ∧ r.core.inch ++ r.pending = words.drop r.core.pc

/-- The ways of R261 in which nothing more comes of a run. -/
abbrev RunStatus.Over (st : RunStatus) : Prop := st = .endedWell ∨ st = .goneWrong ∨ st = .stuck

/-! Decoding in the terms of R82. -/

/-- The eleven legal values of OPC (R78, R82). -/
def legalOpcodes : List (BitVec 8) :=
  [0x00#8, 0x01#8, 0x10#8, 0x11#8, 0x12#8, 0x13#8, 0x20#8, 0x21#8, 0x22#8, 0x23#8, 0x24#8]

/-- The values of OPC whose command has no count (R72, R82). -/
def countlessOpcodes : List (BitVec 8) := [0x00#8, 0x01#8, 0x12#8, 0x13#8, 0x22#8, 0x23#8, 0x24#8]

/-- P of R75: the payload words of a command that completes. -/
def payloadWords (i : Instr) : Nat :=
  match loadCmdOf i with
  | some cmd => payloadOf cmd i.cnt
  | none => 0

/-- The words a command that completes puts on OUTCH (R77). -/
def responseWords (s : State) (i : Instr) : Nat :=
  match i with
  | .stat => 1
  | .fftGets => s.cfg.n
  | .firGety => 1 + s.ylen
  | .nop => 0
  | .fftSetr _ => 0
  | .fftSetc _ => 0
  | .fftRun => 0
  | .firSetk _ => 0
  | .firSetx _ => 0
  | .firConv => 0
  | .firFilt => 0

/-! The transform without its order of work (R125 to R129): every cell as a function of the cells before. -/

/-- Entry x of the ROM; every index a command makes is an entry (R65, R127). -/
def twAt (c : Config) (x : Nat) : C64 := (c.tw[x]?).getD ⟨plusZero, plusZero⟩

/-- A cell after the stage of size k (R126 to R128): in a group of 2k cells the first k are sum sides, the others difference
sides, and cell j of either half uses entry j·N/(2k). -/
def stageCell (c : Config) (k : Nat) (z : Nat → C64) (i : Nat) : C64 :=
  let j := i % (2 * k) % k
  let w := twAt c (j * (c.n / (2 * k)))
  if i % (2 * k) < k then cadd c.numerics (z i) (cmul c.numerics w (z (i + k)))
  else csub c.numerics (z (i - k)) (cmul c.numerics w (z i))

/-- The cells after the stages 1, 2, 4, … given by their exponents in order. -/
def stagesCell (c : Config) (exponents : List Nat) (z : Nat → C64) : Nat → C64 :=
  exponents.foldl (fun y e => stageCell c (2 ^ e) y) z

/-- A cell after the normalisation (R129). -/
def normalCell (c : Config) (z : Nat → C64) (i : Nat) : C64 :=
  let d := cdivReal c.numerics (z i) (toF64 c.half)
  if i = 0 then cdivReal c.numerics d two64 else d

/-- A cell after FFT.RUN as a function of the cells before it (R123). -/
def transformCell (c : Config) (z : Nat → C64) : Nat → C64 :=
  normalCell c (stagesCell c (List.range c.log2n) (fun i => z (bitrev c.log2n i)))

/-! Rounding, said about the value and not about how it is computed (R101 to R105). -/

/-- |num/den| units is at or past the middle between the largest finite binary64 and 2^1024. -/
abbrev Overflows (num den : Int) : Prop := (2 ^ 2098 - 2 ^ 2044) * |den| ≤ |num|

/-- `r` is a finite binary64 nearest to num/den units, the one with an even fraction where another is as near. -/
def NearestEven (r : F64) (num den : Int) : Prop :=
  isFinite r = true ∧ ∀ c : F64, isFinite c = true →
    |unitsOf r * den - num| ≤ |unitsOf c * den - num| ∧
      (|unitsOf r * den - num| = |unitsOf c * den - num| → unitsOf c ≠ unitsOf r → fracOf r % 2 = 0)

/-- `r` is num/den units rounded once with roundTiesToEven; `neg` is the sign of an overflow. -/
def RoundsTo (r : F64) (num den : Int) (neg : Bool) : Prop :=
  (Overflows num den → r = infinity neg) ∧ (¬ Overflows num den → NearestEven r num den)

/-- The pattern with bit 63 flipped, `neg` of R102. -/
abbrev flipSign (w : F64) : F64 := w ^^^ 0x8000000000000000#64

/-! The two units (R51). -/

/-- `s` with the FIR unit's state of `u`. -/
def withFirOf (u s : State) : State :=
  { s with ker := u.ker, sig := u.sig, out := u.out, acc := u.acc, klen := u.klen, xlen := u.xlen, ylen := u.ylen,
           kv := u.kv, xv := u.xv, yv := u.yv }

/-- `s` with the FFT unit's state of `u`. -/
def withFftOf (u s : State) : State := { s with buf := u.buf, fv := u.fv }

/-- The commands of the FFT unit (R78). -/
def isFftCommand (i : Instr) : Bool := i.opc.extractLsb' 4 4 == 1#4

/-- The commands of the FIR unit (R78). -/
def isFirCommand (i : Instr) : Bool := i.opc.extractLsb' 4 4 == 2#4

end Sys2Proof.Machine
end

