-- ==== Sys2Proof/Certificates/Slice0/Obligations.lean ====
section
/-! DEFINITION. The statements for the provers. Each docstring names what in spec/ it comes from. -/

open Sys2Proof Sys2Proof.Machine

/-! ### Encoding -/

/-- 95_test_vectors.md section 2.5: the worked headers decode as listed, and four words are rejected by name. -/
def Obligations.SpecWordsDecode : Prop :=
  decode 0x0000000000000000#64 = .ok .nop ∧ decode 0x0100000000000000#64 = .ok .stat ∧
  decode 0x1000000000000004#64 = .ok (.fftSetr 4) ∧ decode 0x1100000000000004#64 = .ok (.fftSetc 4) ∧
  decode 0x1200000000000000#64 = .ok .fftRun ∧ decode 0x1300000000000000#64 = .ok .fftGets ∧
  decode 0x2000000000000003#64 = .ok (.firSetk 3) ∧ decode 0x21000000FFFFFFFF#64 = .ok (.firSetx 4294967295) ∧
  decode 0x2200000000000000#64 = .ok .firConv ∧ decode 0x2300000000000000#64 = .ok .firFilt ∧
  decode 0x2400000000000000#64 = .ok .firGety ∧
  decode 0x0200000000000000#64 = .error .illegalOpcode ∧ decode 0xFF00000100000000#64 = .error .illegalOpcode ∧
  decode 0x1200000100000000#64 = .error .reservedField ∧ decode 0x1200000000000001#64 = .error .reservedField

/-- Every command at every CNT its field admits is read back from its header (R71, R78). -/
def Obligations.DecodeOfEncode : Prop := ∀ i : Instr, i.WellFormed → decode (encodeHeader i) = .ok i

/-- Every header that decodes is the header of the command it decodes to: no bit is dropped (R71, R80). -/
def Obligations.EncodeOfDecode : Prop :=
  ∀ (h : W64) (i : Instr), decode h = .ok i → i.WellFormed ∧ encodeHeader i = h

/-- R82 (with R79, R80): a header is sorted by OPC, then RSV, then the CNT of a command without a count; an illegal or
reserved one faults with cause 1 or 2 and only its header is taken; any other runs the command with its OPC and CNT. -/
def Obligations.HeaderIsSortedInOrder : Prop :=
  ∀ (s : State) (h : W64) (rest : List W64), s.Ready → s.inch = h :: rest →
    (opcOf h ∉ legalOpcodes →
      step s = .next { s with inch := rest, pc := s.pc + 1, fault := true, cause := 1#8 }) ∧
    (opcOf h ∈ legalOpcodes → (rsvOf h ≠ 0#24 ∨ (opcOf h ∈ countlessOpcodes ∧ cntOf h ≠ 0#32)) →
      step s = .next { s with inch := rest, pc := s.pc + 1, fault := true, cause := 2#8 }) ∧
    (opcOf h ∈ legalOpcodes → rsvOf h = 0#24 → (opcOf h ∈ countlessOpcodes → cntOf h = 0#32) →
      ∃ i : Instr, decode h = .ok i ∧ i.opc = opcOf h ∧ i.cnt = (cntOf h).toNat ∧
        step s = exec i { s with inch := rest, pc := s.pc + 1 })

/-- A ready core whose front word decodes runs that command on the state with the header taken (R22, R60). -/
def Obligations.StepRunsDecodedCommand : Prop :=
  ∀ (s : State) (h : W64) (rest : List W64) (i : Instr), s.Ready → s.inch = h :: rest → decode h = .ok i →
    step s = exec i { s with inch := rest, pc := s.pc + 1 }

/-! ### Arithmetic -/

/-- Default addition and subtraction of finite operands: the exact sum or difference rounded once, ties to even, overflow to
the infinity of its sign; subtraction is addition of the operand with its sign flipped (40_complex_arithmetic.md section 2). -/
def Obligations.IeeeAddRoundsOnce : Prop :=
  ∀ a b : F64, isFinite a = true → isFinite b = true →
    RoundsTo (fadd .ieee a b) (unitsOf a + unitsOf b) 1 (decide (unitsOf a + unitsOf b < 0)) ∧
    RoundsTo (fsub .ieee a b) (unitsOf a - unitsOf b) 1 (decide (unitsOf a - unitsOf b < 0)) ∧
    fsub .ieee a b = fadd .ieee a (flipSign b)

/-- Default multiplication of finite operands: the exact product rounded once, its sign the exclusive-or of the signs
(40_complex_arithmetic.md section 2). -/
def Obligations.IeeeMulRoundsOnce : Prop :=
  ∀ a b : F64, isFinite a = true → isFinite b = true →
    RoundsTo (fmul .ieee a b) (unitsOf a * unitsOf b) (2 ^ 1074) (a.msb != b.msb) ∧
      (fmul .ieee a b).msb = (a.msb != b.msb)

/-- Default division of finite operands by one that is not zero: the exact quotient rounded once, its sign the exclusive-or of
the signs (40_complex_arithmetic.md section 2). -/
def Obligations.IeeeDivRoundsOnce : Prop :=
  ∀ a b : F64, isFinite a = true → isFinite b = true → unitsOf b ≠ 0 →
    RoundsTo (fdiv .ieee a b) (unitsOf a * 2 ^ 1074) (unitsOf b) (a.msb != b.msb) ∧
      (fdiv .ieee a b).msb = (a.msb != b.msb)

/-- R106: a default operation answers a NaN for a NaN operand and for an invalid operation, and for nothing else. Which NaN is
a free value (log entry 3), and the statement holds whatever it is. -/
def Obligations.NanExactlyWhenInvalid : Prop :=
  ∀ a b : F64,
    let anyNaN := isNaN a = true ∨ isNaN b = true
    let infA := a = infinity false ∨ a = infinity true
    let infB := b = infinity false ∨ b = infinity true
    (isNaN (fadd .ieee a b) = true ↔ anyNaN ∨ (infA ∧ infB ∧ a ≠ b)) ∧
    (isNaN (fsub .ieee a b) = true ↔ anyNaN ∨ (infA ∧ infB ∧ a = b)) ∧
    (isNaN (fmul .ieee a b) = true ↔
      anyNaN ∨ (infA ∧ isFinite b = true ∧ unitsOf b = 0) ∨ (infB ∧ isFinite a = true ∧ unitsOf a = 0)) ∧
    (isNaN (fdiv .ieee a b) = true ↔
      anyNaN ∨ (infA ∧ infB) ∨ (isFinite a = true ∧ unitsOf a = 0 ∧ isFinite b = true ∧ unitsOf b = 0))

/-- The signed-zero laws of 40_complex_arithmetic.md section 2, and that a default sum is -0.0 only when both operands are. -/
def Obligations.SignedZeroLaws : Prop :=
  (∀ x : F64, isFinite x = true → fadd .ieee x (flipSign x) = 0x0000000000000000#64) ∧
  fadd .ieee 0x0000000000000000#64 0x8000000000000000#64 = 0x0000000000000000#64 ∧
  fadd .ieee 0x8000000000000000#64 0x8000000000000000#64 = 0x8000000000000000#64 ∧
  fsub .ieee 0x0000000000000000#64 0x0000000000000000#64 = 0x0000000000000000#64 ∧
  fsub .ieee 0x8000000000000000#64 0x0000000000000000#64 = 0x8000000000000000#64 ∧
  fsub .ieee 0x0000000000000000#64 0x8000000000000000#64 = 0x0000000000000000#64 ∧
  (∀ x : F64, isNaN x = false → x ≠ 0x0000000000000000#64 → x ≠ 0x8000000000000000#64 →
    fadd .ieee x 0x0000000000000000#64 = x ∧ fadd .ieee x 0x8000000000000000#64 = x) ∧
  (∀ a b : F64, fadd .ieee a b = 0x8000000000000000#64 → a = 0x8000000000000000#64 ∧ b = 0x8000000000000000#64)

/-- R108 to R111: the ComplexSample operations part by part for every arithmetic, and that the default product does not depend on
the order of its operands in a part that is not a NaN. -/
def Obligations.ComplexOperations : Prop :=
  (∀ (c : NumericsChoice) (a b : C64),
    cadd c a b = ⟨fadd c a.re b.re, fadd c a.im b.im⟩ ∧ csub c a b = ⟨fsub c a.re b.re, fsub c a.im b.im⟩ ∧
    cmul c a b = ⟨fsub c (fmul c a.re b.re) (fmul c a.im b.im), fadd c (fmul c a.re b.im) (fmul c a.im b.re)⟩) ∧
  (∀ v : F64, ofReal v = ⟨v, 0x0000000000000000#64⟩) ∧
  (∀ a b : C64, (isNaN (cmul .ieee a b).re = false → (cmul .ieee a b).re = (cmul .ieee b a).re) ∧
    (isNaN (cmul .ieee a b).im = false → (cmul .ieee a b).im = (cmul .ieee b a).im))

/-! ### The FFT unit -/

/-- R120: FFT.SETR faults with cause 3 on a count other than N; else it takes N words into BUF with imaginary parts +0.0 and
sets FV, or takes the words there are and is held; where the words wait in a hold, and that BUF changes only with the last of
them, is the model's choice (log entry 7, DESIGN CHOICE). -/
def Obligations.FftSetrLoadsRealSamples : Prop :=
  ∀ (s : State) (cnt : Nat),
    (cnt ≠ s.cfg.n → exec (.fftSetr cnt) s = .next { s with fault := true, cause := 3#8 }) ∧
    (cnt = s.cfg.n → cnt ≤ s.inch.length → ∃ b : Store C64,
      exec (.fftSetr cnt) s =
        .next { s with buf := b, fv := true, inch := s.inch.drop cnt, pc := s.pc + cnt, held := none } ∧
      (∀ i < cnt, cellAt b i = (s.inch[i]?).map fun v => ⟨v, 0x0000000000000000#64⟩) ∧
      ∀ i ≥ cnt, cellAt b i = cellAt s.buf i) ∧
    (cnt = s.cfg.n → s.inch.length < cnt →
      exec (.fftSetr cnt) s =
        .next { s with inch := [], pc := s.pc + s.inch.length, held := some ⟨.fftSetr, cnt, s.inch⟩ })

/-- R121: FFT.SETC as FFT.SETR with two words for each element, real part first; the form of the hold is the model's choice
(log entry 7, DESIGN CHOICE). -/
def Obligations.FftSetcLoadsComplexSamples : Prop :=
  ∀ (s : State) (cnt : Nat),
    (cnt ≠ s.cfg.n → exec (.fftSetc cnt) s = .next { s with fault := true, cause := 3#8 }) ∧
    (cnt = s.cfg.n → 2 * cnt ≤ s.inch.length → ∃ b : Store C64,
      exec (.fftSetc cnt) s =
        .next { s with buf := b, fv := true, inch := s.inch.drop (2 * cnt), pc := s.pc + 2 * cnt, held := none } ∧
      (∀ i < cnt, ∃ re im : F64, s.inch[2 * i]? = some re ∧ s.inch[2 * i + 1]? = some im ∧
        cellAt b i = some ⟨re, im⟩) ∧
      ∀ i ≥ cnt, cellAt b i = cellAt s.buf i) ∧
    (cnt = s.cfg.n → s.inch.length < 2 * cnt →
      exec (.fftSetc cnt) s =
        .next { s with inch := [], pc := s.pc + s.inch.length, held := some ⟨.fftSetc, cnt, s.inch⟩ })

/-- R124: the reversed index is the number whose bit LOG2N-1-b is bit b of the index; it stays below N, is its own inverse, and
is the index itself exactly for a palindrome; and the four tables. -/
def Obligations.BitReversal : Prop :=
  (∀ bits i : Nat, i < 2 ^ bits →
    bitrev bits i < 2 ^ bits ∧ bitrev bits (bitrev bits i) = i ∧
    (∀ b < bits, (bitrev bits i).testBit (bits - 1 - b) = i.testBit b) ∧
    (bitrev bits i = i ↔ ∀ b < bits, i.testBit b = i.testBit (bits - 1 - b))) ∧
  (List.range 2).map (bitrev 1) = [0, 1] ∧ (List.range 4).map (bitrev 2) = [0, 2, 1, 3] ∧
  (List.range 8).map (bitrev 3) = [0, 4, 2, 6, 1, 5, 3, 7] ∧
  (List.range 16).map (bitrev 4) = [0, 8, 4, 12, 2, 10, 6, 14, 1, 9, 5, 13, 3, 11, 7, 15]

/-- Step 1 of the transform (41_fft_commands.md section 3): cell i afterwards is cell bitrev(i) before, for every i below N, and no
other cell changes; no arithmetic is done. -/
def Obligations.PermutationMovesCells : Prop :=
  ∀ (c : Config) (b : Store C64) (z : Nat → C64), Store.Holds b c.n z →
    ∃ b' : Store C64, permute c b = .ok b' ∧ Store.Holds b' c.n (fun i => z (bitrev c.log2n i)) ∧
      ∀ i ≥ c.n, cellAt b' i = cellAt b i

/-- The twiddle index of a stage is exact and is an entry of the ROM (41_fft_commands.md section 3). -/
def Obligations.TwiddleIndexExact : Prop :=
  ∀ (c : Config) (e m j : Nat), e < c.log2n → j < 2 ^ e →
    twidx c.n (m + j) m (2 ^ e) = j * (c.n / (2 * 2 ^ e)) ∧ j * (c.n / (2 * 2 ^ e)) < c.half ∧ c.tw.length = c.half

/-- R128: a butterfly writes the sum to cell p and the difference to cell q, both from the cells before it. -/
def Obligations.ButterflyWritesSumAndDifference : Prop :=
  ∀ (c : Config) (p q x : Nat) (b : Store C64) (w u v : C64), p < c.n → q < c.n → p ≠ q →
    c.tw[x]? = some w → cellAt b p = some u → cellAt b q = some v →
    ∃ b' : Store C64, butterfly c p q x b = .ok b' ∧
      ∀ i, cellAt b' i = if i = p then some (cadd c.numerics u (cmul c.numerics w v))
        else if i = q then some (csub c.numerics u (cmul c.numerics w v)) else cellAt b i

/-- One stage of the network (41_fft_commands.md section 3): each group of 2k cells is combined as rule R128 says with entry
j·N/(2k) of the ROM, and no other cell changes. -/
def Obligations.StageCombinesPairs : Prop :=
  ∀ (c : Config) (e : Nat) (b : Store C64) (z : Nat → C64), e < c.log2n → Store.Holds b c.n z →
    ∃ b' : Store C64, stage c (2 ^ e) b = .ok b' ∧ Store.Holds b' c.n (stageCell c (2 ^ e) z) ∧
      ∀ i ≥ c.n, cellAt b' i = cellAt b i

/-- R129: every cell is divided by N/2, cell 0 once more by 2.0, and the divisors have the values N/2 and 2. -/
def Obligations.NormalisationDivides : Prop :=
  (∀ (c : Config) (b : Store C64) (z : Nat → C64), Store.Holds b c.n z →
    ∃ b' : Store C64, normalise c b = .ok b' ∧
      (∀ i < c.n, i ≠ 0 → cellAt b' i =
        some ⟨fdiv c.numerics (z i).re (toF64 c.half), fdiv c.numerics (z i).im (toF64 c.half)⟩) ∧
      cellAt b' 0 = some ⟨fdiv c.numerics (fdiv c.numerics (z 0).re (toF64 c.half)) 0x4000000000000000#64,
        fdiv c.numerics (fdiv c.numerics (z 0).im (toF64 c.half)) 0x4000000000000000#64⟩ ∧
      ∀ i ≥ c.n, cellAt b' i = cellAt b i) ∧
  (∀ c : Config, isFinite (toF64 c.half) = true ∧ unitsOf (toF64 c.half) = c.half * 2 ^ 1074 ∧ 2 * c.half = c.n) ∧
  unitsOf 0x4000000000000000#64 = 2 * 2 ^ 1074

/-- R123: FFT.RUN faults with cause 4 when FV = 0; else it completes, and every cell of BUF below N is the closed form of the
three steps applied to the cells before, for every size, ROM and arithmetic; nothing else changes. The closed form is derived:
from what R125 and R126 mark so, the effect of the permutation and the order within a stage. -/
def Obligations.FftRunComputesTransform : Prop :=
  ∀ (s : State),
    (s.fv = false → exec .fftRun s = .next { s with fault := true, cause := 4#8 }) ∧
    (s.fv = true → ∀ z : Nat → C64, Store.Holds s.buf s.cfg.n z →
      ∃ b : Store C64, exec .fftRun s = .next { s with buf := b } ∧ Store.Holds b s.cfg.n (transformCell s.cfg z) ∧
        ∀ i ≥ s.cfg.n, cellAt b i = cellAt s.buf i)

/-- R130: FFT.GETS faults with cause 4 when FV = 0; else it puts the first N/2 cells on OUTCH and changes nothing else. -/
def Obligations.FftGetsReturnsHalf : Prop :=
  ∀ (s : State),
    (s.fv = false → exec .fftGets s = .next { s with fault := true, cause := 4#8 }) ∧
    (s.fv = true → ∀ z : Nat → C64, Store.Holds s.buf (s.cfg.n / 2) z →
      exec .fftGets s =
        .next { s with outch := s.outch ++ (List.range (s.cfg.n / 2)).flatMap fun i => [(z i).re, (z i).im] })

/-- The source's first testable property (41_fft_commands.md section 5): with the default arithmetic and finite twiddles of any
values, a buffer of +0.0 cells is left all +0.0 by FFT.RUN, for every N. -/
def Obligations.ZeroSignalZeroSpectrum : Prop :=
  ∀ (s : State), s.cfg.numerics = .ieee → (∀ w ∈ s.cfg.tw, isFinite w.re = true ∧ isFinite w.im = true) →
    s.fv = true → Store.Holds s.buf s.cfg.n (fun _ => ⟨0x0000000000000000#64, 0x0000000000000000#64⟩) →
    ∃ b : Store C64, exec .fftRun s = .next { s with buf := b } ∧
      Store.Holds b s.cfg.n (fun _ => ⟨0x0000000000000000#64, 0x0000000000000000#64⟩)

/-- 41_fft_commands.md section 2: for LOG2N 1 to 4 every part of the default ROM is the binary64 nearest to cos(2πt/N) or
-sin(2πt/N). -/
def Obligations.DefaultTwiddlesNearest : Prop :=
  ∀ l ∈ [(1 : ℕ), 2, 3, 4], (defaultTw l).length = 2 ^ (l - 1) ∧ ∀ t : ℕ, t < 2 ^ (l - 1) → ∃ w : C64, (defaultTw l)[t]? = some w ∧
    isFinite w.re = true ∧ isFinite w.im = true ∧ ∀ c : F64, isFinite c = true →
      |(unitsOf w.re : ℝ) / 2 ^ 1074 - Real.cos (2 * Real.pi * t / 2 ^ l)| ≤
        |(unitsOf c : ℝ) / 2 ^ 1074 - Real.cos (2 * Real.pi * t / 2 ^ l)| ∧
      |(unitsOf w.im : ℝ) / 2 ^ 1074 + Real.sin (2 * Real.pi * t / 2 ^ l)| ≤
        |(unitsOf c : ℝ) / 2 ^ 1074 + Real.sin (2 * Real.pi * t / 2 ^ l)|

/-! ### The FIR unit -/

/-- R150: FIR.SETK faults with cause 5 on a kernel that does not fit; else it takes CNT taps into KER, sets KLEN and KV, or
takes the words there are and is held; where the words wait in a hold, and that KER changes only with the last of them, is the
model's choice (log entry 7, DESIGN CHOICE). -/
def Obligations.FirSetkLoadsKernel : Prop :=
  ∀ (s : State) (cnt : Nat),
    (s.cfg.kmax < cnt → exec (.firSetk cnt) s = .next { s with fault := true, cause := 5#8 }) ∧
    (cnt ≤ s.cfg.kmax → cnt ≤ s.inch.length → ∃ k : Store F64,
      exec (.firSetk cnt) s =
        .next { s with ker := k, klen := cnt, kv := true, inch := s.inch.drop cnt, pc := s.pc + cnt, held := none } ∧
      (∀ b < cnt, cellAt k b = s.inch[b]?) ∧ ∀ b ≥ cnt, cellAt k b = cellAt s.ker b) ∧
    (cnt ≤ s.cfg.kmax → s.inch.length < cnt →
      exec (.firSetk cnt) s =
        .next { s with inch := [], pc := s.pc + s.inch.length, held := some ⟨.firSetk, cnt, s.inch⟩ })

/-- R152: FIR.SETX as FIR.SETK for SIG, XLEN, XV and LMAX; the form of the hold is the model's choice (log entry 7, DESIGN
CHOICE). -/
def Obligations.FirSetxLoadsSignal : Prop :=
  ∀ (s : State) (cnt : Nat),
    (s.cfg.lmax < cnt → exec (.firSetx cnt) s = .next { s with fault := true, cause := 5#8 }) ∧
    (cnt ≤ s.cfg.lmax → cnt ≤ s.inch.length → ∃ x : Store F64,
      exec (.firSetx cnt) s =
        .next { s with sig := x, xlen := cnt, xv := true, inch := s.inch.drop cnt, pc := s.pc + cnt, held := none } ∧
      (∀ i < cnt, cellAt x i = s.inch[i]?) ∧ ∀ i ≥ cnt, cellAt x i = cellAt s.sig i) ∧
    (cnt ≤ s.cfg.lmax → s.inch.length < cnt →
      exec (.firSetx cnt) s =
        .next { s with inch := [], pc := s.pc + s.inch.length, held := some ⟨.firSetx, cnt, s.inch⟩ })

/-- R156, R157, R161: FIR.CONV faults with cause 6 when an operand was never loaded and with cause 8 when both are empty;
else OUT[n] for n below L + K - 1 is the sum, from +0.0 in ascending i, of SIG[i]·KER[n-i] over all valid i, ACC is the
last sum, and nothing but OUT, ACC, YLEN and YV changes. That a result of no element leaves ACC as it was is the model's reading
(log entry 16, DEDUCED). -/
def Obligations.FirConvComputesConvolution : Prop :=
  ∀ (s : State),
    (s.kv = false ∨ s.xv = false → exec .firConv s = .next { s with fault := true, cause := 6#8 }) ∧
    (s.kv = true → s.xv = true → s.klen + s.xlen = 0 →
      exec .firConv s = .next { s with fault := true, cause := 8#8 }) ∧
    (s.kv = true → s.xv = true → 1 ≤ s.klen + s.xlen → s.klen ≤ s.cfg.kmax → s.xlen ≤ s.cfg.lmax →
      ∀ x h : Nat → F64, Store.Holds s.sig s.xlen x → Store.Holds s.ker s.klen h →
      let m := s.xlen + s.klen - 1
      let y := fun n => macSum s.cfg.numerics x (fun i => h (n - i))
        ((List.range s.xlen).filter fun i => decide (i ≤ n ∧ n - i < s.klen))
      ∃ o : Store F64,
        exec .firConv s =
          .next { s with out := o, acc := if m = 0 then s.acc else y (m - 1), ylen := m, yv := true } ∧
        Store.Holds o m y ∧ ∀ n ≥ m, cellAt o n = cellAt s.out n)

/-- R158, R161: FIR.FILT faults with cause 6 when an operand was never loaded; else OUT[y] for y below L is the sum, from +0.0
in ascending b, of KER[b]·SIG[y-b] over exactly the b with y - b > 0, ACC is the last sum, and nothing but OUT, ACC, YLEN
and YV changes. That a result of no element leaves ACC as it was is the model's reading (log entry 16, DEDUCED). -/
def Obligations.FirFiltComputesCausalFilter : Prop :=
  ∀ (s : State),
    (s.kv = false ∨ s.xv = false → exec .firFilt s = .next { s with fault := true, cause := 6#8 }) ∧
    (s.kv = true → s.xv = true → s.klen ≤ s.cfg.kmax → s.xlen ≤ s.cfg.lmax →
      ∀ x h : Nat → F64, Store.Holds s.sig s.xlen x → Store.Holds s.ker s.klen h →
      let y := fun n => macSum s.cfg.numerics h (fun b => x (n - b))
        ((List.range s.klen).filter fun b => decide (0 < (n : Int) - (b : Int)))
      ∃ o : Store F64,
        exec .firFilt s =
          .next { s with out := o, acc := if s.xlen = 0 then s.acc else y (s.xlen - 1), ylen := s.xlen, yv := true } ∧
        Store.Holds o s.xlen y ∧ ∀ n ≥ s.xlen, cellAt o n = cellAt s.out n)

/-- The strict boundary (42_fir_commands.md section 4): whatever SIG[0] holds, FIR.FILT leaves the same OUT, ACC and lengths, and
OUT[0] is +0.0. -/
def Obligations.FiltNeverReadsFirstSample : Prop :=
  ∀ (s t : State) (v : F64), exec .firFilt s = .next t →
    exec .firFilt { s with sig := setCell s.sig 0 v } = .next { t with sig := setCell s.sig 0 v } ∧
    (s.kv = true → s.xv = true → 1 ≤ s.xlen → cellAt t.out 0 = some 0x0000000000000000#64)

/-- R160: FIR.GETY faults with cause 7 when YV = 0; else it puts YLEN and then OUT[0 .. YLEN-1] on OUTCH and changes nothing
else. -/
def Obligations.FirGetyReturnsResult : Prop :=
  ∀ (s : State),
    (s.yv = false → exec .firGety s = .next { s with fault := true, cause := 7#8 }) ∧
    (s.yv = true → s.ylen ≤ s.cfg.ymax → ∀ y : Nat → F64, Store.Holds s.out s.ylen y →
      exec .firGety s = .next { s with outch := s.outch ++ BitVec.ofNat 64 s.ylen :: (List.range s.ylen).map y })

/-- R162: a load of no elements is a load; one empty operand gives +0.0 elements of the formula's length in either mode; two
empty operands fault in FIR.CONV and give an empty result in FIR.FILT. That FIR.FILT on an empty signal leaves ACC as it was is the
model's reading (log entry 16, DEDUCED). -/
def Obligations.EmptyOperands : Prop :=
  ∀ (s : State),
    exec (.firSetk 0) s = .next { s with klen := 0, kv := true, held := none } ∧
    exec (.firSetx 0) s = .next { s with xlen := 0, xv := true, held := none } ∧
    (s.kv = true → s.xv = true → s.klen ≤ s.cfg.kmax → s.xlen ≤ s.cfg.lmax →
      (s.klen = 0 → s.xlen = 0 → exec .firConv s = .next { s with fault := true, cause := 8#8 }) ∧
      ((s.klen = 0 ∨ s.xlen = 0) → 1 ≤ s.klen + s.xlen → ∃ (o : Store F64) (a : F64),
        exec .firConv s = .next { s with out := o, acc := a, ylen := s.klen + s.xlen - 1, yv := true } ∧
        Store.Holds o (s.klen + s.xlen - 1) (fun _ => 0x0000000000000000#64)) ∧
      (s.klen = 0 → ∃ (o : Store F64) (a : F64),
        exec .firFilt s = .next { s with out := o, acc := a, ylen := s.xlen, yv := true } ∧
        Store.Holds o s.xlen (fun _ => 0x0000000000000000#64)) ∧
      (s.xlen = 0 → exec .firFilt s = .next { s with ylen := 0, yv := true }))

/-- The source's round trip (42_fir_commands.md section 6): with the default arithmetic, convolving with the one sample 1.0
returns every tap bit for bit, but a -0.0 tap as +0.0 and a NaN tap as some NaN. -/
def Obligations.ImpulseReproducesKernel : Prop :=
  ∀ (s : State) (h : Nat → F64), s.cfg.numerics = .ieee → s.kv = true → s.xv = true → s.xlen = 1 →
    cellAt s.sig 0 = some 0x3FF0000000000000#64 → s.klen ≤ s.cfg.kmax → Store.Holds s.ker s.klen h →
    ∃ (o : Store F64) (a : F64),
      exec .firConv s = .next { s with out := o, acc := a, ylen := s.klen, yv := true } ∧
      ∀ n < s.klen, ∃ y : F64, cellAt o n = some y ∧ (isNaN (h n) = true → isNaN y = true) ∧
        (isNaN (h n) = false → y = if h n = 0x8000000000000000#64 then 0x0000000000000000#64 else h n)

/-- 40_complex_arithmetic.md section 2: with the default arithmetic no element of a result of FIR.CONV or FIR.FILT is -0.0. -/
def Obligations.NoNegativeZeroInResult : Prop :=
  ∀ (s t : State) (i : Instr), i = .firConv ∨ i = .firFilt → s.cfg.numerics = .ieee → s.fault = false →
    exec i s = .next t → t.fault = false →
    ∀ n < t.ylen, ∃ y : F64, cellAt t.out n = some y ∧ y ≠ 0x8000000000000000#64

/-- The same as a property of the machine: whatever the operands, no event puts a -0.0 among the elements of the result, and none
uncovers an unwritten one (40_complex_arithmetic.md section 2). -/
def Obligations.NoNegativeZeroKept : Prop :=
  ∀ (s t : State) (e : Event), NoNegativeZero s → event e s = .next t → NoNegativeZero t

/-- That property holds after reset. -/
def Obligations.NoNegativeZeroAfterReset : Prop := ∀ c : Config, NoNegativeZero (State.resetOf c)

/-! ### System commands and the status word -/

/-- R181: NOP changes nothing; its header is the zero word, which moves only pc and INCH; any other word with its OPC faults with
cause 2. -/
def Obligations.NopOnlyAdvances : Prop :=
  (∀ s : State, exec .nop s = .next s) ∧ encodeHeader .nop = 0#64 ∧
  (∀ (s : State) (rest : List W64), s.Ready → s.inch = 0#64 :: rest →
    step s = .next { s with inch := rest, pc := s.pc + 1 }) ∧
  (∀ (s : State) (h : W64) (rest : List W64), s.Ready → s.inch = h :: rest → opcOf h = 0x00#8 → h ≠ 0#64 →
    step s = .next { s with inch := rest, pc := s.pc + 1, fault := true, cause := 2#8 })

/-- R182: STAT puts STATUS on OUTCH and changes nothing else; the word it returns from a core that has kept its invariants and is not
faulted lies in 0 to 15; a word with its OPC and another bit set faults with cause 2. -/
def Obligations.StatReturnsStatus : Prop :=
  (∀ s : State, exec .stat s = .next { s with outch := s.outch ++ [statusWord s] }) ∧
  (∀ s : State, Inv s → s.fault = false → (statusWord s).toNat ≤ 15) ∧
  (∀ (s : State) (h : W64) (rest : List W64), s.Ready → s.inch = h :: rest → opcOf h = 0x01#8 →
    h ≠ 0x0100000000000000#64 → step s = .next { s with inch := rest, pc := s.pc + 1, fault := true, cause := 2#8 })

/-- R31: the fields of STATUS, its value after reset, and the sideband and the port fault as views of it. -/
def Obligations.StatusWordFields : Prop :=
  (∀ s : State,
    (statusWord s).getLsbD 0 = s.fv ∧ (statusWord s).getLsbD 1 = s.kv ∧ (statusWord s).getLsbD 2 = s.xv ∧
    (statusWord s).getLsbD 3 = s.yv ∧ (statusWord s).getLsbD 4 = s.fault ∧ (statusWord s).extractLsb' 5 3 = 0#3 ∧
    (statusWord s).extractLsb' 8 8 = s.cause ∧ (statusWord s).extractLsb' 16 48 = 0#48 ∧
    hostStatus s = statusWord s ∧ faultPort s = s.fault) ∧
  ∀ c : Config, statusWord (State.resetOf c) = 0x0000000000000000#64

/-! ### The whole machine -/

/-- A core with nothing to take waits and nothing changes (20_memory.md section 3). That a wait is a step at all is the model's own
convention, log entry 9. -/
def Obligations.WaitingChangesNothing : Prop :=
  ∀ (s : State), s.fault = false → s.inch = [] → (∀ h ∈ s.held, Held.Good s.cfg h) → step s = .next s

/-- R224 for a core that has faulted: no step, no word taken from the host, and what is on OUTCH can still be taken. -/
def Obligations.FaultedCoreTakesNothing : Prop :=
  ∀ (s : State), s.fault = true → step s = .fault (.coreStopped s.cause) ∧ (∀ w : W64, hostAppend w s = s) ∧
    ∀ (w : W64) (rest : List W64), s.outch = w :: rest → hostTake s = some (w, { s with outch := rest })

/-- The host's two channels (20_memory.md section 3): a word appended while FAULT = 0 stands at the back of INCH, a word taken was
at the front of OUTCH, and neither changes anything else. -/
def Obligations.HostMovesOnlyWords : Prop :=
  (∀ (s : State) (w : W64), s.fault = false → event (.append w) s = .next { s with inch := s.inch ++ [w] }) ∧
  (∀ (s : State) (w : W64) (rest : List W64), s.outch = w :: rest →
    event .take s = .next { s with outch := rest } ∧ hostTake s = some (w, { s with outch := rest })) ∧
  ∀ s : State, s.outch = [] → event .take s = .next s ∧ hostTake s = none

/-- R225: a step that ends in a fault took one header and did nothing else but set FAULT and CAUSE. -/
def Obligations.FaultsArePrecise : Prop :=
  ∀ (s t : State), s.fault = false → step s = .next t → t.fault = true →
    s.held = none ∧ ∃ (h : W64) (rest : List W64) (c : Cause), s.inch = h :: rest ∧
      t = { s with inch := rest, pc := s.pc + 1, fault := true, cause := causeCode c }

/-- R226, R30: once FAULT = 1 only reset changes anything but OUTCH, and CAUSE keeps its code; reset clears both. -/
def Obligations.OnlyResetLeavesFault : Prop :=
  (∀ (s t : State) (e : Event), s.fault = true → e ≠ .reset → event e s = .next t →
    ∃ k : Nat, t = { s with outch := s.outch.drop k }) ∧
  (∀ (s : State), ∃ t : State, event .reset s = .next t ∧ t.fault = false ∧ t.cause = 0#8)

/-- A load whose payload comes in two parts does what it does with the payload in one (20_memory.md section 3: a held core goes on as
soon as the host appends a word). -/
def Obligations.SplitPayloadSameLoad : Prop :=
  ∀ (s t : State) (h : W64) (ws1 ws2 : List W64), s.Ready →
    step { s with inch := h :: ws1 } = .next t → t.held ≠ none →
    step { t with inch := t.inch ++ ws2 } = step { s with inch := h :: (ws1 ++ ws2) }

/-- Words leave INCH from the front, one for each count of pc, and OUTCH only grows at its back (20_memory.md section 3). -/
def Obligations.ChannelsAreFirstInFirstOut : Prop :=
  ∀ (s t : State), step s = .next t →
    (∃ k ≤ s.inch.length, t.inch = s.inch.drop k ∧ t.pc = s.pc + k) ∧ ∃ ws : List W64, t.outch = s.outch ++ ws

/-- R22: a command that completes moves pc by 1 + P, one that faults by 1, a faulted core never moves it, the host's words do
not, and reset makes it 0. -/
def Obligations.PcCountsWordsTaken : Prop :=
  (∀ (s t : State) (h : W64) (rest : List W64), s.Ready → s.inch = h :: rest → step s = .next t →
    (∀ i : Instr, decode h = .ok i → t.fault = false → t.held = none → t.pc = s.pc + (1 + payloadWords i)) ∧
    (t.fault = true → t.pc = s.pc + 1)) ∧
  (∀ (s t : State) (e : Event), s.fault = true → e ≠ .reset → event e s = .next t → t.pc = s.pc) ∧
  (∀ (s t : State) (e : Event), e ≠ .core → e ≠ .reset → event e s = .next t → t.pc = s.pc) ∧
  (∀ (s t : State), event .reset s = .next t → t.pc = 0)

/-- R77: how many words a command puts on OUTCH when it completes; a faulting one puts none. -/
def Obligations.ResponseLengths : Prop :=
  ∀ (s t : State) (i : Instr), s.Ready → exec i s = .next t → t.held = none →
    t.outch.length = s.outch.length + if t.fault then 0 else responseWords s i

/-- The two units share nothing (20_memory.md section 1): a command of one leaves the other's state alone and does the same whatever
that state is. -/
def Obligations.UnitsAreIndependent : Prop :=
  ∀ (i : Instr) (s t u : State), exec i s = .next t →
    (isFftCommand i = true → withFirOf s t = t ∧ exec i (withFirOf u s) = .next (withFirOf u t)) ∧
    (isFirCommand i = true → withFftOf s t = t ∧ exec i (withFftOf u s) = .next (withFftOf u t))

/-- Reading has no side effect (20_memory.md section 2): a read command changes OUTCH only, and repeated it returns the same words
again. -/
def Obligations.ReadsRepeat : Prop :=
  ∀ (s t : State) (i : Instr), i = .stat ∨ i = .fftGets ∨ i = .firGety → s.fault = false → exec i s = .next t →
    t.fault = false →
    ∃ ws : List W64, t = { s with outch := s.outch ++ ws } ∧ exec i t = .next { t with outch := t.outch ++ ws }

/-- R29: no event but reset clears a valid flag, and reset clears all four. -/
def Obligations.OnlyResetClearsFlags : Prop :=
  (∀ (s t : State) (e : Event), e ≠ .reset → event e s = .next t →
    (s.fv = true → t.fv = true) ∧ (s.kv = true → t.kv = true) ∧ (s.xv = true → t.xv = true) ∧
      (s.yv = true → t.yv = true)) ∧
  ∀ (s t : State), event .reset s = .next t → t.fv = false ∧ t.kv = false ∧ t.xv = false ∧ t.yv = false

/-- R36: reset puts a core in any state into the reset state, idle with STATUS zero; ACC, which the spec leaves unspecified, may
be anything here, and the configuration stays. -/
def Obligations.ResetReachesResetState : Prop :=
  ∀ (s : State), ∃ t : State, event .reset s = .next t ∧ t.Idle ∧ statusWord t = 0x0000000000000000#64 ∧
    t = { cfg := s.cfg, buf := [], ker := [], sig := [], out := [], acc := t.acc, klen := 0, xlen := 0, ylen := 0,
          fv := false, kv := false, xv := false, yv := false, fault := false, cause := 0#8, inch := [], outch := [], pc := 0,
          held := none }

/-- No step and no action of the host changes the configuration, which is why a parameter may stand in State (log entry 1). -/
def Obligations.ConfigurationIsConstant : Prop :=
  ∀ (s t : State) (e : Event), event e s = .next t → t.cfg = s.cfg

/-- The invariants of 10_state.md section 6 hold after reset, for every configuration; the form of a hold and of a store in them is
the model's choice (log entries 7 and 13, DESIGN CHOICE). -/
def Obligations.InvAfterReset : Prop := ∀ c : Config, Inv (State.resetOf c)

/-- Every step and every action of the host keeps the invariants of 10_state.md section 6; the form of a hold and of a store in them
is the model's choice (log entries 7 and 13, DESIGN CHOICE). -/
def Obligations.InvKeptByEveryEvent : Prop := ∀ (s t : State) (e : Event), Inv s → event e s = .next t → Inv t

/-- Where the invariants hold, the only stop of a step is FAULT = 1: no command reads an unwritten cell or makes an index outside a
store (10_state.md section 6, 20_memory.md section 5). That a core waiting for a word, idle or held, has a next state at all is
the model's choice (log entry 9, DESIGN CHOICE); 20_memory.md section 3 says that it has no step. -/
def Obligations.OnlyFaultedCoreStops : Prop :=
  ∀ (s : State), Inv s → s.fault = false → ∃ t : State, step s = .next t

/-- A command whose header stands at the front of INCH with its payload behind it is completed or turned away by one step.
70_reset_and_hazards.md sections 4 and 5 say finitely many steps; that one step of the model runs a whole command is the model's
choice (log entry 8, DESIGN CHOICE). -/
def Obligations.EveryCommandEnds : Prop :=
  ∀ (s : State) (h : W64) (rest : List W64) (i : Instr), Inv s → s.Ready → s.inch = h :: rest → decode h = .ok i →
    payloadTaken s.cfg i ≤ rest.length → ∃ t : State, step s = .next t ∧ t.held = none ∧
      t.inch = rest.drop (payloadTaken s.cfg i)

/-! ### Runs

70_reset_and_hazards.md section 4. That a run is a record beside the state, with the words of W still to come and the words the
host has taken, is the model's choice (log entry 19, DESIGN CHOICE). -/

/-- A run starts at the reset state with all of W still to come and nothing put on OUTCH; and its end as section 4 defines it, for a
run that has kept to its words: ended well exactly when the core is idle and
every word of W is taken, gone wrong exactly when FAULT = 1, not ended exactly when the core is held with INCH empty, and then
stuck exactly when W is exhausted too; the result is all words put on OUTCH with the final STATUS, and only a run that ended
well has one. -/
def Obligations.RunEndsAsDefined : Prop :=
  (∀ (c : Config) (words : List W64), (Run.start c words).Follows words ∧ (Run.start c words).core = State.resetOf c ∧
    (Run.start c words).pending = words ∧ (Run.start c words).output = []) ∧
  ∀ (words : List W64) (r : Run), r.Follows words →
    (r.status = .endedWell ↔ r.core.Idle ∧ r.core.pc = words.length) ∧
    (r.status = .goneWrong ↔ r.core.fault = true) ∧
    (r.status = .notEnded ∨ r.status = .stuck ↔ r.core.fault = false ∧ r.core.held ≠ none ∧ r.core.inch = []) ∧
    (r.status = .stuck ↔
      r.core.fault = false ∧ r.core.held ≠ none ∧ r.core.inch = [] ∧ r.core.pc = words.length) ∧
    (r.status = .endedWell → r.result = some (r.received ++ r.core.outch, statusWord r.core)) ∧
    (r.status ≠ .endedWell → r.result = none)

/-- Words of W are taken in the order appended, none skipped, duplicated or reordered (20_memory.md section 3), in every action
from every state. -/
def Obligations.RunFollowsKept : Prop :=
  ∀ (words : List W64) (a : RunAction) (r r' : Run), r.Follows words → r.advance a = .next r' → r'.Follows words

/-- Words reach the host in the order appended (20_memory.md section 3): an action only adds words at the end of the output of the
run, and only a step of the core adds any; and a run that is over stays over, with its output and STATUS. That a step of an idle
or stuck core answers the same state is log entry 9 (DESIGN CHOICE). -/
def Obligations.RunOutputGrowsUntilOver : Prop :=
  ∀ (a : RunAction) (r r' : Run), r.advance a = .next r' →
    (∃ ws : List W64, r'.output = r.output ++ ws ∧ (a ≠ .core → ws = [])) ∧
    (Inv r.core → r.status.Over → r'.outcome = r.outcome)

/-- What comes of a run is settled by its words: no action changes the outcome of the run that is finished from there by
appending all that is left of W and letting the core go on. That one step runs a whole command and that a wait is a step are log
entries 8 and 9 (DESIGN CHOICE). -/
def Obligations.RunOutcomeSettled : Prop :=
  ∀ (a : RunAction) (r r' : Run), Inv r.core → r.advance a = .next r' → r'.finish.outcome = r.finish.outcome

/-- Every run can be finished and is then over (section 4: a transform or a convolution always runs to completion), and when the
host appends and takes, all at once or over time, makes no difference to how a run stands when it is over, to its output or to
STATUS. -/
def Obligations.RunIndependentOfSchedule : Prop :=
  ∀ (c : Config) (words : List W64),
    (∃ actions : List RunAction, Run.acts actions (Run.start c words) = .next (Run.start c words).finish) ∧
    (Run.start c words).finish.status.Over ∧
    ∀ (actions : List RunAction) (r : Run), Run.acts actions (Run.start c words) = .next r → r.status.Over →
      r.outcome = (Run.start c words).finish.outcome
end

