-- ==== Sys2Proof/Laws/Binary64.lean ====
section
/-! SUPPORT. The fields of the patterns that `Machine/Binary64.lean` builds (`spec/40_complex_arithmetic.md` rules R100, R106). -/

namespace Sys2Proof.Machine

theorem packSign_toNat (neg : Bool) {mag : Nat} (h : mag < 2 ^ 63) :
    (packSign neg mag).toNat = cond neg (2 ^ 63) 0 + mag := by
  rw [packSign, BitVec.toNat_ofNat, Nat.mod_eq_of_lt]
  cases neg <;> simp only [cond_true, cond_false] <;> omega

/-- Bit 63 of a packed pattern is its sign. -/
theorem packSign_msb (neg : Bool) {mag : Nat} (h : mag < 2 ^ 63) : (packSign neg mag).msb = neg := by
  rw [BitVec.msb_eq_decide, packSign_toNat neg h]
  cases neg <;> simp; omega

/-- Bits 62:52 of a packed pattern. -/
theorem packSign_expOf (neg : Bool) {mag : Nat} (h : mag < 2 ^ 63) : expOf (packSign neg mag) = mag / 2 ^ 52 := by
  rw [expOf, BitVec.extractLsb'_toNat, packSign_toNat neg h, Nat.shiftRight_eq_div_pow]
  cases neg <;> simp only [cond_true, cond_false] <;> omega

/-- Bits 51:0 of a packed pattern. -/
theorem packSign_fracOf (neg : Bool) {mag : Nat} (h : mag < 2 ^ 63) : fracOf (packSign neg mag) = mag % 2 ^ 52 := by
  rw [fracOf, BitVec.extractLsb'_toNat, packSign_toNat neg h, Nat.shiftRight_eq_div_pow]
  cases neg <;> simp only [cond_true, cond_false] <;> omega

/-- Rounding never goes above the pattern of an infinity. -/
theorem roundMag_le_infMag (x sh : Nat) : roundMag x sh ≤ infMag := Nat.min_le_right _ _

theorem infMag_lt : infMag < 2 ^ 63 := by norm_num [infMag]

/-- A rounded magnitude fits below the sign bit, which is what the lemmas about `packSign` ask for. -/
theorem roundMag_lt (x sh : Nat) : roundMag x sh < 2 ^ 63 := Nat.lt_of_le_of_lt (roundMag_le_infMag x sh) infMag_lt

/-- What a free NaN is drawn as is a NaN, whatever the bits (R106). -/
theorem datumOf_nanFrom (bits : BitVec 64) : datumOf (nanFrom bits) = .nan := by
  obtain ⟨f, hf, hlt, hn⟩ : ∃ f, f ≠ 0 ∧ f < 2 ^ 52 ∧ nanFrom bits = packSign bits.msb (infMag + f) := by
    refine ⟨_, ?_, ?_, rfl⟩
    · split
      · decide
      · assumption
    · split
      · decide
      · exact Nat.mod_lt _ (by decide)
  have hb : infMag + f < 2 ^ 63 := by simp only [infMag]; omega
  have he : expOf (nanFrom bits) = 2047 := by rw [hn, packSign_expOf _ hb]; simp only [infMag]; omega
  have hfr : fracOf (nanFrom bits) = f := by rw [hn, packSign_fracOf _ hb]; simp only [infMag]; omega
  rw [datumOf, he, hfr, if_pos rfl, if_neg hf]

/-- Negating a datum twice gives it back. -/
@[simp] theorem negDatum_negDatum (d : Datum) : negDatum (negDatum d) = d := by
  cases d <;> simp [negDatum]

end Sys2Proof.Machine
end

