-- ==== Sys2Proof/Laws/Config.lean ====
section
/-! SUPPORT. What the bounds of `spec/00_scope.md` rule R6 give about a configuration, so that no proof unfolds its depths. -/

namespace Sys2Proof

theorem Config.n_pos (c : Config) : 0 < c.n := Nat.two_pow_pos _

theorem Config.half_pos (c : Config) : 0 < c.half := Nat.two_pow_pos _

theorem Config.two_mul_half (c : Config) : 2 * c.half = c.n := by
  have h := c.legal.1.1
  rw [Config.half, Config.n, ← Nat.pow_succ', Nat.succ_eq_add_one, Nat.sub_add_cancel h]

theorem Config.n_div_two (c : Config) : c.n / 2 = c.half := by
  have := c.two_mul_half; omega

theorem Config.half_le_n (c : Config) : c.half ≤ c.n := by
  have := c.two_mul_half; omega

theorem Config.tw_length (c : Config) : c.tw.length = c.half := c.legal.2.2.2

theorem Config.lmax_le_ymax (c : Config) : c.lmax ≤ c.ymax := by
  have := c.legal.2.1.1; unfold Config.ymax; omega

theorem Config.kmax_le_ymax (c : Config) : c.kmax ≤ c.ymax := by
  have := c.legal.2.2.1.1; unfold Config.ymax; omega

/-- The lengths R7 computes from the operands fit OUT. -/
theorem Config.conv_length_le_ymax (c : Config) {k l : Nat} (hk : k ≤ c.kmax) (hl : l ≤ c.lmax) : l + k - 1 ≤ c.ymax := by
  unfold Config.ymax; omega

end Sys2Proof
end

