-- ==== Sys2Proof/Laws/State.lean ====
section
/-! SUPPORT. One lemma per field per update of the state, so that no proof unfolds a record update. -/

namespace Sys2Proof.Machine

@[simp] theorem takeWords_cfg (k : Nat) (s : State) : (takeWords k s).cfg = s.cfg := rfl
@[simp] theorem takeWords_buf (k : Nat) (s : State) : (takeWords k s).buf = s.buf := rfl
@[simp] theorem takeWords_ker (k : Nat) (s : State) : (takeWords k s).ker = s.ker := rfl
@[simp] theorem takeWords_sig (k : Nat) (s : State) : (takeWords k s).sig = s.sig := rfl
@[simp] theorem takeWords_out (k : Nat) (s : State) : (takeWords k s).out = s.out := rfl
@[simp] theorem takeWords_acc (k : Nat) (s : State) : (takeWords k s).acc = s.acc := rfl
@[simp] theorem takeWords_klen (k : Nat) (s : State) : (takeWords k s).klen = s.klen := rfl
@[simp] theorem takeWords_xlen (k : Nat) (s : State) : (takeWords k s).xlen = s.xlen := rfl
@[simp] theorem takeWords_ylen (k : Nat) (s : State) : (takeWords k s).ylen = s.ylen := rfl
@[simp] theorem takeWords_fv (k : Nat) (s : State) : (takeWords k s).fv = s.fv := rfl
@[simp] theorem takeWords_kv (k : Nat) (s : State) : (takeWords k s).kv = s.kv := rfl
@[simp] theorem takeWords_xv (k : Nat) (s : State) : (takeWords k s).xv = s.xv := rfl
@[simp] theorem takeWords_yv (k : Nat) (s : State) : (takeWords k s).yv = s.yv := rfl
@[simp] theorem takeWords_fault (k : Nat) (s : State) : (takeWords k s).fault = s.fault := rfl
@[simp] theorem takeWords_cause (k : Nat) (s : State) : (takeWords k s).cause = s.cause := rfl
@[simp] theorem takeWords_inch (k : Nat) (s : State) : (takeWords k s).inch = s.inch.drop k := rfl
@[simp] theorem takeWords_outch (k : Nat) (s : State) : (takeWords k s).outch = s.outch := rfl
@[simp] theorem takeWords_pc (k : Nat) (s : State) : (takeWords k s).pc = s.pc + k := rfl
@[simp] theorem takeWords_held (k : Nat) (s : State) : (takeWords k s).held = s.held := rfl

@[simp] theorem putWords_cfg (ws : List W64) (s : State) : (putWords ws s).cfg = s.cfg := rfl
@[simp] theorem putWords_buf (ws : List W64) (s : State) : (putWords ws s).buf = s.buf := rfl
@[simp] theorem putWords_ker (ws : List W64) (s : State) : (putWords ws s).ker = s.ker := rfl
@[simp] theorem putWords_sig (ws : List W64) (s : State) : (putWords ws s).sig = s.sig := rfl
@[simp] theorem putWords_out (ws : List W64) (s : State) : (putWords ws s).out = s.out := rfl
@[simp] theorem putWords_acc (ws : List W64) (s : State) : (putWords ws s).acc = s.acc := rfl
@[simp] theorem putWords_klen (ws : List W64) (s : State) : (putWords ws s).klen = s.klen := rfl
@[simp] theorem putWords_xlen (ws : List W64) (s : State) : (putWords ws s).xlen = s.xlen := rfl
@[simp] theorem putWords_ylen (ws : List W64) (s : State) : (putWords ws s).ylen = s.ylen := rfl
@[simp] theorem putWords_fv (ws : List W64) (s : State) : (putWords ws s).fv = s.fv := rfl
@[simp] theorem putWords_kv (ws : List W64) (s : State) : (putWords ws s).kv = s.kv := rfl
@[simp] theorem putWords_xv (ws : List W64) (s : State) : (putWords ws s).xv = s.xv := rfl
@[simp] theorem putWords_yv (ws : List W64) (s : State) : (putWords ws s).yv = s.yv := rfl
@[simp] theorem putWords_fault (ws : List W64) (s : State) : (putWords ws s).fault = s.fault := rfl
@[simp] theorem putWords_cause (ws : List W64) (s : State) : (putWords ws s).cause = s.cause := rfl
@[simp] theorem putWords_inch (ws : List W64) (s : State) : (putWords ws s).inch = s.inch := rfl
@[simp] theorem putWords_outch (ws : List W64) (s : State) : (putWords ws s).outch = s.outch ++ ws := rfl
@[simp] theorem putWords_pc (ws : List W64) (s : State) : (putWords ws s).pc = s.pc := rfl
@[simp] theorem putWords_held (ws : List W64) (s : State) : (putWords ws s).held = s.held := rfl

@[simp] theorem raise_cfg (c : Cause) (s : State) : (raise c s).cfg = s.cfg := rfl
@[simp] theorem raise_buf (c : Cause) (s : State) : (raise c s).buf = s.buf := rfl
@[simp] theorem raise_ker (c : Cause) (s : State) : (raise c s).ker = s.ker := rfl
@[simp] theorem raise_sig (c : Cause) (s : State) : (raise c s).sig = s.sig := rfl
@[simp] theorem raise_out (c : Cause) (s : State) : (raise c s).out = s.out := rfl
@[simp] theorem raise_acc (c : Cause) (s : State) : (raise c s).acc = s.acc := rfl
@[simp] theorem raise_klen (c : Cause) (s : State) : (raise c s).klen = s.klen := rfl
@[simp] theorem raise_xlen (c : Cause) (s : State) : (raise c s).xlen = s.xlen := rfl
@[simp] theorem raise_ylen (c : Cause) (s : State) : (raise c s).ylen = s.ylen := rfl
@[simp] theorem raise_fv (c : Cause) (s : State) : (raise c s).fv = s.fv := rfl
@[simp] theorem raise_kv (c : Cause) (s : State) : (raise c s).kv = s.kv := rfl
@[simp] theorem raise_xv (c : Cause) (s : State) : (raise c s).xv = s.xv := rfl
@[simp] theorem raise_yv (c : Cause) (s : State) : (raise c s).yv = s.yv := rfl
@[simp] theorem raise_fault (c : Cause) (s : State) : (raise c s).fault = true := rfl
@[simp] theorem raise_cause (c : Cause) (s : State) : (raise c s).cause = causeCode c := rfl
@[simp] theorem raise_inch (c : Cause) (s : State) : (raise c s).inch = s.inch := rfl
@[simp] theorem raise_outch (c : Cause) (s : State) : (raise c s).outch = s.outch := rfl
@[simp] theorem raise_pc (c : Cause) (s : State) : (raise c s).pc = s.pc := rfl
@[simp] theorem raise_held (c : Cause) (s : State) : (raise c s).held = s.held := rfl

@[simp] theorem hold_cfg (h : Held) (s : State) : (hold h s).cfg = s.cfg := rfl
@[simp] theorem hold_buf (h : Held) (s : State) : (hold h s).buf = s.buf := rfl
@[simp] theorem hold_ker (h : Held) (s : State) : (hold h s).ker = s.ker := rfl
@[simp] theorem hold_sig (h : Held) (s : State) : (hold h s).sig = s.sig := rfl
@[simp] theorem hold_out (h : Held) (s : State) : (hold h s).out = s.out := rfl
@[simp] theorem hold_acc (h : Held) (s : State) : (hold h s).acc = s.acc := rfl
@[simp] theorem hold_klen (h : Held) (s : State) : (hold h s).klen = s.klen := rfl
@[simp] theorem hold_xlen (h : Held) (s : State) : (hold h s).xlen = s.xlen := rfl
@[simp] theorem hold_ylen (h : Held) (s : State) : (hold h s).ylen = s.ylen := rfl
@[simp] theorem hold_fv (h : Held) (s : State) : (hold h s).fv = s.fv := rfl
@[simp] theorem hold_kv (h : Held) (s : State) : (hold h s).kv = s.kv := rfl
@[simp] theorem hold_xv (h : Held) (s : State) : (hold h s).xv = s.xv := rfl
@[simp] theorem hold_yv (h : Held) (s : State) : (hold h s).yv = s.yv := rfl
@[simp] theorem hold_fault (h : Held) (s : State) : (hold h s).fault = s.fault := rfl
@[simp] theorem hold_cause (h : Held) (s : State) : (hold h s).cause = s.cause := rfl
@[simp] theorem hold_inch (h : Held) (s : State) : (hold h s).inch = s.inch := rfl
@[simp] theorem hold_outch (h : Held) (s : State) : (hold h s).outch = s.outch := rfl
@[simp] theorem hold_pc (h : Held) (s : State) : (hold h s).pc = s.pc := rfl
@[simp] theorem hold_held (h : Held) (s : State) : (hold h s).held = some h := rfl

@[simp] theorem release_cfg (s : State) : (release s).cfg = s.cfg := rfl
@[simp] theorem release_buf (s : State) : (release s).buf = s.buf := rfl
@[simp] theorem release_ker (s : State) : (release s).ker = s.ker := rfl
@[simp] theorem release_sig (s : State) : (release s).sig = s.sig := rfl
@[simp] theorem release_out (s : State) : (release s).out = s.out := rfl
@[simp] theorem release_acc (s : State) : (release s).acc = s.acc := rfl
@[simp] theorem release_klen (s : State) : (release s).klen = s.klen := rfl
@[simp] theorem release_xlen (s : State) : (release s).xlen = s.xlen := rfl
@[simp] theorem release_ylen (s : State) : (release s).ylen = s.ylen := rfl
@[simp] theorem release_fv (s : State) : (release s).fv = s.fv := rfl
@[simp] theorem release_kv (s : State) : (release s).kv = s.kv := rfl
@[simp] theorem release_xv (s : State) : (release s).xv = s.xv := rfl
@[simp] theorem release_yv (s : State) : (release s).yv = s.yv := rfl
@[simp] theorem release_fault (s : State) : (release s).fault = s.fault := rfl
@[simp] theorem release_cause (s : State) : (release s).cause = s.cause := rfl
@[simp] theorem release_inch (s : State) : (release s).inch = s.inch := rfl
@[simp] theorem release_outch (s : State) : (release s).outch = s.outch := rfl
@[simp] theorem release_pc (s : State) : (release s).pc = s.pc := rfl
@[simp] theorem release_held (s : State) : (release s).held = none := rfl

@[simp] theorem storeTransform_cfg (b : Store C64) (s : State) : (storeTransform b s).cfg = s.cfg := rfl
@[simp] theorem storeTransform_buf (b : Store C64) (s : State) : (storeTransform b s).buf = b := rfl
@[simp] theorem storeTransform_ker (b : Store C64) (s : State) : (storeTransform b s).ker = s.ker := rfl
@[simp] theorem storeTransform_sig (b : Store C64) (s : State) : (storeTransform b s).sig = s.sig := rfl
@[simp] theorem storeTransform_out (b : Store C64) (s : State) : (storeTransform b s).out = s.out := rfl
@[simp] theorem storeTransform_acc (b : Store C64) (s : State) : (storeTransform b s).acc = s.acc := rfl
@[simp] theorem storeTransform_klen (b : Store C64) (s : State) : (storeTransform b s).klen = s.klen := rfl
@[simp] theorem storeTransform_xlen (b : Store C64) (s : State) : (storeTransform b s).xlen = s.xlen := rfl
@[simp] theorem storeTransform_ylen (b : Store C64) (s : State) : (storeTransform b s).ylen = s.ylen := rfl
@[simp] theorem storeTransform_fv (b : Store C64) (s : State) : (storeTransform b s).fv = s.fv := rfl
@[simp] theorem storeTransform_kv (b : Store C64) (s : State) : (storeTransform b s).kv = s.kv := rfl
@[simp] theorem storeTransform_xv (b : Store C64) (s : State) : (storeTransform b s).xv = s.xv := rfl
@[simp] theorem storeTransform_yv (b : Store C64) (s : State) : (storeTransform b s).yv = s.yv := rfl
@[simp] theorem storeTransform_fault (b : Store C64) (s : State) : (storeTransform b s).fault = s.fault := rfl
@[simp] theorem storeTransform_cause (b : Store C64) (s : State) : (storeTransform b s).cause = s.cause := rfl
@[simp] theorem storeTransform_inch (b : Store C64) (s : State) : (storeTransform b s).inch = s.inch := rfl
@[simp] theorem storeTransform_outch (b : Store C64) (s : State) : (storeTransform b s).outch = s.outch := rfl
@[simp] theorem storeTransform_pc (b : Store C64) (s : State) : (storeTransform b s).pc = s.pc := rfl
@[simp] theorem storeTransform_held (b : Store C64) (s : State) : (storeTransform b s).held = s.held := rfl

@[simp] theorem storeSamples_cfg (b : Store C64) (s : State) : (storeSamples b s).cfg = s.cfg := rfl
@[simp] theorem storeSamples_buf (b : Store C64) (s : State) : (storeSamples b s).buf = b := rfl
@[simp] theorem storeSamples_ker (b : Store C64) (s : State) : (storeSamples b s).ker = s.ker := rfl
@[simp] theorem storeSamples_sig (b : Store C64) (s : State) : (storeSamples b s).sig = s.sig := rfl
@[simp] theorem storeSamples_out (b : Store C64) (s : State) : (storeSamples b s).out = s.out := rfl
@[simp] theorem storeSamples_acc (b : Store C64) (s : State) : (storeSamples b s).acc = s.acc := rfl
@[simp] theorem storeSamples_klen (b : Store C64) (s : State) : (storeSamples b s).klen = s.klen := rfl
@[simp] theorem storeSamples_xlen (b : Store C64) (s : State) : (storeSamples b s).xlen = s.xlen := rfl
@[simp] theorem storeSamples_ylen (b : Store C64) (s : State) : (storeSamples b s).ylen = s.ylen := rfl
@[simp] theorem storeSamples_fv (b : Store C64) (s : State) : (storeSamples b s).fv = true := rfl
@[simp] theorem storeSamples_kv (b : Store C64) (s : State) : (storeSamples b s).kv = s.kv := rfl
@[simp] theorem storeSamples_xv (b : Store C64) (s : State) : (storeSamples b s).xv = s.xv := rfl
@[simp] theorem storeSamples_yv (b : Store C64) (s : State) : (storeSamples b s).yv = s.yv := rfl
@[simp] theorem storeSamples_fault (b : Store C64) (s : State) : (storeSamples b s).fault = s.fault := rfl
@[simp] theorem storeSamples_cause (b : Store C64) (s : State) : (storeSamples b s).cause = s.cause := rfl
@[simp] theorem storeSamples_inch (b : Store C64) (s : State) : (storeSamples b s).inch = s.inch := rfl
@[simp] theorem storeSamples_outch (b : Store C64) (s : State) : (storeSamples b s).outch = s.outch := rfl
@[simp] theorem storeSamples_pc (b : Store C64) (s : State) : (storeSamples b s).pc = s.pc := rfl
@[simp] theorem storeSamples_held (b : Store C64) (s : State) : (storeSamples b s).held = s.held := rfl

@[simp] theorem storeKernel_cfg (k : Store F64) (cnt : Nat) (s : State) : (storeKernel k cnt s).cfg = s.cfg := rfl
@[simp] theorem storeKernel_buf (k : Store F64) (cnt : Nat) (s : State) : (storeKernel k cnt s).buf = s.buf := rfl
@[simp] theorem storeKernel_ker (k : Store F64) (cnt : Nat) (s : State) : (storeKernel k cnt s).ker = k := rfl
@[simp] theorem storeKernel_sig (k : Store F64) (cnt : Nat) (s : State) : (storeKernel k cnt s).sig = s.sig := rfl
@[simp] theorem storeKernel_out (k : Store F64) (cnt : Nat) (s : State) : (storeKernel k cnt s).out = s.out := rfl
@[simp] theorem storeKernel_acc (k : Store F64) (cnt : Nat) (s : State) : (storeKernel k cnt s).acc = s.acc := rfl
@[simp] theorem storeKernel_klen (k : Store F64) (cnt : Nat) (s : State) : (storeKernel k cnt s).klen = cnt := rfl
@[simp] theorem storeKernel_xlen (k : Store F64) (cnt : Nat) (s : State) : (storeKernel k cnt s).xlen = s.xlen := rfl
@[simp] theorem storeKernel_ylen (k : Store F64) (cnt : Nat) (s : State) : (storeKernel k cnt s).ylen = s.ylen := rfl
@[simp] theorem storeKernel_fv (k : Store F64) (cnt : Nat) (s : State) : (storeKernel k cnt s).fv = s.fv := rfl
@[simp] theorem storeKernel_kv (k : Store F64) (cnt : Nat) (s : State) : (storeKernel k cnt s).kv = true := rfl
@[simp] theorem storeKernel_xv (k : Store F64) (cnt : Nat) (s : State) : (storeKernel k cnt s).xv = s.xv := rfl
@[simp] theorem storeKernel_yv (k : Store F64) (cnt : Nat) (s : State) : (storeKernel k cnt s).yv = s.yv := rfl
@[simp] theorem storeKernel_fault (k : Store F64) (cnt : Nat) (s : State) : (storeKernel k cnt s).fault = s.fault := rfl
@[simp] theorem storeKernel_cause (k : Store F64) (cnt : Nat) (s : State) : (storeKernel k cnt s).cause = s.cause := rfl
@[simp] theorem storeKernel_inch (k : Store F64) (cnt : Nat) (s : State) : (storeKernel k cnt s).inch = s.inch := rfl
@[simp] theorem storeKernel_outch (k : Store F64) (cnt : Nat) (s : State) : (storeKernel k cnt s).outch = s.outch := rfl
@[simp] theorem storeKernel_pc (k : Store F64) (cnt : Nat) (s : State) : (storeKernel k cnt s).pc = s.pc := rfl
@[simp] theorem storeKernel_held (k : Store F64) (cnt : Nat) (s : State) : (storeKernel k cnt s).held = s.held := rfl

@[simp] theorem storeSignal_cfg (x : Store F64) (cnt : Nat) (s : State) : (storeSignal x cnt s).cfg = s.cfg := rfl
@[simp] theorem storeSignal_buf (x : Store F64) (cnt : Nat) (s : State) : (storeSignal x cnt s).buf = s.buf := rfl
@[simp] theorem storeSignal_ker (x : Store F64) (cnt : Nat) (s : State) : (storeSignal x cnt s).ker = s.ker := rfl
@[simp] theorem storeSignal_sig (x : Store F64) (cnt : Nat) (s : State) : (storeSignal x cnt s).sig = x := rfl
@[simp] theorem storeSignal_out (x : Store F64) (cnt : Nat) (s : State) : (storeSignal x cnt s).out = s.out := rfl
@[simp] theorem storeSignal_acc (x : Store F64) (cnt : Nat) (s : State) : (storeSignal x cnt s).acc = s.acc := rfl
@[simp] theorem storeSignal_klen (x : Store F64) (cnt : Nat) (s : State) : (storeSignal x cnt s).klen = s.klen := rfl
@[simp] theorem storeSignal_xlen (x : Store F64) (cnt : Nat) (s : State) : (storeSignal x cnt s).xlen = cnt := rfl
@[simp] theorem storeSignal_ylen (x : Store F64) (cnt : Nat) (s : State) : (storeSignal x cnt s).ylen = s.ylen := rfl
@[simp] theorem storeSignal_fv (x : Store F64) (cnt : Nat) (s : State) : (storeSignal x cnt s).fv = s.fv := rfl
@[simp] theorem storeSignal_kv (x : Store F64) (cnt : Nat) (s : State) : (storeSignal x cnt s).kv = s.kv := rfl
@[simp] theorem storeSignal_xv (x : Store F64) (cnt : Nat) (s : State) : (storeSignal x cnt s).xv = true := rfl
@[simp] theorem storeSignal_yv (x : Store F64) (cnt : Nat) (s : State) : (storeSignal x cnt s).yv = s.yv := rfl
@[simp] theorem storeSignal_fault (x : Store F64) (cnt : Nat) (s : State) : (storeSignal x cnt s).fault = s.fault := rfl
@[simp] theorem storeSignal_cause (x : Store F64) (cnt : Nat) (s : State) : (storeSignal x cnt s).cause = s.cause := rfl
@[simp] theorem storeSignal_inch (x : Store F64) (cnt : Nat) (s : State) : (storeSignal x cnt s).inch = s.inch := rfl
@[simp] theorem storeSignal_outch (x : Store F64) (cnt : Nat) (s : State) : (storeSignal x cnt s).outch = s.outch := rfl
@[simp] theorem storeSignal_pc (x : Store F64) (cnt : Nat) (s : State) : (storeSignal x cnt s).pc = s.pc := rfl
@[simp] theorem storeSignal_held (x : Store F64) (cnt : Nat) (s : State) : (storeSignal x cnt s).held = s.held := rfl

@[simp] theorem storeResult_cfg (a : F64) (y : Store F64) (m : Nat) (s : State) : (storeResult a y m s).cfg = s.cfg := rfl
@[simp] theorem storeResult_buf (a : F64) (y : Store F64) (m : Nat) (s : State) : (storeResult a y m s).buf = s.buf := rfl
@[simp] theorem storeResult_ker (a : F64) (y : Store F64) (m : Nat) (s : State) : (storeResult a y m s).ker = s.ker := rfl
@[simp] theorem storeResult_sig (a : F64) (y : Store F64) (m : Nat) (s : State) : (storeResult a y m s).sig = s.sig := rfl
@[simp] theorem storeResult_out (a : F64) (y : Store F64) (m : Nat) (s : State) : (storeResult a y m s).out = y := rfl
@[simp] theorem storeResult_acc (a : F64) (y : Store F64) (m : Nat) (s : State) : (storeResult a y m s).acc = a := rfl
@[simp] theorem storeResult_klen (a : F64) (y : Store F64) (m : Nat) (s : State) : (storeResult a y m s).klen = s.klen := rfl
@[simp] theorem storeResult_xlen (a : F64) (y : Store F64) (m : Nat) (s : State) : (storeResult a y m s).xlen = s.xlen := rfl
@[simp] theorem storeResult_ylen (a : F64) (y : Store F64) (m : Nat) (s : State) : (storeResult a y m s).ylen = m := rfl
@[simp] theorem storeResult_fv (a : F64) (y : Store F64) (m : Nat) (s : State) : (storeResult a y m s).fv = s.fv := rfl
@[simp] theorem storeResult_kv (a : F64) (y : Store F64) (m : Nat) (s : State) : (storeResult a y m s).kv = s.kv := rfl
@[simp] theorem storeResult_xv (a : F64) (y : Store F64) (m : Nat) (s : State) : (storeResult a y m s).xv = s.xv := rfl
@[simp] theorem storeResult_yv (a : F64) (y : Store F64) (m : Nat) (s : State) : (storeResult a y m s).yv = true := rfl
@[simp] theorem storeResult_fault (a : F64) (y : Store F64) (m : Nat) (s : State) : (storeResult a y m s).fault = s.fault := rfl
@[simp] theorem storeResult_cause (a : F64) (y : Store F64) (m : Nat) (s : State) : (storeResult a y m s).cause = s.cause := rfl
@[simp] theorem storeResult_inch (a : F64) (y : Store F64) (m : Nat) (s : State) : (storeResult a y m s).inch = s.inch := rfl
@[simp] theorem storeResult_outch (a : F64) (y : Store F64) (m : Nat) (s : State) : (storeResult a y m s).outch = s.outch := rfl
@[simp] theorem storeResult_pc (a : F64) (y : Store F64) (m : Nat) (s : State) : (storeResult a y m s).pc = s.pc := rfl
@[simp] theorem storeResult_held (a : F64) (y : Store F64) (m : Nat) (s : State) : (storeResult a y m s).held = s.held := rfl

end Sys2Proof.Machine
end

