-- ==== Sys2Proof/Laws/Ops.lean ====
section
/-! SUPPORT. What each shared operation does, once: cells of stores, loops, sequences of cells, payloads. -/

namespace Sys2Proof.Machine

/-! Cells of a store. -/

/-- A write is read back, and every other cell reads as before. -/
@[simp] theorem cellAt_setCell {α : Type} (st : Store α) (i j : Nat) (v : α) :
    cellAt (setCell st i v) j = if j = i then some v else cellAt st j := by
  induction st with
  | nil => simp [setCell, cellAt]
  | cons p rest ih =>
    obtain ⟨k, w⟩ := p
    by_cases h1 : i < k
    · simp [setCell, cellAt, h1]
    · by_cases h2 : i = k
      · subst h2; simp only [setCell, lt_irrefl, if_false, if_true, cellAt]; split <;> rfl
      · simp only [setCell, h1, h2, if_false, cellAt, ih]
        split_ifs <;> first | rfl | omega

theorem mem_fst_setCell {α : Type} (st : Store α) (i : Nat) (v : α) (k : Nat) :
    k ∈ (setCell st i v).map Prod.fst ↔ k = i ∨ k ∈ st.map Prod.fst := by
  induction st with
  | nil => simp [setCell]
  | cons p rest ih =>
    obtain ⟨j, w⟩ := p
    by_cases h1 : i < j
    · simp [setCell, h1]
    · by_cases h2 : i = j
      · subst h2; simp [setCell]
      · simp only [setCell, h1, h2, if_false, List.map_cons, List.mem_cons, ih]; tauto

/-- Every write keeps the canonical form. -/
theorem setCell_wf {α : Type} (st : Store α) (i : Nat) (v : α) (h : Store.Wf st) : Store.Wf (setCell st i v) := by
  induction st with
  | nil => simp [Store.Wf, setCell]
  | cons p rest ih =>
    obtain ⟨j, w⟩ := p
    simp only [Store.Wf, List.map_cons, List.pairwise_cons] at h
    obtain ⟨hj, hrest⟩ := h
    by_cases h1 : i < j
    · simp only [Store.Wf, setCell, h1, if_true, List.map_cons, List.pairwise_cons, List.mem_cons]
      exact ⟨fun k hk => hk.elim (fun e => e ▸ h1) (fun hm => h1.trans (hj k hm)), hj, hrest⟩
    · by_cases h2 : i = j
      · subst h2
        simp only [Store.Wf, setCell, lt_irrefl, if_false, if_true, List.map_cons, List.pairwise_cons]
        exact ⟨hj, hrest⟩
      · simp only [Store.Wf, setCell, h1, h2, if_false, List.map_cons, List.pairwise_cons]
        refine ⟨fun k hk => ?_, ih hrest⟩
        rcases (mem_fst_setCell rest i v k).1 hk with rfl | hm
        · omega
        · exact hj k hm

theorem setCell_within {α : Type} (st : Store α) (i size : Nat) (v : α) (hi : i < size) (h : Store.Within st size) :
    Store.Within (setCell st i v) size := by
  intro p hp
  rcases (mem_fst_setCell st i v p.1).1 (List.mem_map_of_mem hp) with e | hm
  · omega
  · obtain ⟨q, hq, e⟩ := List.mem_map.1 hm
    exact e ▸ h q hq

/-- No write makes a written cell unwritten. -/
theorem setCell_filled {α : Type} (st : Store α) (i m : Nat) (v : α) (h : Store.FilledTo st m) :
    Store.FilledTo (setCell st i v) m := by
  intro k hk
  rw [cellAt_setCell]
  split
  · rfl
  · exact h k hk

/-- A read answers exactly when the cell exists and is written. -/
theorem readCell_eq_ok {α : Type} (name : StoreName) (size : Nat) (st : Store α) (i : Nat) (v : α) :
    readCell name size st i = .ok v ↔ i < size ∧ cellAt st i = some v := by
  unfold readCell
  split
  · cases h : cellAt st i <;> simp [*]
  · simp [*]

/-- A write answers exactly when the cell exists. -/
theorem writeCell_eq_ok {α : Type} (name : StoreName) (size : Nat) (st st' : Store α) (i : Nat) (v : α) :
    writeCell name size st i v = .ok st' ↔ i < size ∧ st' = setCell st i v := by
  unfold writeCell
  split <;> simp [*, eq_comm]

/-- A read of the ROM answers exactly below its length. -/
theorem readTw_eq_ok (c : Config) (x : Nat) (w : C64) : readTw c x = .ok w ↔ c.tw[x]? = some w := by
  unfold readTw
  cases h : c.tw[x]? <;> simp

/-! Loops. -/

/-- A loop completes, and what each pass keeps holds at the end. -/
theorem forUp_completes {σ : Type} (body : Nat → σ → Except Fault σ) (P : Nat → σ → Prop) (a count : Nat) (x : σ)
    (h0 : P a x) (hstep : ∀ i y, a ≤ i → i < a + count → P i y → ∃ z, body i y = .ok z ∧ P (i + 1) z) :
    ∃ z, forUp body a count x = .ok z ∧ P (a + count) z := by
  induction count generalizing a x with
  | zero => exact ⟨x, rfl, h0⟩
  | succ n ih =>
    obtain ⟨y, hy, hP⟩ := hstep a x le_rfl (by omega) h0
    obtain ⟨z, hz, hQ⟩ := ih (a + 1) y hP (fun i y' h1 h2 => hstep i y' (by omega) (by omega))
    refine ⟨z, ?_, ?_⟩
    · simpa [forUp, hy] using hz
    · rwa [show a + (n + 1) = a + 1 + n by omega]

/-- Where a loop answers, what each answering pass keeps holds at the end. -/
theorem forUp_keeps {σ : Type} (body : Nat → σ → Except Fault σ) (P : Nat → σ → Prop) (a count : Nat) (x z : σ)
    (h0 : P a x) (hstep : ∀ i y y', a ≤ i → i < a + count → P i y → body i y = .ok y' → P (i + 1) y')
    (h : forUp body a count x = .ok z) : P (a + count) z := by
  induction count generalizing a x with
  | zero => simp only [forUp, Except.ok.injEq] at h; exact h ▸ h0
  | succ n ih =>
    simp only [forUp] at h
    split at h
    · next y hy =>
      rw [show a + (n + 1) = a + 1 + n by omega]
      exact ih (a + 1) y (hstep a x y le_rfl (by omega) h0 hy) (fun i y y' h1 h2 => hstep i y y' (by omega) (by omega)) h
    · cases h

/-! Sequences of cells. -/

/-- A sequence of writes inside the store completes: its cells hold the list and every other cell reads as before. -/
theorem writeSeq_completes {α : Type} (name : StoreName) (size : Nat) (vs : List α) (a : Nat) (st : Store α)
    (h : a + vs.length ≤ size) :
    ∃ st', writeSeq name size a vs st = .ok st' ∧
      ∀ i, cellAt st' i = if a ≤ i ∧ i < a + vs.length then vs[i - a]? else cellAt st i := by
  induction vs generalizing a st with
  | nil => exact ⟨st, rfl, fun i => by rw [if_neg (by simp)]⟩
  | cons v vs ih =>
    simp only [List.length_cons] at h
    obtain ⟨st', hw, hc⟩ := ih (a + 1) (setCell st a v) (by omega)
    refine ⟨st', ?_, fun i => ?_⟩
    · simp only [writeSeq, writeCell, if_pos (show a < size by omega), hw]
    · rw [hc i, cellAt_setCell]
      by_cases hi : i = a
      · subst hi; simp
      · by_cases hr : a + 1 ≤ i ∧ i < a + 1 + vs.length
        · rw [if_pos hr, if_pos (by simp only [List.length_cons]; omega), show i - a = (i - (a + 1)) + 1 by omega,
            List.getElem?_cons_succ]
        · rw [if_neg hr, if_neg hi, if_neg (by simp only [List.length_cons]; omega)]

/-- Where a sequence of writes answers, the canonical form, the range and the written cells are kept. -/
theorem writeSeq_keeps {α : Type} (name : StoreName) (size : Nat) (vs : List α) (a : Nat) (st st' : Store α)
    (hw : writeSeq name size a vs st = .ok st') (hwf : Store.Wf st) (hin : Store.Within st size) :
    Store.Wf st' ∧ Store.Within st' size := by
  induction vs generalizing a st with
  | nil => simp only [writeSeq, Except.ok.injEq] at hw; exact hw ▸ ⟨hwf, hin⟩
  | cons v vs ih =>
    simp only [writeSeq] at hw
    split at hw
    · next y hy =>
      obtain ⟨hlt, rfl⟩ := (writeCell_eq_ok name size st y a v).1 hy
      exact ih (a + 1) _ hw (setCell_wf st a v hwf) (setCell_within st a size v hlt hin)
    · cases hw

/-- A sequence of reads of written cells inside the store answers their values in order. -/
theorem readSeq_completes {α : Type} (name : StoreName) (size : Nat) (st : Store α) (f : Nat → α) (count a : Nat)
    (h : a + count ≤ size) (hf : ∀ i, a ≤ i → i < a + count → cellAt st i = some (f i)) :
    readSeq name size st a count = .ok ((List.range' a count).map f) := by
  induction count generalizing a with
  | zero => rfl
  | succ n ih =>
    have hr : readCell name size st a = .ok (f a) := (readCell_eq_ok ..).2 ⟨by omega, hf a le_rfl (by omega)⟩
    simp [readSeq, hr, ih (a + 1) (by omega) (fun i h1 h2 => hf i (by omega) (by omega)), List.range'_succ]

/-! Outcomes and payloads. -/

/-- Work followed by an update answers next exactly when the work does. -/
theorem thenNext_eq_next {α : Type} (r : Except Fault α) (update : α → State) (t : State) :
    thenNext r update = .next t ↔ ∃ x, r = .ok x ∧ t = update x := by
  cases r with
  | ok x => simp [thenNext, eq_comm]
  | error f => simp [thenNext]

/-- Work followed by an update never ends in a refusal. -/
theorem thenNext_ne_refused {α : Type} (r : Except Fault α) (update : α → State) (e : Refusal) :
    thenNext r update ≠ .refused e := by
  cases r <;> simp [thenNext]

/-- A load command completes when INCH holds the rest of its payload, and holds otherwise. -/
theorem loadPayload_cases (cmd : LoadCmd) (cnt : Nat) (complete : List W64 → State → Result) (taken : List W64) (s : State) :
    (payloadOf cmd cnt ≤ taken.length + s.inch.length ∧
      loadPayload cmd cnt complete taken s = complete (taken ++ s.inch.take (payloadLeft cmd cnt taken))
        (release (takeWords (payloadLeft cmd cnt taken) s))) ∨
    (taken.length + s.inch.length < payloadOf cmd cnt ∧
      loadPayload cmd cnt complete taken s = .next (hold ⟨cmd, cnt, taken ++ s.inch⟩ (takeWords s.inch.length s))) := by
  unfold loadPayload payloadLeft
  by_cases h : payloadOf cmd cnt - taken.length ≤ s.inch.length
  · exact .inl ⟨by omega, if_pos h⟩
  · exact .inr ⟨by omega, if_neg h⟩

/-- The words of a payload that is complete are as many as its command has (R75). -/
theorem payload_length (cmd : LoadCmd) (cnt : Nat) (taken : List W64) (s : State)
    (h : payloadOf cmd cnt ≤ taken.length + s.inch.length) (ht : taken.length ≤ payloadOf cmd cnt) :
    (taken ++ s.inch.take (payloadLeft cmd cnt taken)).length = payloadOf cmd cnt := by
  simp only [List.length_append, List.length_take, payloadLeft]
  omega

/-- Payload words in pairs: half as many elements, each with its real part first (R76). -/
theorem pairUp_getElem? (ws : List W64) (i : Nat) (h : 2 * i + 1 < ws.length) :
    (pairUp ws)[i]? = some ⟨ws[2 * i], ws[2 * i + 1]⟩ := by
  induction ws using pairUp.induct generalizing i with
  | case1 re im rest ih =>
    cases i with
    | zero => simp [pairUp]
    | succ i =>
      simp only [List.length_cons] at h
      simpa [pairUp, show 2 * (i + 1) = 2 * i + 1 + 1 by omega] using ih i (by omega)
  | case2 w => simp at h
  | case3 => simp at h

theorem pairUp_length (ws : List W64) : (pairUp ws).length = ws.length / 2 := by
  induction ws using pairUp.induct with
  | case1 re im rest ih => simp only [pairUp, List.length_cons, ih]; omega
  | case2 w => simp [pairUp]
  | case3 => simp [pairUp]

theorem flattenPairs_length (zs : List C64) : (flattenPairs zs).length = 2 * zs.length := by
  induction zs with
  | nil => rfl
  | cons z zs ih => simp only [flattenPairs, List.length_cons, ih]; omega

/-- Response words of complex elements (R77), in the library's terms. -/
theorem flattenPairs_eq_flatMap (zs : List C64) : flattenPairs zs = zs.flatMap fun z => [z.re, z.im] := by
  induction zs with
  | nil => rfl
  | cons z zs ih => simp [flattenPairs, ih]

end Sys2Proof.Machine
end

