-- ==== Sys2Proof/Laws/Step.lean ====
section
/-! SUPPORT. What a step can do, said once, and the store facts of the reset state. -/

namespace Sys2Proof.Machine

/-- The four cases of a step: stopped, held, waiting, taking a header. -/
theorem step_cases (s : State) :
    (s.fault = true ∧ step s = .fault (.coreStopped s.cause)) ∨
    (s.fault = false ∧ ∃ h, s.held = some h ∧ step s = resume h s) ∨
    (s.Idle ∧ step s = .next s) ∨
    (s.Ready ∧ ∃ h rest, s.inch = h :: rest ∧ step s = runHeader h (takeWords 1 s)) := by
  cases hf : s.fault with
  | true => exact .inl ⟨rfl, by simp [step, cycle, hf]⟩
  | false =>
    cases hh : s.held with
    | some h => exact .inr (.inl ⟨rfl, h, rfl, by simp [step, cycle, hf, hh]⟩)
    | none =>
      cases hi : s.inch with
      | nil => exact .inr (.inr (.inl ⟨⟨⟨hf, hh⟩, hi⟩, by simp [step, cycle, hf, hh, hi]⟩))
      | cons h rest => exact .inr (.inr (.inr ⟨⟨hf, hh⟩, h, rest, rfl, by simp [step, cycle, hf, hh, hi]⟩))

/-- What a header that has been taken does: its command runs, or the core faults with cause 1 or 2. -/
theorem runHeader_cases (h : W64) (s : State) :
    (∃ i, decode h = .ok i ∧ runHeader h s = exec i s) ∨
    (∃ e, decode h = .error e ∧ runHeader h s = .next (raise (decodeCause e) s)) := by
  cases hd : decode h with
  | ok i => exact .inl ⟨i, rfl, by simp [runHeader, hd]⟩
  | error e => exact .inr ⟨e, rfl, by simp [runHeader, hd]⟩

/-- The stores of the reset state are in canonical form. -/
theorem resetOf_stores_wf (c : Config) :
    Store.Wf (State.resetOf c).buf ∧ Store.Wf (State.resetOf c).ker ∧ Store.Wf (State.resetOf c).sig ∧
      Store.Wf (State.resetOf c).out := by
  simp [State.resetOf, Store.Wf]

end Sys2Proof.Machine
end

