-- ==== Sys2Proof/Laws/Exec.lean ====
section
/-! SUPPORT. What each meaning can answer, once: the next states of every command, and of a held load. -/

namespace Sys2Proof.Machine

variable {s t : State}

/-- The words of a load's payload once it is complete: those taken before and the rest from INCH. -/
abbrev fullPayload (cmd : LoadCmd) (cnt : Nat) (taken : List W64) (s : State) : List W64 :=
  taken ++ s.inch.take (payloadLeft cmd cnt taken)

/-- The state in which a load that has taken `taken` has taken the rest of its payload. -/
abbrev afterPayload (cmd : LoadCmd) (cnt : Nat) (taken : List W64) (s : State) : State :=
  release (takeWords (payloadLeft cmd cnt taken) s)

/-- The state in which a load has taken all of INCH and is held. -/
abbrev heldAfter (cmd : LoadCmd) (cnt : Nat) (taken : List W64) (s : State) : State :=
  hold ⟨cmd, cnt, taken ++ s.inch⟩ (takeWords s.inch.length s)

/-- A load whose completion stores its payload answers next in two ways: completed, or held. -/
theorem loadPayload_next {α : Type} {cmd : LoadCmd} {cnt : Nat} {taken : List W64}
    (work : List W64 → State → Except Fault α) (update : α → State → State) :
    loadPayload cmd cnt (fun ws s => thenNext (work ws s) (fun x => update x s)) taken s = .next t ↔
      (payloadOf cmd cnt ≤ taken.length + s.inch.length ∧
        ∃ x, work (fullPayload cmd cnt taken s) (afterPayload cmd cnt taken s) = .ok x ∧
          t = update x (afterPayload cmd cnt taken s)) ∨
      (taken.length + s.inch.length < payloadOf cmd cnt ∧ t = heldAfter cmd cnt taken s) := by
  rcases loadPayload_cases cmd cnt (fun ws s => thenNext (work ws s) (fun x => update x s)) taken s with
    ⟨h, e⟩ | ⟨h, e⟩
  · rw [e, thenNext_eq_next]
    exact ⟨fun hx => .inl ⟨h, hx⟩, fun hx => hx.elim And.right (fun hy => absurd hy.1 (by omega))⟩
  · rw [e]
    simp only [Host.Outcome.next.injEq]
    exact ⟨fun hx => .inr ⟨h, hx.symm⟩, fun hx => hx.elim (fun hy => absurd hy.1 (by omega)) (fun hy => hy.2.symm)⟩

theorem loadFftSetr_next {cnt : Nat} {taken : List W64} :
    loadFftSetr cnt taken s = .next t ↔
      (cnt ≤ taken.length + s.inch.length ∧
        ∃ b, writeSeq .buf s.cfg.n 0 ((fullPayload .fftSetr cnt taken s).map ofReal) s.buf = .ok b ∧
          t = storeSamples b (afterPayload .fftSetr cnt taken s)) ∨
      (taken.length + s.inch.length < cnt ∧ t = heldAfter .fftSetr cnt taken s) :=
  loadPayload_next (fun ws s => writeSeq .buf s.cfg.n 0 (ws.map ofReal) s.buf) storeSamples

theorem loadFftSetc_next {cnt : Nat} {taken : List W64} :
    loadFftSetc cnt taken s = .next t ↔
      (2 * cnt ≤ taken.length + s.inch.length ∧
        ∃ b, writeSeq .buf s.cfg.n 0 (pairUp (fullPayload .fftSetc cnt taken s)) s.buf = .ok b ∧
          t = storeSamples b (afterPayload .fftSetc cnt taken s)) ∨
      (taken.length + s.inch.length < 2 * cnt ∧ t = heldAfter .fftSetc cnt taken s) :=
  loadPayload_next (fun ws s => writeSeq .buf s.cfg.n 0 (pairUp ws) s.buf) storeSamples

theorem loadFirSetk_next {cnt : Nat} {taken : List W64} :
    loadFirSetk cnt taken s = .next t ↔
      (cnt ≤ taken.length + s.inch.length ∧
        ∃ k, writeSeq .ker s.cfg.kmax 0 (fullPayload .firSetk cnt taken s) s.ker = .ok k ∧
          t = storeKernel k cnt (afterPayload .firSetk cnt taken s)) ∨
      (taken.length + s.inch.length < cnt ∧ t = heldAfter .firSetk cnt taken s) :=
  loadPayload_next (fun ws s => writeSeq .ker s.cfg.kmax 0 ws s.ker) (fun k s => storeKernel k cnt s)

theorem loadFirSetx_next {cnt : Nat} {taken : List W64} :
    loadFirSetx cnt taken s = .next t ↔
      (cnt ≤ taken.length + s.inch.length ∧
        ∃ x, writeSeq .sig s.cfg.lmax 0 (fullPayload .firSetx cnt taken s) s.sig = .ok x ∧
          t = storeSignal x cnt (afterPayload .firSetx cnt taken s)) ∨
      (taken.length + s.inch.length < cnt ∧ t = heldAfter .firSetx cnt taken s) :=
  loadPayload_next (fun ws s => writeSeq .sig s.cfg.lmax 0 ws s.sig) (fun x s => storeSignal x cnt s)

theorem execNop_next : exec .nop s = .next t ↔ t = s := by simp [exec, execNop, eq_comm]

theorem execStat_next : exec .stat s = .next t ↔ t = putWords [statusWord s] s := by simp [exec, execStat, eq_comm]

theorem execFftSetr_next {cnt : Nat} :
    exec (.fftSetr cnt) s = .next t ↔
      (cnt = s.cfg.n ∧ loadFftSetr cnt [] s = .next t) ∨ (cnt ≠ s.cfg.n ∧ t = raise .fftCount s) := by
  by_cases h : cnt = s.cfg.n <;> simp [exec, execFftSetr, cntAccepted, h, eq_comm]

theorem execFftSetc_next {cnt : Nat} :
    exec (.fftSetc cnt) s = .next t ↔
      (cnt = s.cfg.n ∧ loadFftSetc cnt [] s = .next t) ∨ (cnt ≠ s.cfg.n ∧ t = raise .fftCount s) := by
  by_cases h : cnt = s.cfg.n <;> simp [exec, execFftSetc, cntAccepted, h, eq_comm]

theorem execFirSetk_next {cnt : Nat} :
    exec (.firSetk cnt) s = .next t ↔
      (cnt ≤ s.cfg.kmax ∧ loadFirSetk cnt [] s = .next t) ∨ (s.cfg.kmax < cnt ∧ t = raise .firCapacity s) := by
  by_cases h : cnt ≤ s.cfg.kmax <;> simp [exec, execFirSetk, cntAccepted, h, eq_comm, Nat.not_le.symm]

theorem execFirSetx_next {cnt : Nat} :
    exec (.firSetx cnt) s = .next t ↔
      (cnt ≤ s.cfg.lmax ∧ loadFirSetx cnt [] s = .next t) ∨ (s.cfg.lmax < cnt ∧ t = raise .firCapacity s) := by
  by_cases h : cnt ≤ s.cfg.lmax <;> simp [exec, execFirSetx, cntAccepted, h, eq_comm, Nat.not_le.symm]

theorem execFftRun_next :
    exec .fftRun s = .next t ↔
      (s.fv = true ∧ ∃ b, transform s.cfg s.buf = .ok b ∧ t = storeTransform b s) ∨
      (s.fv = false ∧ t = raise .fftEmpty s) := by
  cases h : s.fv <;> simp [exec, execFftRun, h, thenNext_eq_next, eq_comm (a := t)]

theorem execFftGets_next :
    exec .fftGets s = .next t ↔
      (s.fv = true ∧ ∃ zs, readSeq .buf s.cfg.n s.buf 0 s.cfg.half = .ok zs ∧ t = putWords (flattenPairs zs) s) ∨
      (s.fv = false ∧ t = raise .fftEmpty s) := by
  cases h : s.fv <;> simp [exec, execFftGets, h, thenNext_eq_next, eq_comm (a := t)]

theorem execFirConv_next :
    exec .firConv s = .next t ↔
      (s.kv = true ∧ s.xv = true ∧ s.klen + s.xlen ≠ 0 ∧
        ∃ r, applyKernel s (convElement s) (s.xlen + s.klen - 1) = .ok r ∧
          t = storeResult r.1 r.2 (s.xlen + s.klen - 1) s) ∨
      (s.kv = true ∧ s.xv = true ∧ s.klen + s.xlen = 0 ∧ t = raise .firLength s) ∨
      ((s.kv = false ∨ s.xv = false) ∧ t = raise .firNull s) := by
  by_cases hz : s.klen + s.xlen = 0 <;> cases hk : s.kv <;> cases hx : s.xv <;>
    simp only [exec, execFirConv, hk, hx, hz, thenNext_eq_next, Bool.and_true, Bool.and_false, Bool.false_eq_true,
      if_true, if_false, Host.Outcome.next.injEq, ne_eq, not_true, not_false_iff, true_and, false_and, and_false,
      or_false, false_or, or_true, reduceCtorEq] <;>
    exact eq_comm

theorem execFirFilt_next :
    exec .firFilt s = .next t ↔
      (s.kv = true ∧ s.xv = true ∧ ∃ r, applyKernel s (filtElement s) s.xlen = .ok r ∧
          t = storeResult r.1 r.2 s.xlen s) ∨
      ((s.kv = false ∨ s.xv = false) ∧ t = raise .firNull s) := by
  cases hk : s.kv <;> cases hx : s.xv <;> simp [exec, execFirFilt, hk, hx, thenNext_eq_next, eq_comm (a := t)]

theorem execFirGety_next :
    exec .firGety s = .next t ↔
      (s.yv = true ∧ ∃ ys, readSeq .out s.cfg.ymax s.out 0 s.ylen = .ok ys ∧
          t = putWords (BitVec.ofNat 64 s.ylen :: ys) s) ∨
      (s.yv = false ∧ t = raise .firNoResult s) := by
  cases h : s.yv <;> simp [exec, execFirGety, h, thenNext_eq_next, eq_comm (a := t)]

/-- A held core goes on with the load it is inside. -/
theorem resume_next {h : Held} :
    resume h s = .next t ↔
      (h.cmd = .fftSetr ∧ loadFftSetr h.cnt h.taken s = .next t) ∨
      (h.cmd = .fftSetc ∧ loadFftSetc h.cnt h.taken s = .next t) ∨
      (h.cmd = .firSetk ∧ loadFirSetk h.cnt h.taken s = .next t) ∨
      (h.cmd = .firSetx ∧ loadFirSetx h.cnt h.taken s = .next t) := by
  unfold resume
  cases h.cmd <;> simp

end Sys2Proof.Machine
end

