-- ==== Sys2Proof/Laws/PerInstr.lean ====
section
/-! SUPPORT. Facts stated per instruction: the fields of the header word each command is encoded to. -/

namespace Sys2Proof.Laws.HeaderFields

/-- The header of a command has its OPC, a zero RSV, and its CNT (`spec/30_encoding.md` rules R71, R78). -/
def Statement (i : Instr) : Prop :=
  opcOf (encodeHeader i) = i.opc ∧ rsvOf (encodeHeader i) = 0#24 ∧ cntOf (encodeHeader i) = BitVec.ofNat 32 i.cnt

/-- The three fields of a header put together from them. -/
theorem fields_append (opc : BitVec 8) (rsv : BitVec 24) (cnt : BitVec 32) :
    opcOf (opc ++ rsv ++ cnt) = opc ∧ rsvOf (opc ++ rsv ++ cnt) = rsv ∧ cntOf (opc ++ rsv ++ cnt) = cnt := by
  refine ⟨?_, ?_, ?_⟩ <;>
  · apply BitVec.eq_of_getLsbD_eq
    intro k hk
    simp only [opcOf, rsvOf, cntOf, BitVec.getLsbD_extractLsb', BitVec.getLsbD_append]
    simp only [hk, decide_true, Bool.true_and]
    split_ifs <;> first | omega | (congr 1; omega)

theorem nop : Statement .nop := fields_append ..
theorem stat : Statement .stat := fields_append ..
theorem fftSetr (cnt : Nat) : Statement (.fftSetr cnt) := fields_append ..
theorem fftSetc (cnt : Nat) : Statement (.fftSetc cnt) := fields_append ..
theorem fftRun : Statement .fftRun := fields_append ..
theorem fftGets : Statement .fftGets := fields_append ..
theorem firSetk (cnt : Nat) : Statement (.firSetk cnt) := fields_append ..
theorem firSetx (cnt : Nat) : Statement (.firSetx cnt) := fields_append ..
theorem firConv : Statement .firConv := fields_append ..
theorem firFilt : Statement .firFilt := fields_append ..
theorem firGety : Statement .firGety := fields_append ..

end Sys2Proof.Laws.HeaderFields
end

