-- ==== Sys2Proof/Laws/Run.lean ====
section
/-! SUPPORT. What one action of a run can do, once, and the small lemmas of its parts. -/

namespace Sys2Proof.Machine

/-- An offer either does nothing (FAULT = 1, or W is exhausted) or moves the next word of W to the back of INCH. -/
theorem appendNext_cases (r : Run) :
    ((r.core.fault = true ∨ r.pending = []) ∧ r.appendNext = r) ∨
    (r.core.fault = false ∧ ∃ w rest, r.pending = w :: rest ∧
      r.appendNext = { r with core := { r.core with inch := r.core.inch ++ [w] }, pending := rest }) := by
  cases hp : r.pending with
  | nil => exact .inl ⟨.inr rfl, by simp [Run.appendNext, hp]⟩
  | cons w rest =>
    cases hf : r.core.fault with
    | true => exact .inl ⟨.inl rfl, by simp [Run.appendNext, hp, inReady, hf]⟩
    | false => exact .inr ⟨rfl, w, rest, rfl, by simp [Run.appendNext, hp, inReady, hostAppend, hf]⟩

/-- A taking either finds OUTCH empty or moves its front word to the words received. -/
theorem takeFront_cases (r : Run) :
    (r.core.outch = [] ∧ r.takeFront = r) ∨
    (∃ w rest, r.core.outch = w :: rest ∧
      r.takeFront = { r with core := { r.core with outch := rest }, received := r.received ++ [w] }) := by
  cases ho : r.core.outch with
  | nil => exact .inl ⟨rfl, by simp [Run.takeFront, hostTake, ho]⟩
  | cons w rest => exact .inr ⟨w, rest, rfl, by simp [Run.takeFront, hostTake, ho]⟩

/-- The next runs of an action: a step of the core that answers, an offer, a taking. -/
theorem advance_next {a : RunAction} {r r' : Run} :
    r.advance a = .next r' ↔
      (a = .core ∧ ∃ s, step r.core = .next s ∧ r' = { r with core := s }) ∨
      (a = .append ∧ r' = r.appendNext) ∨ (a = .take ∧ r' = r.takeFront) := by
  cases a with
  | core => cases h : step r.core <;> simp [Run.advance, Run.withStep, h, eq_comm (a := r')]
  | append => simp [Run.advance, eq_comm (a := r')]
  | take => simp [Run.advance, eq_comm (a := r')]

/-- A schedule through one more action in front. -/
theorem acts_cons_next {a : RunAction} {as : List RunAction} {r r' : Run} :
    Run.acts (a :: as) r = .next r' ↔ ∃ m, r.advance a = .next m ∧ Run.acts as m = .next r' := by
  rw [Run.acts]
  cases h : r.advance a <;> simp

/-- Two schedules after one another. -/
theorem acts_append_next {as bs : List RunAction} {r r' : Run} :
    Run.acts (as ++ bs) r = .next r' ↔ ∃ m, Run.acts as r = .next m ∧ Run.acts bs m = .next r' := by
  induction as generalizing r with
  | nil => simp [Run.acts]
  | cons a as ih =>
    simp only [List.cons_append, acts_cons_next]
    constructor
    · rintro ⟨m, h, h'⟩
      obtain ⟨n, hn, hn'⟩ := ih.1 h'
      exact ⟨n, ⟨m, h, hn⟩, hn'⟩
    · rintro ⟨n, ⟨m, h, hn⟩, hn'⟩
      exact ⟨m, h, ih.2 ⟨n, hn, hn'⟩⟩

/-- What a property kept by every action says of a whole schedule. -/
theorem acts_keeps {P : Run → Prop} (hP : ∀ a r r', P r → r.advance a = .next r' → P r') {as : List RunAction}
    {r r' : Run} (h : Run.acts as r = .next r') (hr : P r) : P r' := by
  induction as generalizing r with
  | nil => cases h; exact hr
  | cons a as ih =>
    obtain ⟨m, hm, h'⟩ := acts_cons_next.1 h
    exact ih h' (hP a r m hr hm)

/-- Appending all that is left of W to a core that is not faulted. -/
theorem appendMany_all (r : Run) (h : r.core.fault = false) :
    r.appendMany r.pending.length = { r with core := { r.core with inch := r.core.inch ++ r.pending }, pending := [] } := by
  obtain ⟨s, ws, out⟩ := r
  induction ws generalizing s with
  | nil => simp [Run.appendMany]
  | cons w rest ih =>
    simp only [List.length_cons, Run.appendMany]
    have he : (Run.mk s (w :: rest) out).appendNext = ⟨{ s with inch := s.inch ++ [w] }, rest, out⟩ := by
      have hs : s.fault = false := h
      simp [Run.appendNext, inReady, hostAppend, hs]
    refine (congrArg (Run.appendMany rest.length) he).trans ((ih { s with inch := s.inch ++ [w] } h).trans ?_)
    simp

/-- A faulted core takes no offer. -/
theorem appendMany_faulted (r : Run) (k : Nat) (h : r.core.fault = true) : r.appendMany k = r := by
  induction k with
  | zero => rfl
  | succ k ih =>
    rcases appendNext_cases r with ⟨_, e⟩ | ⟨hf, _⟩
    · rw [Run.appendMany, e, ih]
    · rw [h] at hf; cases hf

/-- Steps one after another. -/
theorem coreSteps_add (j k : Nat) (s : State) (h : ∃ t, step (coreSteps j s) = .next t) :
    coreSteps (j + k) s = coreSteps k (coreSteps j s) := by
  induction j generalizing s with
  | zero => simp [coreSteps]
  | succ j ih =>
    rw [Nat.succ_add]
    cases hs : step s with
    | next t =>
      simp only [coreSteps, hs] at h ⊢
      exact ih t h
    | fault f =>
      simp only [coreSteps, hs] at h ⊢
      cases k <;> simp [coreSteps, hs]
    | refused e =>
      simp only [coreSteps, hs] at h ⊢
      cases k <;> simp [coreSteps, hs]

/-- A core whose step changes nothing has come to rest. -/
theorem coreSteps_rest (k : Nat) {s : State} (h : step s = .next s) : coreSteps k s = s := by
  induction k with
  | zero => rfl
  | succ k ih => rw [coreSteps, h]; exact ih

/-- A core that stops stays as it is. -/
theorem coreSteps_faulted (k : Nat) {s : State} (h : s.fault = true) : coreSteps k s = s := by
  cases k with
  | zero => rfl
  | succ k => simp [coreSteps, step, cycle, h]

end Sys2Proof.Machine
end

