-- ==== Sys2Proof/Tests/Slice0.lean ====
section
/-! SUPPORT. Tests of the model's own. Expected values come from spec/ (the rule, vector or program named in each comment), and
a witness shows for each statement's hypotheses that a concrete state meets them. -/

-- One theorem at a time: with all of them at once Lean asks for more threads than the check's memory limit allows.
set_option Elab.async false

namespace Sys2Proof.Tests

open Sys2Proof.Machine

/-! ### Helpers -/

/-- The next state of an outcome, if it is one. -/
def nextOf (r : Result) : Option State :=
  match r with
  | .next s => some s
  | .fault _ => none
  | .refused _ => none

/-- A core with LOG2N = 1, KMAX = 4, LMAX = 8. -/
def config1 : Config :=
  { log2n := 1, kmax := 4, lmax := 8, tw := [⟨0x3FF0000000000000#64, 0#64⟩], numerics := .ieee, legal := by decide }

/-- Values used below: 1, 2, 3, 4 and 0.5. -/
def f1 : F64 := 0x3FF0000000000000#64
def f2 : F64 := 0x4000000000000000#64
def f3 : F64 := 0x4008000000000000#64
def f4 : F64 := 0x4010000000000000#64
def fHalf : F64 := 0x3FE0000000000000#64

/-- The cells of a store from index 0. -/
def cells {α : Type} (vs : List α) : Store α := vs.zipIdx.map fun p => (p.2, p.1)

/-- A core with every store loaded: BUF = [1, 2, 3, 4], KER = [0.5], SIG = [1, 2, 3], OUT = [0, 1, 1.5], and some words on
both channels. -/
def loaded : State :=
  { State.reset with
    buf := cells [ofReal f1, ofReal f2, ofReal f3, ofReal f4], ker := cells [fHalf], sig := cells [f1, f2, f3],
    out := cells [plusZero, f1, 0x3FF8000000000000#64], klen := 1, xlen := 3, ylen := 3, fv := true, kv := true, xv := true,
    yv := true, inch := [0x0100000000000000#64, f1, f2, f3, f4, f1, f2, f3, f4], outch := [f1, f2], pc := 11 }

/-- The kernel and signal of `loaded` as functions. -/
def kerFn : Nat → F64 := fun _ => fHalf
def sigFn (i : Nat) : F64 := if i = 0 then f1 else if i = 1 then f2 else f3
def bufFn (i : Nat) : C64 := if i = 0 then ofReal f1 else if i = 1 then ofReal f2 else if i = 2 then ofReal f3 else ofReal f4

/-- A faulted core (program P4 of 95_test_vectors.md, with one word on OUTCH). -/
def faulted : State := { State.reset with kv := true, fault := true, cause := 4#8, outch := [2#64], pc := 6 }

/-- A core held in FIR.SETK with one of two taps taken (program P6). -/
def heldCore : State := { State.reset with pc := 2, held := some ⟨.firSetk, 2, [f1]⟩ }

/-! ### WellFormed and Config.Legal refuse ill-formed terms -/

theorem test_wf_accepts_top_count : (Instr.firSetx 4294967295).WellFormed := by decide
theorem test_wf_refuses_fftSetr : ¬ (Instr.fftSetr 4294967296).WellFormed := by decide
theorem test_wf_refuses_fftSetc : ¬ (Instr.fftSetc 4294967296).WellFormed := by decide
theorem test_wf_refuses_firSetk : ¬ (Instr.firSetk 4294967296).WellFormed := by decide
theorem test_wf_refuses_firSetx : ¬ (Instr.firSetx 4294967296).WellFormed := by decide
theorem test_legal_refuses_log2n_0 : ¬ Config.Legal 0 1 1 [⟨0#64, 0#64⟩] := by decide
theorem test_legal_refuses_log2n_32 : ¬ Config.Legal 32 1 1 [] := by decide
theorem test_legal_refuses_kmax_0 : ¬ Config.Legal 1 0 1 [⟨0#64, 0#64⟩] := by decide
theorem test_legal_refuses_kmax_above : ¬ Config.Legal 1 2147483649 1 [⟨0#64, 0#64⟩] := by decide
theorem test_legal_refuses_lmax_0 : ¬ Config.Legal 1 1 0 [⟨0#64, 0#64⟩] := by decide
theorem test_legal_refuses_lmax_above : ¬ Config.Legal 1 1 2147483649 [⟨0#64, 0#64⟩] := by decide
theorem test_legal_refuses_rom_length : ¬ Config.Legal 2 1 1 [⟨0#64, 0#64⟩] := by decide

/-! ### Decoding: the words of R78 written out bit by bit from the format of R71 -/

theorem test_decode_nop :
    decode 0b0000000000000000000000000000000000000000000000000000000000000000#64 = .ok .nop := by decide
theorem test_decode_stat :
    decode 0b0000000100000000000000000000000000000000000000000000000000000000#64 = .ok .stat := by decide
theorem test_decode_fftSetr :
    decode 0b0001000000000000000000000000000000000000000000000000000000000100#64 = .ok (.fftSetr 4) := by decide
theorem test_decode_fftSetc :
    decode 0b0001000100000000000000000000000000000000000000000000000000000100#64 = .ok (.fftSetc 4) := by decide
theorem test_decode_fftRun :
    decode 0b0001001000000000000000000000000000000000000000000000000000000000#64 = .ok .fftRun := by decide
theorem test_decode_fftGets :
    decode 0b0001001100000000000000000000000000000000000000000000000000000000#64 = .ok .fftGets := by decide
theorem test_decode_firSetk :
    decode 0b0010000000000000000000000000000000000000000000000000000000000011#64 = .ok (.firSetk 3) := by decide
theorem test_decode_firSetx :
    decode 0b0010000100000000000000000000000011111111111111111111111111111111#64 = .ok (.firSetx 4294967295) := by decide
theorem test_decode_firConv :
    decode 0b0010001000000000000000000000000000000000000000000000000000000000#64 = .ok .firConv := by decide
theorem test_decode_firFilt :
    decode 0b0010001100000000000000000000000000000000000000000000000000000000#64 = .ok .firFilt := by decide
theorem test_decode_firGety :
    decode 0b0010010000000000000000000000000000000000000000000000000000000000#64 = .ok .firGety := by decide
/-- V42 and V43: the priority of R223. -/
theorem test_decode_priority :
    decode 0x10FFFFFF00000005#64 = .error .reservedField ∧ decode 0xFF00000100000000#64 = .error .illegalOpcode := by decide
/-- R86 -/
theorem test_encode_worked_example :
    encode (.firSetk 1) [fHalf] = [0x2000000000000001#64, 0x3FE0000000000000#64] ∧
    encodeHeader (.fftSetc 2) = 0x1100000000000002#64 := by decide
theorem test_decodeTableWord : decodeTableWord 64 0x2000000000000002 = some (.firSetk 2) := by decide

/-! ### Arithmetic -/

/-- V35 (b): a product is rounded before it is added. -/
theorem test_mac_not_fused :
    macStep .ieee (macStep .ieee plusZero 0x3FB999999999999A#64 0x3FE3333333333333#64) 0x3FB999999999999A#64
      0x3FB999999999999A#64 = 0x3FB1EB851EB851EC#64 := by decide +kernel
/-- V50: two roundings in the subnormal range. -/
theorem test_div_subnormal :
    fdiv .ieee 0x000000000000000B#64 f4 = 0x0000000000000003#64 ∧
    fdiv .ieee 0x0000000000000003#64 f2 = 0x0000000000000002#64 := by decide +kernel
/-- V31: overflow to infinity. -/
theorem test_add_overflow :
    fadd .ieee 0x7FEFFFFFFFFFFFFF#64 0x7FEFFFFFFFFFFFFF#64 = 0x7FF0000000000000#64 := by decide +kernel
/-- R114 -/
theorem test_cmul_worked_example :
    cmul .ieee ⟨0#64, 0xBFF0000000000000#64⟩ ⟨0xC000000000000000#64, 0#64⟩ = ⟨0#64, f2⟩ := by decide +kernel
/-- The tables of R122. -/
theorem test_twiddle_tables_1_2 :
    defaultTw 1 = [⟨f1, 0#64⟩] ∧ defaultTw 2 = twForFour := by decide +kernel
theorem test_twiddle_table_3 :
    defaultTw 3 = [⟨f1, 0#64⟩, ⟨0x3FE6A09E667F3BCD#64, 0xBFE6A09E667F3BCD#64⟩, ⟨0#64, 0xBFF0000000000000#64⟩,
      ⟨0xBFE6A09E667F3BCD#64, 0xBFE6A09E667F3BCD#64⟩] := by decide +kernel
theorem test_twiddle_table_4 :
    defaultTw 4 = [⟨f1, 0#64⟩, ⟨0x3FED906BCF328D46#64, 0xBFD87DE2A6AEA963#64⟩,
      ⟨0x3FE6A09E667F3BCD#64, 0xBFE6A09E667F3BCD#64⟩, ⟨0x3FD87DE2A6AEA963#64, 0xBFED906BCF328D46#64⟩,
      ⟨0#64, 0xBFF0000000000000#64⟩, ⟨0xBFD87DE2A6AEA963#64, 0xBFED906BCF328D46#64⟩,
      ⟨0xBFE6A09E667F3BCD#64, 0xBFE6A09E667F3BCD#64⟩, ⟨0xBFED906BCF328D46#64, 0xBFD87DE2A6AEA963#64⟩] := by
  decide +kernel
/-- The reversed indices of R124. -/
theorem test_bitrev_3 : (List.range 8).map (bitrev 3) = [0, 4, 2, 6, 1, 5, 3, 7] := by decide

/-! ### One step of each command -/

/-- V38 -/
theorem test_nop : (nextOf (step { State.reset with inch := [0#64] })).map (fun t => (t.pc, t.inch, t.outch)) =
    some (1, [], []) := by decide +kernel
/-- R182: all four flags set give 0xF. -/
theorem test_stat : (nextOf (step loaded)).map (fun t => (t.pc, t.outch)) = some (12, [f1, f2, 0xF#64]) := by
  decide +kernel
/-- R120, the example. -/
theorem test_fftSetr :
    (nextOf (step { State.reset with inch := [0x1000000000000004#64, f1, f2, f3, f4] })).map
      (fun t => (t.buf, t.fv, t.pc)) = some (loaded.buf, true, 5) := by decide +kernel
/-- V45 -/
theorem test_fftSetr_count_fault :
    (nextOf (step { State.reset with inch := [0x1000000000000003#64, f1, f2, f3] })).map
      (fun t => (statusWord t, t.pc, t.inch, t.buf)) = some (0x310#64, 1, [f1, f2, f3], []) := by decide +kernel
/-- R121, the example (LOG2N = 1). -/
theorem test_fftSetc :
    (nextOf (step { State.resetOf config1 with
      inch := [0x1100000000000002#64, f1, f2, f3, 0xC010000000000000#64] })).map (fun t => (t.buf, t.fv)) =
    some ([(0, ⟨f1, f2⟩), (1, ⟨f3, 0xC010000000000000#64⟩)], true) := by decide +kernel
/-- V46 -/
theorem test_fftSetc_count_fault :
    (nextOf (step { State.reset with inch := [0x1100000000000002#64, f1] })).map (fun t => (statusWord t, t.pc)) =
    some (0x310#64, 1) := by decide +kernel
/-- V9 and R133: BUF after the transform of [1, 2, 3, 4]. -/
theorem test_fftRun :
    (nextOf (exec .fftRun loaded)).map (fun t => t.buf) =
    some (cells [⟨0x4004000000000000#64, 0#64⟩, ⟨0xBFF0000000000000#64, f1⟩, ⟨0xBFF0000000000000#64, 0#64⟩,
      ⟨0xBFF0000000000000#64, 0xBFF0000000000000#64⟩]) := by decide +kernel
/-- Program P4: FFT.RUN with nothing loaded. -/
theorem test_fftRun_empty :
    (nextOf (exec .fftRun { State.reset with kv := true })).map statusWord = some 0x412#64 := by decide +kernel
/-- V19: FFT.GETS before FFT.RUN returns the loaded values. -/
theorem test_fftGets :
    (nextOf (exec .fftGets loaded)).map (fun t => t.outch) = some [f1, f2, f1, 0#64, f2, 0#64] := by decide +kernel
/-- V47 -/
theorem test_fftGets_empty : (nextOf (exec .fftGets State.reset)).map statusWord = some 0x410#64 := by decide +kernel
/-- R150, the example. -/
theorem test_firSetk :
    (nextOf (step { State.reset with inch := [0x2000000000000001#64, fHalf] })).map
      (fun t => (t.ker, t.klen, t.kv, t.pc)) = some ([(0, fHalf)], 1, true, 2) := by decide +kernel
/-- V48 -/
theorem test_firSetk_capacity :
    (nextOf (step { State.reset with inch := [0x2000000000000005#64, f1, f2, f3, f4, f1] })).map
      (fun t => (statusWord t, t.pc)) = some (0x510#64, 1) := by decide +kernel
/-- R152, the example. -/
theorem test_firSetx :
    (nextOf (step { State.reset with inch := [0x2100000000000003#64, f1, f2, f3] })).map
      (fun t => (t.sig, t.xlen, t.xv, t.pc)) = some (cells [f1, f2, f3], 3, true, 4) := by decide +kernel
/-- V49 -/
theorem test_firSetx_capacity :
    (nextOf (step { State.reset with inch := [0x2100000000000009#64] })).map (fun t => (statusWord t, t.pc)) =
    some (0x510#64, 1) := by decide +kernel
/-- V22: the order of the additions. -/
theorem test_firConv_order :
    (nextOf (exec .firConv { State.reset with
      ker := cells [f1, f1, f1], sig := cells [f1, f1, 0x4341C37937E08000#64], klen := 3, xlen := 3, kv := true,
      xv := true })).map (fun t => (t.out, t.ylen)) =
    some (cells [f1, f2, 0x4341C37937E08001#64, 0x4341C37937E08000#64, 0x4341C37937E08000#64], 5) := by decide +kernel
/-- V44: two empty operands. -/
theorem test_firConv_empty :
    (nextOf (exec .firConv { State.reset with kv := true, xv := true, yv := true })).map statusWord = some 0x81E#64 := by
  decide +kernel
/-- V26: no element of the result depends on SIG[0]. -/
theorem test_firFilt :
    (nextOf (exec .firFilt { State.reset with
      ker := cells [f1, 0x4024000000000000#64, 0x4059000000000000#64],
      sig := cells [f1, f2, f3, f4, 0x4014000000000000#64], klen := 3, xlen := 5, kv := true, xv := true })).map
      (fun t => (t.out, t.ylen, t.acc)) =
    some (cells [0#64, f2, 0x4037000000000000#64, 0x406D400000000000#64, 0x4075900000000000#64], 5,
      0x4075900000000000#64) := by decide +kernel
/-- The fault vectors of section 2.5: a signal and no kernel. -/
theorem test_firFilt_null :
    (nextOf (exec .firFilt { State.reset with sig := cells [f1], xlen := 1, xv := true })).map statusWord =
    some 0x614#64 := by decide +kernel
/-- R160, the example. -/
theorem test_firGety :
    (nextOf (exec .firGety loaded)).map (fun t => t.outch) =
    some [f1, f2, 3#64, 0#64, f1, 0x3FF8000000000000#64] := by decide +kernel
/-- The fault vectors of section 2.5: operands and no result. -/
theorem test_firGety_noResult :
    (nextOf (exec .firGety { State.reset with kv := true, xv := true })).map statusWord = some 0x716#64 := by
  decide +kernel

/-! ### The machine -/

/-- Framing vector (b) and program P6: a short payload holds the core. -/
theorem test_short_payload_holds :
    nextOf (step { State.reset with inch := [0x2000000000000002#64, f1] }) = some heldCore := by decide +kernel
/-- Program P6: the next word completes the load, whatever it is. -/
theorem test_held_load_completes :
    (nextOf (step (hostAppend 5#64 heldCore))).map (fun t => (t.ker, t.klen, t.kv, t.held, t.pc)) =
    some (cells [f1, 5#64], 2, true, none, 3) := by decide +kernel
/-- Program P6 and R261: held with W exhausted is stuck, with a word of W left it has only not ended. -/
theorem test_run_stuck :
    (Run.mk heldCore [] []).status = .stuck ∧ (Run.mk heldCore [f1] []).status = .notEnded ∧
    (Run.mk faulted [] []).status = .goneWrong := by decide
/-- R261: idle in the middle of W is no end, and the result of a run has the words already taken by the host in front. -/
theorem test_run_result :
    (Run.mk State.reset [0#64] []).status = .running ∧ (Run.mk State.reset [] []).status = .endedWell ∧
    (Run.mk { State.reset with outch := [f2], kv := true } [] [f1]).result = some ([f1, f2], 2#64) ∧
    (Run.mk heldCore [] [f1]).result = none := by decide
/-- R182 and R261: one STAT word, appended and run to its end. -/
theorem test_run_finish :
    (Run.start resetConfig [0x0100000000000000#64]).finish.result = some ([0#64], 0#64) := by decide +kernel
/-- R31 and program P4: the sideband of the faulted core. -/
theorem test_status_faulted : hostStatus faulted = 0x412#64 ∧ faultPort faulted = true := by decide
/-- The first step after a program word is placed runs it, with its payload. -/
theorem test_withFetchWord :
    (nextOf (step (State.reset.withFetchWord 64 0x1000000000000004))).map (fun t => (t.fv, t.inch, t.pc)) =
    some (true, [], 5) := by decide +kernel

/-! ### Witnesses: states and operands that meet the hypotheses of the statements -/

theorem witness_inv_loaded : Inv loaded where
  bufWf := by decide
  kerWf := by decide
  sigWf := by decide
  outWf := by decide
  bufWithin := by decide
  kerWithin := by decide
  sigWithin := by decide
  outWithin := by decide
  bufFilled := fun _ => by decide
  kerFilled := fun _ => by decide
  sigFilled := fun _ => by decide
  outFilled := fun _ => by decide
  klenBound := by decide
  xlenBound := by decide
  ylenBound := by decide
  klenZero := by decide
  xlenZero := by decide
  ylenZero := by decide
  causeZero := by decide
  causeRange := by decide
  heldReady := by decide
  heldGood := by decide

theorem witness_DecodeOfEncode : (Instr.fftSetr 4294967295).WellFormed := by decide
theorem witness_EncodeOfDecode : decode 0x1000000000000004#64 = .ok (.fftSetr 4) := by decide
/-- A ready core with the header of each clause of R82 in front: an OPC just above the legal ones, RSV set, CNT set where there is
no count, and a good header. -/
theorem witness_HeaderIsSortedInOrder :
    (∀ h : W64, ({ loaded with inch := [h] }).Ready ∧ ({ loaded with inch := [h] }).inch = h :: []) ∧
    opcOf 0x2500000000000000#64 ∉ legalOpcodes ∧
    (opcOf 0x2100000100000000#64 ∈ legalOpcodes ∧ rsvOf 0x2100000100000000#64 ≠ 0#24) ∧
    (opcOf 0x2400000000000001#64 ∈ legalOpcodes ∧ opcOf 0x2400000000000001#64 ∈ countlessOpcodes ∧
      cntOf 0x2400000000000001#64 ≠ 0#32) ∧
    (opcOf 0x2400000000000000#64 ∈ legalOpcodes ∧ rsvOf 0x2400000000000000#64 = 0#24 ∧
      cntOf 0x2400000000000000#64 = 0#32) ∧
    (opcOf 0x2100000000000001#64 ∈ legalOpcodes ∧ rsvOf 0x2100000000000001#64 = 0#24 ∧
      opcOf 0x2100000000000001#64 ∉ countlessOpcodes) :=
  ⟨fun _ => ⟨⟨rfl, rfl⟩, rfl⟩, by decide⟩
theorem witness_StepRunsDecodedCommand :
    loaded.Ready ∧ loaded.inch = 0x0100000000000000#64 :: loaded.inch.tail ∧
    decode 0x0100000000000000#64 = .ok .stat := by decide
/-- The largest finite and the smallest subnormal; the sum of two largest overflows, of two smallest does not. -/
theorem witness_IeeeRounding :
    isFinite 0x7FEFFFFFFFFFFFFF#64 = true ∧ isFinite 0x8000000000000001#64 = true ∧ unitsOf 0x8000000000000001#64 ≠ 0 ∧
    Overflows (unitsOf 0x7FEFFFFFFFFFFFFF#64 + unitsOf 0x7FEFFFFFFFFFFFFF#64) 1 ∧
    ¬ Overflows (unitsOf 0x0000000000000001#64 + unitsOf 0x0000000000000001#64) 1 := by decide +kernel
theorem witness_NanExactlyWhenInvalid :
    isNaN 0x7FF0000000000001#64 = true ∧ infinity false = 0x7FF0000000000000#64 ∧
    isFinite 0x8000000000000000#64 = true ∧ unitsOf 0x8000000000000000#64 = 0 := by decide +kernel
theorem witness_SignedZeroLaws :
    isFinite f1 = true ∧ isNaN f1 = false ∧ f1 ≠ 0#64 ∧ f1 ≠ 0x8000000000000000#64 ∧
    fadd .ieee 0x8000000000000000#64 0x8000000000000000#64 = 0x8000000000000000#64 := by decide +kernel
theorem witness_ComplexOperations : isNaN (cmul .ieee ⟨f1, f2⟩ ⟨f3, f4⟩).re = false ∧
    isNaN (cmul .ieee ⟨f1, f2⟩ ⟨f3, f4⟩).im = false := by decide +kernel
/-- N = 4: the first count on each side of it, exactly the payload, and one word short of it. -/
theorem witness_FftSetrLoadsRealSamples :
    3 ≠ loaded.cfg.n ∧ 4 = loaded.cfg.n ∧ 4 ≤ loaded.inch.length ∧ ({ loaded with inch := [f1, f2, f3] }).inch.length < 4 := by
  decide
theorem witness_FftSetcLoadsComplexSamples :
    5 ≠ loaded.cfg.n ∧ 4 = loaded.cfg.n ∧ 2 * 4 ≤ loaded.inch.length ∧ heldCore.inch.length < 2 * 4 := by decide
theorem witness_BitReversal : 15 < 2 ^ 4 ∧ 3 < 4 := by decide
theorem witness_PermutationMovesCells : Store.Holds loaded.buf loaded.cfg.n bufFn := by decide
theorem witness_TwiddleIndexExact : 1 < resetConfig.log2n ∧ 1 < 2 ^ 1 := by decide
/-- The last stage of N = 4. -/
theorem witness_StageCombinesPairs : 1 < loaded.cfg.log2n ∧ Store.Holds loaded.buf loaded.cfg.n bufFn := by decide
theorem witness_NormalisationDivides :
    Store.Holds loaded.buf loaded.cfg.n bufFn ∧ 0 < loaded.cfg.n ∧ 3 < loaded.cfg.n ∧ 3 ≠ 0 := by decide
theorem witness_FftRunComputesTransform :
    State.reset.fv = false ∧ loaded.fv = true ∧ Store.Holds loaded.buf loaded.cfg.n bufFn := by decide
theorem witness_FftGetsReturnsHalf :
    State.reset.fv = false ∧ loaded.fv = true ∧ Store.Holds loaded.buf (loaded.cfg.n / 2) bufFn := by decide
theorem witness_ButterflyWritesSumAndDifference :
    1 < loaded.cfg.n ∧ 3 < loaded.cfg.n ∧ 1 ≠ 3 ∧ loaded.cfg.tw[1]? = some ⟨0#64, 0xBFF0000000000000#64⟩ ∧
    cellAt loaded.buf 1 = some (ofReal f2) ∧ cellAt loaded.buf 3 = some (ofReal f4) := by decide
/-- `loaded` with four +0.0 cells in BUF. -/
def zeroBuf : State := { loaded with buf := cells (List.replicate 4 ⟨0#64, 0#64⟩) }
theorem witness_ZeroSignalZeroSpectrum :
    zeroBuf.cfg.numerics = .ieee ∧ (∀ w ∈ zeroBuf.cfg.tw, isFinite w.re = true ∧ isFinite w.im = true) ∧
    zeroBuf.fv = true ∧ Store.Holds zeroBuf.buf zeroBuf.cfg.n (fun _ => ⟨0#64, 0#64⟩) := by decide
theorem witness_DefaultTwiddlesNearest : 7 < 2 ^ (4 - 1) ∧ isFinite f1 = true := by decide
/-- KMAX = 4: one tap too many, exactly full, and one word short. -/
theorem witness_FirSetkLoadsKernel :
    loaded.cfg.kmax < 5 ∧ 4 ≤ loaded.cfg.kmax ∧ 4 ≤ loaded.inch.length ∧
    ({ loaded with inch := [f1, f2, f3] }).inch.length < 4 := by decide
theorem witness_FirSetxLoadsSignal :
    loaded.cfg.lmax < 9 ∧ 8 ≤ loaded.cfg.lmax ∧ 8 ≤ loaded.inch.length ∧
    ({ loaded with inch := [f1, f2, f3] }).inch.length < 8 := by decide
/-- `loaded` with no taps, with no samples, and with neither; the flags stay set. -/
def noTaps : State := { loaded with klen := 0 }
def noSamples : State := { loaded with xlen := 0 }
def bothEmpty : State := { loaded with klen := 0, xlen := 0 }
/-- One tap and no samples, so that K + L = 1 and M = 0. -/
theorem witness_FirConvNoElement :
    noSamples.kv = true ∧ noSamples.xv = true ∧ noSamples.klen + noSamples.xlen = 1 ∧
    noSamples.klen ≤ noSamples.cfg.kmax ∧ noSamples.xlen ≤ noSamples.cfg.lmax ∧
    Store.Holds noSamples.sig noSamples.xlen sigFn ∧ Store.Holds noSamples.ker noSamples.klen kerFn := by decide
/-- FIR.FILT with L = 0. -/
theorem witness_FirFiltNoElement :
    noSamples.kv = true ∧ noSamples.xv = true ∧ noSamples.xlen = 0 ∧ noSamples.klen ≤ noSamples.cfg.kmax ∧
    noSamples.xlen ≤ noSamples.cfg.lmax ∧ Store.Holds noSamples.sig noSamples.xlen sigFn ∧
    Store.Holds noSamples.ker noSamples.klen kerFn := by decide
/-- Nothing loaded; both operands empty; operands of one tap and three samples. -/
theorem witness_FirConvComputesConvolution :
    State.reset.kv = false ∧
    (bothEmpty.kv = true ∧ bothEmpty.xv = true ∧ bothEmpty.klen + bothEmpty.xlen = 0) ∧
    loaded.kv = true ∧ loaded.xv = true ∧ 1 ≤ loaded.klen + loaded.xlen ∧ loaded.klen ≤ loaded.cfg.kmax ∧
    loaded.xlen ≤ loaded.cfg.lmax ∧ Store.Holds loaded.sig loaded.xlen sigFn ∧
    Store.Holds loaded.ker loaded.klen kerFn := by decide
theorem witness_FirFiltComputesCausalFilter :
    State.reset.xv = false ∧
    loaded.kv = true ∧ loaded.xv = true ∧ loaded.klen ≤ loaded.cfg.kmax ∧ loaded.xlen ≤ loaded.cfg.lmax ∧
    Store.Holds loaded.sig loaded.xlen sigFn ∧ Store.Holds loaded.ker loaded.klen kerFn := by decide
theorem witness_FiltNeverReadsFirstSample :
    (nextOf (exec .firFilt loaded)).isSome = true ∧ loaded.kv = true ∧ loaded.xv = true ∧ 1 ≤ loaded.xlen := by decide +kernel
theorem witness_FirGetyReturnsResult :
    loaded.yv = true ∧ State.reset.yv = false ∧ loaded.ylen ≤ loaded.cfg.ymax ∧
    Store.Holds loaded.out loaded.ylen (fun i => if i = 0 then plusZero else if i = 1 then f1 else 0x3FF8000000000000#64) := by
  decide
/-- Each empty operand alone, and both together, with both flags set. -/
theorem witness_EmptyOperands :
    (∀ s ∈ [noTaps, noSamples, bothEmpty],
      s.kv = true ∧ s.xv = true ∧ s.klen ≤ s.cfg.kmax ∧ s.xlen ≤ s.cfg.lmax) ∧
    (bothEmpty.klen = 0 ∧ bothEmpty.xlen = 0) ∧ (noTaps.klen = 0 ∧ 1 ≤ noTaps.klen + noTaps.xlen) ∧
    (noSamples.xlen = 0 ∧ 1 ≤ noSamples.klen + noSamples.xlen) := by decide
/-- `loaded` with the one sample 1.0 and the taps 0.5, -0.0 and a NaN. -/
def impulse : State :=
  { loaded with ker := cells [fHalf, 0x8000000000000000#64, 0x7FF8000000000000#64], klen := 3, xlen := 1 }
def impulseTap (i : Nat) : F64 :=
  if i = 0 then fHalf else if i = 1 then 0x8000000000000000#64 else 0x7FF8000000000000#64
theorem witness_ImpulseReproducesKernel :
    impulse.cfg.numerics = .ieee ∧ impulse.kv = true ∧ impulse.xv = true ∧ impulse.xlen = 1 ∧
    cellAt impulse.sig 0 = some 0x3FF0000000000000#64 ∧ impulse.klen ≤ impulse.cfg.kmax ∧
    Store.Holds impulse.ker impulse.klen impulseTap ∧ impulseTap 1 = 0x8000000000000000#64 ∧
    isNaN (impulseTap 2) = true := by decide
theorem witness_NoNegativeZeroInResult :
    loaded.cfg.numerics = .ieee ∧ loaded.fault = false ∧
    (nextOf (exec .firConv loaded)).map (fun t => (t.fault, t.ylen)) = some (false, 3) ∧
    (nextOf (exec .firFilt loaded)).map (fun t => (t.fault, t.ylen)) = some (false, 3) := by decide +kernel
theorem noNegativeZero_loaded : NoNegativeZero loaded := by
  have h : ∀ n < loaded.ylen,
      (cellAt loaded.out n).any (fun y => decide (y ≠ 0x8000000000000000#64)) = true := by decide
  intro _ n hn
  have := h n hn
  cases hc : cellAt loaded.out n <;> simp_all
/-- `loaded` with one word on INCH. -/
def oneWord (h : W64) : State := { loaded with inch := [h] }
/-- A step that runs FIR.CONV over a result that is there already. -/
theorem witness_NoNegativeZeroKept :
    NoNegativeZero (oneWord 0x2200000000000000#64) ∧
    (nextOf (event .core (oneWord 0x2200000000000000#64))).map (fun t => (t.ylen, t.yv)) = some (3, true) :=
  ⟨noNegativeZero_loaded, by decide +kernel⟩
theorem witness_NopOnlyAdvances :
    (oneWord 0#64).Ready ∧ (oneWord 0#64).inch = 0#64 :: [] ∧
    (oneWord 1#64).Ready ∧ (oneWord 1#64).inch = 1#64 :: [] ∧ opcOf 1#64 = 0x00#8 ∧ 1#64 ≠ 0#64 := by decide
theorem witness_StatReturnsStatus :
    Inv loaded ∧ loaded.fault = false ∧ (oneWord 0x0100000100000000#64).Ready ∧
    (oneWord 0x0100000100000000#64).inch = 0x0100000100000000#64 :: [] ∧ opcOf 0x0100000100000000#64 = 0x01#8 ∧
    0x0100000100000000#64 ≠ 0x0100000000000000#64 := ⟨witness_inv_loaded, by decide⟩
theorem witness_WaitingChangesNothing :
    heldCore.fault = false ∧ heldCore.inch = [] ∧ (∀ h ∈ heldCore.held, Held.Good heldCore.cfg h) ∧
    State.reset.Idle := by decide
theorem witness_FaultedCoreTakesNothing : faulted.fault = true ∧ faulted.outch = 2#64 :: [] := by decide
theorem witness_OnlyResetLeavesFault :
    faulted.fault = true ∧ Event.take ≠ .reset ∧ (nextOf (event .take faulted)).isSome = true ∧
    Event.append 5#64 ≠ .reset ∧ (nextOf (event (.append 5#64) faulted)).isSome = true := by decide
theorem witness_HostMovesOnlyWords :
    loaded.fault = false ∧ loaded.outch = f1 :: [f2] ∧ State.reset.outch = [] := by decide
theorem witness_FaultsArePrecise :
    (oneWord 0x0200000000000000#64).fault = false ∧
    (nextOf (step (oneWord 0x0200000000000000#64))).map (fun t => t.fault) = some true := by decide +kernel
theorem witness_SplitPayloadSameLoad :
    loaded.Ready ∧
    (nextOf (step { loaded with inch := 0x2000000000000002#64 :: [f1] })).map (fun t => t.held.isSome) = some true := by
  decide +kernel
theorem witness_ChannelsAreFirstInFirstOut :
    (nextOf (step loaded)).isSome = true ∧ (nextOf (step (hostAppend 5#64 heldCore))).isSome = true := by decide +kernel
/-- Each event from a state in which it answers a next state. -/
theorem witness_ConfigurationIsConstant :
    (nextOf (event .core loaded)).isSome = true ∧ (nextOf (event (.append f1) loaded)).isSome = true ∧
    (nextOf (event .take loaded)).isSome = true ∧ (nextOf (event .reset faulted)).isSome = true := by decide +kernel
theorem witness_OnlyResetClearsFlags :
    Event.core ≠ .reset ∧ (nextOf (event .core loaded)).isSome = true ∧ loaded.fv = true ∧ loaded.kv = true ∧
    loaded.xv = true ∧ loaded.yv = true ∧ (nextOf (event .reset loaded)).isSome = true := by decide +kernel
theorem witness_InvKeptByEveryEvent : Inv loaded ∧ (nextOf (event .core loaded)).isSome = true :=
  ⟨witness_inv_loaded, by decide +kernel⟩
theorem witness_OnlyFaultedCoreStops : Inv loaded ∧ loaded.fault = false := ⟨witness_inv_loaded, rfl⟩
/-- A command that completes, and one that faults, behind a header. -/
theorem witness_PcCountsWordsTaken :
    loaded.Ready ∧ loaded.inch = 0x0100000000000000#64 :: loaded.inch.tail ∧ decode 0x0100000000000000#64 = .ok .stat ∧
    (nextOf (step loaded)).map (fun t => (t.fault, t.held)) = some (false, none) ∧
    (oneWord 0x0200000000000000#64).Ready ∧
    (nextOf (step (oneWord 0x0200000000000000#64))).map (fun t => t.fault) = some true ∧
    faulted.fault = true ∧ Event.take ≠ .reset ∧ Event.take ≠ .core ∧ (nextOf (event .take faulted)).isSome = true ∧
    (nextOf (event .reset faulted)).isSome = true := by decide +kernel
theorem witness_ResponseLengths :
    loaded.Ready ∧ (nextOf (exec .firGety loaded)).map (fun t => (t.held, t.fault)) = some (none, false) := by decide +kernel
theorem witness_UnitsAreIndependent :
    isFftCommand .fftRun = true ∧ isFirCommand .firConv = true ∧ isFftCommand .stat = false ∧
    (nextOf (exec .fftRun loaded)).isSome = true ∧ (nextOf (exec .firConv loaded)).isSome = true := by decide +kernel
theorem witness_ReadsRepeat :
    loaded.fault = false ∧ (nextOf (exec .stat loaded)).map (fun t => t.fault) = some false ∧
    (nextOf (exec .fftGets loaded)).map (fun t => t.fault) = some false ∧
    (nextOf (exec .firGety loaded)).map (fun t => t.fault) = some false := by decide +kernel
/-- The words of a run that loads one tap and asks for the status, and a run in the middle of its words. -/
def runWords : List W64 := [0x2000000000000001#64, fHalf, 0x0100000000000000#64]
def loadedRun : Run := { core := loaded, pending := [0x1300000000000000#64], received := [f3] }
/-- A run that is running, one that is over in each way of R261, and one that waits for a word, each keeping to its words. -/
theorem witness_RunEndsAsDefined :
    (Run.start resetConfig runWords).Follows runWords ∧
    (Run.mk { State.reset with pc := 3 } [] []).Follows runWords ∧
    (Run.mk { State.reset with pc := 3 } [] []).status = .endedWell ∧
    (Run.mk { faulted with pc := 1, inch := [fHalf] } [0x0100000000000000#64] []).Follows runWords ∧
    (Run.mk heldCore [] []).Follows [0x2000000000000002#64, f1] ∧
    (Run.mk heldCore [f2] []).Follows [0x2000000000000002#64, f1, f2] := by decide
theorem witness_RunFollowsKept :
    (Run.mk { State.reset with inch := [0x2000000000000001#64] } [fHalf, 0x0100000000000000#64] []).Follows runWords ∧
    (match (Run.mk { State.reset with inch := [0x2000000000000001#64] } [fHalf, 0x0100000000000000#64] []).advance .core with
      | .next r => decide (r.core.pc = 1 ∧ r.core.held.isSome = true)
      | .fault _ => false
      | .refused _ => false) = true := by decide +kernel
/-- A step that answers, and a run that ended well and one that is stuck, with the invariants. -/
theorem witness_RunOutputGrowsUntilOver :
    (nextOf (step loadedRun.core)).isSome = true ∧ Inv ({ loaded with inch := [] }) ∧
    (Run.mk { loaded with inch := [] } [] [f3]).status.Over ∧ (nextOf (step { loaded with inch := [] })).isSome = true :=
  ⟨by decide +kernel, { witness_inv_loaded with }, by decide, by decide +kernel⟩
theorem witness_RunOutcomeSettled : Inv loadedRun.core ∧ (nextOf (step loadedRun.core)).isSome = true :=
  ⟨witness_inv_loaded, by decide +kernel⟩
/-- A schedule by which a run of one STAT word ends well, its word taken by the host. -/
theorem witness_RunIndependentOfSchedule :
    (match Run.acts [.append, .core, .take, .core] (Run.start resetConfig [0x0100000000000000#64]) with
      | .next r => decide (r.status.Over ∧ r.received = [0#64])
      | .fault _ => false
      | .refused _ => false) = true := by decide +kernel
/-- FIR.SETK with exactly its payload behind it, and a command whose check turns it away with nothing behind it. -/
theorem witness_EveryCommandEnds :
    Inv { loaded with inch := [0x2000000000000002#64, f1, f2] } ∧
    ({ loaded with inch := [0x2000000000000002#64, f1, f2] }).Ready ∧ decode 0x2000000000000002#64 = .ok (.firSetk 2) ∧
    payloadTaken loaded.cfg (.firSetk 2) ≤ [f1, f2].length ∧
    Inv (oneWord 0x1000000000000005#64) ∧ decode 0x1000000000000005#64 = .ok (.fftSetr 5) ∧
    payloadTaken loaded.cfg (.fftSetr 5) ≤ ([] : List W64).length :=
  ⟨{ witness_inv_loaded with }, by decide, by decide, by decide, { witness_inv_loaded with }, by decide, by decide⟩

end Sys2Proof.Tests
end

section
/-! PROOFS. The family of `spec/10_state.md`: what an event can answer and what becomes of `pc` (R22), the fields of STATUS (R31),
and the reset state (R36). -/

namespace Sys2Proof.Machine

/-! What a command and an event can answer. -/

/-- The control state after a command that ran to its end: its payload has left INCH and is counted by pc, OUTCH has at most grown
at its back, and neither the configuration, FAULT and CAUSE nor a free hold has changed. -/
structure Completes (i : Instr) (s t : State) : Prop where
  cfg : t.cfg = s.cfg
  inch : t.inch = s.inch.drop (payloadWords i)
  outch : s.outch <+: t.outch
  pc : t.pc = s.pc + payloadWords i
  fault : t.fault = s.fault
  cause : t.cause = s.cause
  held : s.held = none → t.held = none

/-- A command completes, or it is turned away with a cause and nothing else, or it is a load that takes all of INCH and holds. -/
theorem exec_cases {i : Instr} {s t : State} (h : exec i s = .next t) :
    Completes i s t ∨ (∃ c, t = raise c s) ∨
      ∃ cmd, loadCmdOf i = some cmd ∧ s.inch.length < payloadWords i ∧ t = heldAfter cmd i.cnt [] s := by
  have silent : s.outch <+: s.outch := List.prefix_rfl
  have answers (ws : List W64) : s.outch <+: s.outch ++ ws := List.prefix_append _ ws
  cases i with
  | nop =>
    obtain rfl := execNop_next.1 h
    exact .inl ⟨rfl, rfl, silent, rfl, rfl, rfl, id⟩
  | stat =>
    obtain rfl := execStat_next.1 h
    exact .inl ⟨rfl, rfl, answers _, rfl, rfl, rfl, id⟩
  | fftSetr cnt =>
    obtain ⟨-, hl⟩ | ⟨-, rfl⟩ := execFftSetr_next.1 h
    · obtain ⟨-, b, -, rfl⟩ | ⟨hlt, rfl⟩ := loadFftSetr_next.1 hl
      · exact .inl ⟨rfl, rfl, silent, rfl, rfl, rfl, fun _ => rfl⟩
      · exact .inr (.inr ⟨.fftSetr, rfl, (Nat.zero_add _).symm.trans_lt hlt, rfl⟩)
    · exact .inr (.inl ⟨_, rfl⟩)
  | fftSetc cnt =>
    obtain ⟨-, hl⟩ | ⟨-, rfl⟩ := execFftSetc_next.1 h
    · obtain ⟨-, b, -, rfl⟩ | ⟨hlt, rfl⟩ := loadFftSetc_next.1 hl
      · exact .inl ⟨rfl, rfl, silent, rfl, rfl, rfl, fun _ => rfl⟩
      · exact .inr (.inr ⟨.fftSetc, rfl, (Nat.zero_add _).symm.trans_lt hlt, rfl⟩)
    · exact .inr (.inl ⟨_, rfl⟩)
  | fftRun =>
    obtain ⟨-, b, -, rfl⟩ | ⟨-, rfl⟩ := execFftRun_next.1 h
    · exact .inl ⟨rfl, rfl, silent, rfl, rfl, rfl, id⟩
    · exact .inr (.inl ⟨_, rfl⟩)
  | fftGets =>
    obtain ⟨-, zs, -, rfl⟩ | ⟨-, rfl⟩ := execFftGets_next.1 h
    · exact .inl ⟨rfl, rfl, answers _, rfl, rfl, rfl, id⟩
    · exact .inr (.inl ⟨_, rfl⟩)
  | firSetk cnt =>
    obtain ⟨-, hl⟩ | ⟨-, rfl⟩ := execFirSetk_next.1 h
    · obtain ⟨-, k, -, rfl⟩ | ⟨hlt, rfl⟩ := loadFirSetk_next.1 hl
      · exact .inl ⟨rfl, rfl, silent, rfl, rfl, rfl, fun _ => rfl⟩
      · exact .inr (.inr ⟨.firSetk, rfl, (Nat.zero_add _).symm.trans_lt hlt, rfl⟩)
    · exact .inr (.inl ⟨_, rfl⟩)
  | firSetx cnt =>
    obtain ⟨-, hl⟩ | ⟨-, rfl⟩ := execFirSetx_next.1 h
    · obtain ⟨-, x, -, rfl⟩ | ⟨hlt, rfl⟩ := loadFirSetx_next.1 hl
      · exact .inl ⟨rfl, rfl, silent, rfl, rfl, rfl, fun _ => rfl⟩
      · exact .inr (.inr ⟨.firSetx, rfl, (Nat.zero_add _).symm.trans_lt hlt, rfl⟩)
    · exact .inr (.inl ⟨_, rfl⟩)
  | firConv =>
    obtain ⟨-, -, -, r, -, rfl⟩ | ⟨-, -, -, rfl⟩ | ⟨-, rfl⟩ := execFirConv_next.1 h
    · exact .inl ⟨rfl, rfl, silent, rfl, rfl, rfl, id⟩
    · exact .inr (.inl ⟨_, rfl⟩)
    · exact .inr (.inl ⟨_, rfl⟩)
  | firFilt =>
    obtain ⟨-, -, r, -, rfl⟩ | ⟨-, rfl⟩ := execFirFilt_next.1 h
    · exact .inl ⟨rfl, rfl, silent, rfl, rfl, rfl, id⟩
    · exact .inr (.inl ⟨_, rfl⟩)
  | firGety =>
    obtain ⟨-, ys, -, rfl⟩ | ⟨-, rfl⟩ := execFirGety_next.1 h
    · exact .inl ⟨rfl, rfl, answers _, rfl, rfl, rfl, id⟩
    · exact .inr (.inl ⟨_, rfl⟩)

/-- A ready core with a word on INCH takes it as a header. -/
theorem step_of_ready {s : State} {h : W64} {rest : List W64} (hs : s.Ready) (hi : s.inch = h :: rest) :
    step s = runHeader h (takeWords 1 s) := by
  obtain ⟨hf, hh⟩ := hs
  simp [step, cycle, hf, hh, hi]

/-- A faulted core has no step (R224). -/
theorem step_of_fault {s : State} (h : s.fault = true) : step s = .fault (.coreStopped s.cause) := by
  simp [step, cycle, h]

/-- The host's taking drops the front word of OUTCH; there is nothing to drop when OUTCH is empty. -/
theorem event_take (s : State) : event .take s = .next { s with outch := s.outch.tail } := by
  obtain ho | ⟨w, rest, ho⟩ : s.outch = [] ∨ ∃ w rest, s.outch = w :: rest := by cases s.outch <;> simp
  · simp only [event, hostTake, ho, List.tail_nil]
    rw [← ho]
  · simp only [event, hostTake, ho, List.tail_cons]

/-- Everything an event can answer. -/
theorem event_next {e : Event} {s t : State} :
    event e s = .next t ↔
      (e = .core ∧ step s = .next t) ∨ (∃ w, e = .append w ∧ t = hostAppend w s) ∨
      (e = .take ∧ t = { s with outch := s.outch.tail }) ∨ (e = .reset ∧ t = State.resetOf s.cfg) := by
  cases e with
  | core => simp [event]
  | append w => simp [event, eq_comm]
  | take => simp [event_take, eq_comm]
  | reset => simp [event, hostReset, eq_comm]

@[simp] theorem hostAppend_pc (w : W64) (s : State) : (hostAppend w s).pc = s.pc := by
  unfold hostAppend
  split <;> rfl

/-! `pc` (R22). -/

/-- A header that is run with FAULT = 0: pc counts the payload of a command that completes, and nothing of one that faults. -/
theorem runHeader_pc {h : W64} {s t : State} (hf : s.fault = false) (hr : runHeader h s = .next t) :
    (∀ i, decode h = .ok i → t.fault = false → t.held = none → t.pc = s.pc + payloadWords i) ∧
      (t.fault = true → t.pc = s.pc) := by
  obtain ⟨i, hd, e⟩ | ⟨err, hd, e⟩ := runHeader_cases h s
  · obtain hc | ⟨c, rfl⟩ | ⟨cmd, -, -, rfl⟩ := exec_cases (e ▸ hr)
    · refine ⟨fun j hj _ _ => ?_, fun ht => ?_⟩
      · obtain rfl : i = j := Except.ok.inj (hd.symm.trans hj)
        exact hc.pc
      · simp [hc.fault, hf] at ht
    · exact ⟨fun _ _ ht => absurd ht (by simp), fun _ => raise_pc c s⟩
    · exact ⟨fun _ _ _ hh => absurd hh (by simp), fun ht => absurd ht (by simp [hf])⟩
  · obtain rfl : raise (decodeCause err) s = t := Host.Outcome.next.inj (e.symm.trans hr)
    exact ⟨fun _ hj => absurd (hd.symm.trans hj) (by simp), fun _ => raise_pc _ s⟩

/-- The host moves pc by a reset only. -/
theorem event_host_pc {e : Event} {s t : State} (hc : e ≠ .core) (hr : e ≠ .reset) (h : event e s = .next t) :
    t.pc = s.pc := by
  obtain ⟨rfl, -⟩ | ⟨w, -, rfl⟩ | ⟨-, rfl⟩ | ⟨rfl, -⟩ := event_next.1 h
  · exact absurd rfl hc
  · exact hostAppend_pc w s
  · rfl
  · exact absurd rfl hr

/-- Settles O42: the header is the one word a ready core takes before its command runs, and what is taken after it is the payload
of a command that completes. -/
theorem pcCountsWordsTaken : Obligations.PcCountsWordsTaken := by
  unfold Obligations.PcCountsWordsTaken
  refine ⟨fun s t h rest hs hi hstep => ?_, fun s t e hf hr he => ?_, fun s t e => event_host_pc, fun s t he => ?_⟩
  · rw [step_of_ready hs hi] at hstep
    simpa [Nat.add_assoc] using runHeader_pc (s := takeWords 1 s) hs.1 hstep
  · have hc : e ≠ .core := by
      rintro rfl
      cases (step_of_fault hf).symm.trans he
    exact event_host_pc hc hr he
  · obtain rfl : State.resetOf s.cfg = t := Host.Outcome.next.inj he
    rfl

/-! STATUS (R31). -/

/-- Every bit of STATUS: the five flags and three zeros, then CAUSE and zeros above it. -/
theorem statusWord_getLsbD (s : State) (i : Nat) :
    (statusWord s).getLsbD i =
      if i < 8 then [s.fv, s.kv, s.xv, s.yv, s.fault].getD i false else s.cause.getLsbD (i - 8) := by
  simp only [statusWord, BitVec.getLsbD_append, BitVec.getLsbD_ofBool, BitVec.getLsbD_zero]
  obtain hi | ⟨j, rfl⟩ := (Nat.lt_or_ge i 8).imp_right Nat.exists_eq_add_of_le'
  · interval_cases i <;> simp
  · by_cases hj : j < 8
    · simp [hj]
    · simp [hj, BitVec.getLsbD_of_ge s.cause j (by omega)]

theorem statusWord_resetOf (c : Config) : statusWord (State.resetOf c) = 0#64 := by simp [statusWord, State.resetOf]

/-- Settles O35: each field is read off `statusWord_getLsbD`. -/
theorem statusWordFields : Obligations.StatusWordFields := by
  unfold Obligations.StatusWordFields
  refine ⟨fun s => ⟨statusWord_getLsbD s 0, statusWord_getLsbD s 1, statusWord_getLsbD s 2, statusWord_getLsbD s 3,
    statusWord_getLsbD s 4, ?reserved, ?cause, ?upper, rfl, statusWord_getLsbD s 4⟩, statusWord_resetOf⟩
  all_goals
    apply BitVec.eq_of_getLsbD_eq
    intro k hk
    rw [BitVec.getLsbD_extractLsb', statusWord_getLsbD]
  case reserved =>
    rw [if_pos (by omega), List.getD_eq_default _ _ (by simp)]
    simp
  case cause => simp [hk]
  case upper =>
    rw [if_neg (by omega), BitVec.getLsbD_of_ge _ _ (by omega)]
    simp

/-- Settles O47: reset answers the reset state of the configuration as it stands. -/
theorem resetReachesResetState : Obligations.ResetReachesResetState := by
  unfold Obligations.ResetReachesResetState
  exact fun s => ⟨State.resetOf s.cfg, rfl, ⟨⟨rfl, rfl⟩, rfl⟩, statusWord_resetOf s.cfg, rfl⟩

end Sys2Proof.Machine
end

section
/-! PROOFS. The family of `spec/30_encoding.md`: what the opcode map and the decoder answer in the terms of R82, and the step on a
header. -/

namespace Sys2Proof.Machine

/-! The opcode map (R78, R79). -/

/-- The values of OPC whose command is a load with a count (R72). -/
def countedOpcodes : List (BitVec 8) := [0x10#8, 0x11#8, 0x20#8, 0x21#8]

/-- A legal OPC has one of the two uses of R72. -/
theorem countless_or_counted_of_legal :
    ∀ opc ∈ legalOpcodes, opc ∈ countlessOpcodes ∨ opc ∈ countedOpcodes := by decide

theorem opcodeUse_of_illegal {opc : BitVec 8} (h : opc ∉ legalOpcodes) : opcodeUse opc = none := by
  simp only [legalOpcodes, List.mem_cons, List.not_mem_nil, not_or] at h
  simp [opcodeUse, h]

theorem opcodeUse_of_countless {opc : BitVec 8} (h : opc ∈ countlessOpcodes) :
    ∃ i, opcodeUse opc = some (.h0 i) ∧ i.opc = opc ∧ i.cnt = 0 := by
  simp only [countlessOpcodes, List.mem_cons, List.not_mem_nil, or_false] at h
  rcases h with rfl | rfl | rfl | rfl | rfl | rfl | rfl <;> exact ⟨_, rfl, rfl, rfl⟩

theorem opcodeUse_of_counted {opc : BitVec 8} (h : opc ∈ countedOpcodes) :
    ∃ load, opcodeUse opc = some (.hc load) ∧ ∀ n, (load n).opc = opc ∧ (load n).cnt = n := by
  simp only [countedOpcodes, List.mem_cons, List.not_mem_nil, or_false] at h
  rcases h with rfl | rfl | rfl | rfl <;> exact ⟨_, rfl, fun _ => ⟨rfl, rfl⟩⟩

/-! The decoder, OPC first, then RSV, then CNT (R82). -/

theorem decode_of_illegal {h : W64} (hopc : opcOf h ∉ legalOpcodes) : decode h = .error .illegalOpcode := by
  simp [decode, opcodeUse_of_illegal hopc]

/-- A legal header with RSV not zero is rejected whatever its use (R80). -/
theorem decode_of_rsv_ne_zero {h : W64} (hopc : opcOf h ∈ legalOpcodes) (hrsv : rsvOf h ≠ 0#24) :
    decode h = .error .reservedField := by
  obtain hc | hc := countless_or_counted_of_legal _ hopc
  · obtain ⟨i, hu, -⟩ := opcodeUse_of_countless hc
    simp [decode, hu, hrsv]
  · obtain ⟨load, hu, -⟩ := opcodeUse_of_counted hc
    simp [decode, hu, hrsv]

/-- A command without a count is rejected when CNT is not zero (R80). -/
theorem decode_of_countless_cnt_ne_zero {h : W64} (hopc : opcOf h ∈ countlessOpcodes) (hcnt : cntOf h ≠ 0#32) :
    decode h = .error .reservedField := by
  obtain ⟨i, hu, -⟩ := opcodeUse_of_countless hopc
  simp [decode, hu, hcnt]

/-- Every other header decodes, to the command with its OPC and CNT. -/
theorem decode_of_legal {h : W64} (hopc : opcOf h ∈ legalOpcodes) (hrsv : rsvOf h = 0#24)
    (hcnt : opcOf h ∈ countlessOpcodes → cntOf h = 0#32) :
    ∃ i, decode h = .ok i ∧ i.opc = opcOf h ∧ i.cnt = (cntOf h).toNat := by
  obtain hc | hc := countless_or_counted_of_legal _ hopc
  · obtain ⟨i, hu, hiopc, hicnt⟩ := opcodeUse_of_countless hc
    exact ⟨i, by simp [decode, hu, hrsv, hcnt hc], hiopc, by simp [hicnt, hcnt hc]⟩
  · obtain ⟨load, hu, hload⟩ := opcodeUse_of_counted hc
    exact ⟨load (cntOf h).toNat, by simp [decode, hu, hrsv], hload _⟩

/-! The step on a header: only the header has been taken when its command runs or the core faults. -/

theorem takeWords_one {s : State} {h : W64} {rest : List W64} (hi : s.inch = h :: rest) :
    takeWords 1 s = { s with inch := rest, pc := s.pc + 1 } := by
  simp [takeWords, hi]

theorem step_of_decode_ok {s : State} {h : W64} {rest : List W64} {i : Instr} (hs : s.Ready) (hi : s.inch = h :: rest)
    (hd : decode h = .ok i) : step s = exec i { s with inch := rest, pc := s.pc + 1 } := by
  rw [step_of_ready hs hi, takeWords_one hi]
  simp [runHeader, hd]

theorem step_of_decode_error {s : State} {h : W64} {rest : List W64} {e : DecodeError} (hs : s.Ready)
    (hi : s.inch = h :: rest) (hd : decode h = .error e) :
    step s = .next (raise (decodeCause e) { s with inch := rest, pc := s.pc + 1 }) := by
  rw [step_of_ready hs hi, takeWords_one hi]
  simp [runHeader, hd]

/-- Settles O4: the three clauses are the three answers of the decoder. -/
theorem headerIsSortedInOrder : Obligations.HeaderIsSortedInOrder := by
  unfold Obligations.HeaderIsSortedInOrder
  refine fun s h rest hs hi => ⟨fun hopc => ?illegal, fun hopc hbad => ?reserved, fun hopc hrsv hcnt => ?good⟩
  case illegal => exact step_of_decode_error hs hi (decode_of_illegal hopc)
  case reserved =>
    have hd : decode h = .error .reservedField := by
      obtain hrsv | ⟨hc, hcnt⟩ := hbad
      · exact decode_of_rsv_ne_zero hopc hrsv
      · exact decode_of_countless_cnt_ne_zero hc hcnt
    exact step_of_decode_error hs hi hd
  case good =>
    obtain ⟨i, hd, hiopc, hicnt⟩ := decode_of_legal hopc hrsv hcnt
    exact ⟨i, hd, hiopc, hicnt, step_of_decode_ok hs hi hd⟩

end Sys2Proof.Machine
end

section
/-! PROOFS. The family of `spec/41_fft_commands.md`: the reversed index (R124), the butterfly (R128), the normalisation and its
divisors (R129), and FFT.GETS (R130). -/

namespace Sys2Proof.Machine

/-! The reversed index (R124). -/

theorem bitrev_lt (bits i : Nat) : bitrev bits i < 2 ^ bits := by
  induction bits generalizing i with
  | zero => exact Nat.one_pos
  | succ bits ih =>
    have hlow := ih (i / 2)
    have htop : i % 2 * 2 ^ bits ≤ 1 * 2 ^ bits := Nat.mul_le_mul_right _ (by omega)
    rw [bitrev, Nat.pow_succ]
    omega

/-- Below the width, bit k of the reversed index is the bit as far from the other end; there is no bit above. -/
theorem testBit_bitrev (bits i k : Nat) :
    (bitrev bits i).testBit k = (decide (k < bits) && i.testBit (bits - 1 - k)) := by
  induction bits generalizing i with
  | zero => simp [bitrev]
  | succ bits ih =>
    rw [bitrev, Nat.mul_comm, Nat.testBit_two_pow_mul_add _ (bitrev_lt bits _)]
    obtain hk | rfl | hk := Nat.lt_trichotomy k bits
    · rw [if_pos hk, ih, Nat.testBit_div_two, show bits - 1 - k + 1 = bits + 1 - 1 - k by omega]
      simp [hk, Nat.lt_succ_of_lt hk]
    · simp
    · rw [if_neg (by omega), Nat.testBit_lt_two_pow ((Nat.mod_lt i two_pos).trans_le (Nat.le_self_pow (by omega) 2))]
      simp [show ¬ k < bits + 1 by omega]

/-- Numbers below 2^bits are equal when their bits below the width are. -/
theorem eq_of_testBit_eq_below {bits a b : Nat} (ha : a < 2 ^ bits) (hb : b < 2 ^ bits)
    (h : ∀ k < bits, a.testBit k = b.testBit k) : a = b := by
  refine Nat.eq_of_testBit_eq fun k => ?_
  by_cases hk : k < bits
  · exact h k hk
  · have hpow : 2 ^ bits ≤ 2 ^ k := Nat.pow_le_pow_right two_pos (by omega)
    rw [Nat.testBit_lt_two_pow (ha.trans_le hpow), Nat.testBit_lt_two_pow (hb.trans_le hpow)]

theorem bitrev_bitrev {bits i : Nat} (hi : i < 2 ^ bits) : bitrev bits (bitrev bits i) = i := by
  refine eq_of_testBit_eq_below (bitrev_lt ..) hi fun k hk => ?_
  rw [testBit_bitrev, testBit_bitrev, show bits - 1 - (bits - 1 - k) = k by omega]
  simp [hk, show bits - 1 - k < bits by omega]

/-- The index reversed is itself exactly for a palindrome. -/
theorem bitrev_eq_self_iff {bits i : Nat} (hi : i < 2 ^ bits) :
    bitrev bits i = i ↔ ∀ b < bits, i.testBit b = i.testBit (bits - 1 - b) := by
  refine ⟨fun h b hb => ?_, fun h => eq_of_testBit_eq_below (bitrev_lt ..) hi fun b hb => ?_⟩
  · simpa [h, hb] using testBit_bitrev bits i b
  · rw [testBit_bitrev, h b hb]
    simp [hb]

/-- Settles O14: every clause is read off the bits of the reversed index. -/
theorem bitReversal : Obligations.BitReversal := by
  unfold Obligations.BitReversal
  refine ⟨fun bits i hi => ⟨bitrev_lt bits i, bitrev_bitrev hi, fun b hb => ?_, bitrev_eq_self_iff hi⟩,
    by decide, by decide, by decide, by decide⟩
  rw [testBit_bitrev, show bits - 1 - (bits - 1 - b) = b by omega]
  simp [show bits - 1 - b < bits by omega]

/-! Reads and writes that succeed, and the work on BUF made of them (R128, R129). -/

/-- A butterfly of two cells that hold values, as the two writes it makes. -/
theorem butterfly_eq_ok {c : Config} {p q x : Nat} {b : Store C64} {w u v : C64} (hp : p < c.n) (hq : q < c.n)
    (hw : c.tw[x]? = some w) (hu : cellAt b p = some u) (hv : cellAt b q = some v) :
    butterfly c p q x b = .ok (setCell (setCell b p (cadd c.numerics u (cmul c.numerics w v))) q
      (csub c.numerics u (cmul c.numerics w v))) := by
  have htw : readTw c x = .ok w := (readTw_eq_ok ..).2 hw
  have hbq : readCell .buf c.n b q = .ok v := (readCell_eq_ok ..).2 ⟨hq, hv⟩
  have hbp : readCell .buf c.n b p = .ok u := (readCell_eq_ok ..).2 ⟨hp, hu⟩
  simp only [butterfly, htw, hbq, hbp, writeCell, if_pos hp, if_pos hq]
  rfl

/-- Settles O17: the two writes, read back. -/
theorem butterflyWritesSumAndDifference : Obligations.ButterflyWritesSumAndDifference := by
  unfold Obligations.ButterflyWritesSumAndDifference
  intro c p q x b w u v hp hq hpq hw hu hv
  refine ⟨_, butterfly_eq_ok hp hq hw hu hv, fun i => ?_⟩
  rw [cellAt_setCell, cellAt_setCell]
  by_cases hi : i = p
  · rw [if_neg (by omega), if_pos hi, if_pos hi]
  · rw [if_neg hi, if_neg hi]

theorem divideCell_eq_ok {c : Config} {h : F64} {i : Nat} {b : Store C64} {z : C64} (hi : i < c.n)
    (hz : cellAt b i = some z) : divideCell c h i b = .ok (setCell b i (cdivReal c.numerics z h)) := by
  have hr : readCell .buf c.n b i = .ok z := (readCell_eq_ok ..).2 ⟨hi, hz⟩
  rw [divideCell, hr]
  exact (writeCell_eq_ok ..).2 ⟨hi, rfl⟩

/-- A cell of BUF after the passes of the first loop of step 3 below `count`, from BUF before the loop (R129). -/
def dividedBelow (c : Config) (h : F64) (z : Nat → C64) (b : Store C64) (count i : Nat) : Option C64 :=
  if i < count then some (cdivReal c.numerics (z i) h) else cellAt b i

/-- One pass divides the next cell, which no pass before it has touched. -/
theorem divideCell_pass {c : Config} {h : F64} {z : Nat → C64} {b y : Store C64} {k : Nat} (hk : k < c.n)
    (hz : cellAt b k = some (z k)) (hy : ∀ i, cellAt y i = dividedBelow c h z b k i) :
    ∃ y', divideCell c h k y = .ok y' ∧ ∀ i, cellAt y' i = dividedBelow c h z b (k + 1) i := by
  have hyk : cellAt y k = some (z k) := by rw [hy, dividedBelow, if_neg (Nat.lt_irrefl k), hz]
  refine ⟨_, divideCell_eq_ok hk hyk, fun i => ?_⟩
  rw [cellAt_setCell, hy, dividedBelow, dividedBelow]
  by_cases hi : i = k
  · rw [if_pos hi, if_pos (by omega), hi]
  · rw [if_neg hi]
    exact if_congr (by omega) rfl rfl

/-- The first loop of step 3 completes and divides exactly the cells below N. -/
theorem divideCells_completes {c : Config} {b : Store C64} {z : Nat → C64} (h : F64) (hb : Store.Holds b c.n z) :
    ∃ b', forUp (divideCell c h) 0 c.n b = .ok b' ∧ ∀ i, cellAt b' i = dividedBelow c h z b c.n i := by
  simpa only [Nat.zero_add] using
    forUp_completes (divideCell c h) (fun k y => ∀ i, cellAt y i = dividedBelow c h z b k i) 0 c.n b
      (fun i => (if_neg i.not_lt_zero).symm)
      fun k y _ hk hy => divideCell_pass (by omega) (hb k (by omega)) hy

/-- Step 3 completes, and every cell below N is its closed form (R129). -/
theorem normalise_completes {c : Config} {b : Store C64} {z : Nat → C64} (hb : Store.Holds b c.n z) :
    ∃ b', normalise c b = .ok b' ∧ ∀ i, cellAt b' i = if i < c.n then some (normalCell c z i) else cellAt b i := by
  obtain ⟨b1, hloop, hcells⟩ := divideCells_completes (toF64 c.half) hb
  have hdc : cellAt b1 0 = some (cdivReal c.numerics (z 0) (toF64 c.half)) := by
    rw [hcells, dividedBelow, if_pos c.n_pos]
  have hok : normalise c b = divideCell c two64 0 b1 := by
    rw [normalise, hloop]
    rfl
  refine ⟨_, hok.trans (divideCell_eq_ok c.n_pos hdc), fun i => ?_⟩
  rw [cellAt_setCell, hcells, dividedBelow]
  by_cases hi : i = 0
  · subst hi
    simp [c.n_pos, normalCell]
  · simp [hi, normalCell]

/-! The divisors of step 3 (R11, R129). -/

/-- A power of two that is a normal number, as a pattern: its exponent field and an empty fraction. -/
theorem toF64_two_pow (e : Nat) (he : e < 1024) : toF64 (2 ^ e) = packSign false ((e + 1023) * 2 ^ 52) := by
  have hshift : shiftRne (2 ^ (e + 1074)) (e + 1022) = 2 ^ 52 := by
    have hsplit : 2 ^ (e + 1074) = 2 ^ 52 * 2 ^ (e + 1022) := by
      rw [← Nat.pow_add, show 52 + (e + 1022) = e + 1074 by omega]
    simp [shiftRne, hsplit]
  have hmag : roundMag (2 ^ e * 2 ^ 1074) 0 = (e + 1023) * 2 ^ 52 := by
    rw [← Nat.pow_add, roundMag, Nat.log2_two_pow, show max 0 (e + 1074 - 52) = e + 1022 by omega, hshift, infMag]
    omega
  rw [toF64, hmag]

theorem datumOf_normal_two_pow (e : Nat) (he : e < 1024) :
    datumOf (packSign false ((e + 1023) * 2 ^ 52)) = .fin false (2 ^ 52) (e + 1022) := by
  have hlt : (e + 1023) * 2 ^ 52 < 2 ^ 63 := by omega
  rw [datumOf, packSign_expOf _ hlt, packSign_fracOf _ hlt, packSign_msb _ hlt, Nat.mul_div_cancel _ (by decide),
    Nat.mul_mod_left, if_neg (by omega), if_neg (by omega)]
  rfl

/-- The value of the conversion of a power of two is that power of two. -/
theorem unitsOf_toF64_two_pow (e : Nat) (he : e < 1024) : unitsOf (toF64 (2 ^ e)) = ((2 ^ e : Nat) : Int) * 2 ^ 1074 := by
  have hval : 2 ^ 52 * 2 ^ (e + 1022) = 2 ^ e * 2 ^ 1074 := by
    rw [← Nat.pow_add, ← Nat.pow_add, show 52 + (e + 1022) = e + 1074 by omega]
  rw [toF64_two_pow e he, unitsOf, datumOf_normal_two_pow e he]
  simp only [signedUnits, cond_false, hval]
  rw [Nat.cast_mul, Nat.cast_pow 2 1074, Nat.cast_ofNat]

theorem isFinite_toF64_two_pow (e : Nat) (he : e < 1024) : isFinite (toF64 (2 ^ e)) = true := by
  rw [toF64_two_pow e he, isFinite, packSign_expOf _ (by omega), Nat.mul_div_cancel _ (by decide)]
  exact decide_eq_true (by omega)

/-- The second divisor of cell 0 is the conversion of 2. -/
theorem two64_eq_toF64 : two64 = toF64 (2 ^ 1) := by
  rw [toF64_two_pow 1 (by decide)]
  decide

/-- Settles O19: the closed form of step 3, and the values of powers of two. -/
theorem normalisationDivides : Obligations.NormalisationDivides := by
  unfold Obligations.NormalisationDivides
  refine ⟨fun c b z hb => ?cells, fun c => ?half, ?two⟩
  case cells =>
    obtain ⟨b', hok, hcells⟩ := normalise_completes hb
    refine ⟨b', hok, fun i hi h0 => ?_, ?_, fun i hi => ?_⟩
    · rw [hcells, if_pos hi, normalCell, if_neg h0, cdivReal]
    · rw [hcells, if_pos c.n_pos]
      rfl
    · rw [hcells, if_neg (by omega)]
  case half =>
    have he : c.log2n - 1 < 1024 := by have := c.legal.1.2; omega
    exact ⟨isFinite_toF64_two_pow _ he, unitsOf_toF64_two_pow _ he, c.two_mul_half⟩
  case two => exact (congrArg unitsOf two64_eq_toF64).trans (unitsOf_toF64_two_pow 1 (by decide))

/-! Reading the spectrum (R130). -/

/-- The words of FFT.GETS are the parts of the first N/2 cells in index order. -/
theorem execFftGets_of_holds {s : State} {z : Nat → C64} (hfv : s.fv = true) (hz : Store.Holds s.buf s.cfg.half z) :
    exec .fftGets s = .next (putWords ((List.range s.cfg.half).flatMap fun i => [(z i).re, (z i).im]) s) := by
  have hread : readSeq .buf s.cfg.n s.buf 0 s.cfg.half = .ok ((List.range' 0 s.cfg.half).map z) :=
    readSeq_completes _ _ _ z _ _ (by simpa using s.cfg.half_le_n) fun i _ hi => hz i (by omega)
  refine execFftGets_next.2 (.inl ⟨hfv, _, hread, ?_⟩)
  rw [flattenPairs_eq_flatMap, List.flatMap_map, List.range_eq_range']

/-- Settles O21: FFT.GETS is turned away without samples, and otherwise its words are all it changes. -/
theorem fftGetsReturnsHalf : Obligations.FftGetsReturnsHalf := by
  unfold Obligations.FftGetsReturnsHalf
  refine fun s => ⟨fun hfv => execFftGets_next.2 (.inr ⟨hfv, rfl⟩), fun hfv z hz => ?_⟩
  rw [s.cfg.n_div_two] at hz ⊢
  exact execFftGets_of_holds hfv hz

end Sys2Proof.Machine
end

section
/-! PROOFS. The family of `spec/42_fir_commands.md`: the words that FIR.GETY puts on OUTCH. -/

namespace Sys2Proof.Machine

/-! Reading the result (R160). -/

/-- The words of FIR.GETY are YLEN and the first YLEN cells of OUT in index order. -/
theorem execFirGety_of_holds {s : State} {y : Nat → F64} (hyv : s.yv = true) (hlen : s.ylen ≤ s.cfg.ymax)
    (hy : Store.Holds s.out s.ylen y) :
    exec .firGety s = .next (putWords (BitVec.ofNat 64 s.ylen :: (List.range s.ylen).map y) s) := by
  have hread : readSeq .out s.cfg.ymax s.out 0 s.ylen = .ok ((List.range' 0 s.ylen).map y) :=
    readSeq_completes _ _ _ y _ _ (by simpa using hlen) fun i _ hi => hy i (by omega)
  refine execFirGety_next.2 (.inl ⟨hyv, _, hread, ?_⟩)
  rw [List.range_eq_range']

/-- Settles O29: FIR.GETY is turned away without a result, and otherwise its words are all it changes. -/
theorem firGetyReturnsResult : Obligations.FirGetyReturnsResult := by
  unfold Obligations.FirGetyReturnsResult
  exact fun s => ⟨fun hyv => execFirGety_next.2 (.inr ⟨hyv, rfl⟩), fun hyv hlen _ hy => execFirGety_of_holds hyv hlen hy⟩

end Sys2Proof.Machine
end

section
/-! PROOFS. The family of `spec/43_system_commands.md`: the one well-formed header of a command without a count (R72, R80), NOP
(R181), and STAT with the word it returns (R182). -/

namespace Sys2Proof.Machine

/-! The header of a command without a count (R72, R80). -/

/-- A header word is its three fields put together (R71). -/
theorem fields_append_eq_self (h : W64) : opcOf h ++ rsvOf h ++ cntOf h = h := by
  rw [opcOf, rsvOf, cntOf, BitVec.extractLsb'_append_extractLsb'_eq_extractLsb' (show 56 = 32 + 24 from rfl),
    BitVec.extractLsb'_append_extractLsb'_eq_extractLsb' (show 32 = 0 + 32 from rfl)]
  exact BitVec.extractLsb'_eq_self

/-- A word whose OPC takes no count and whose other bits are zero is the header of its command, so a different word has a bit of
RSV or of CNT set. -/
theorem rsv_or_cnt_ne_zero {i : Instr} {h : W64} (hcnt : i.cnt = 0) (hopc : opcOf h = i.opc) (hne : h ≠ encodeHeader i) :
    rsvOf h ≠ 0#24 ∨ cntOf h ≠ 0#32 := by
  by_contra hzero
  obtain ⟨hrsv, hcntOf⟩ : rsvOf h = 0#24 ∧ cntOf h = 0#32 := by simpa [not_or] using hzero
  refine hne ?_
  rw [← fields_append_eq_self h, hopc, hrsv, hcntOf, encodeHeader, hcnt]

/-- Any other word with the OPC of a command without a count faults a ready core with cause 2, after the word has been taken. -/
theorem step_of_countless_malformed {i : Instr} {s : State} {h : W64} {rest : List W64} (hi : i.opc ∈ countlessOpcodes)
    (hcnt : i.cnt = 0) (hs : s.Ready) (hinch : s.inch = h :: rest) (hopc : opcOf h = i.opc) (hne : h ≠ encodeHeader i) :
    step s = .next { s with inch := rest, pc := s.pc + 1, fault := true, cause := 2#8 } := by
  have hcountless : opcOf h ∈ countlessOpcodes := hopc ▸ hi
  have hlegal : opcOf h ∈ legalOpcodes := (by decide : countlessOpcodes ⊆ legalOpcodes) hcountless
  have hbad := (rsv_or_cnt_ne_zero hcnt hopc hne).imp_right (And.intro hcountless)
  obtain ⟨-, reserved, -⟩ := headerIsSortedInOrder s h rest hs hinch
  exact reserved hlegal hbad

/-! NOP (R181). -/

theorem encodeHeader_nop : encodeHeader .nop = 0#64 := by decide

theorem decode_zero : decode 0#64 = .ok .nop := by decide

/-- Settles O33: the zero word decodes to NOP, which leaves the state as it is once the word has been taken. -/
theorem nopOnlyAdvances : Obligations.NopOnlyAdvances := by
  unfold Obligations.NopOnlyAdvances
  refine ⟨fun _ => execNop_next.2 rfl, encodeHeader_nop, fun s rest hs hi => ?zeroWord, fun s h rest hs hi hopc hne => ?malformed⟩
  case zeroWord => exact (step_of_decode_ok hs hi decode_zero).trans (execNop_next.2 rfl)
  case malformed => exact step_of_countless_malformed (i := .nop) (by decide) rfl hs hi hopc (encodeHeader_nop ▸ hne)

/-! STAT (R182). -/

theorem encodeHeader_stat : encodeHeader .stat = 0x0100000000000000#64 := by decide

/-- STATUS has no bit above the four valid flags while FAULT and CAUSE are zero. -/
theorem statusWord_toNat_lt {s : State} (hf : s.fault = false) (hc : s.cause = 0#8) : (statusWord s).toNat < 2 ^ 4 := by
  refine Nat.lt_pow_two_of_testBit _ fun k hk => ?_
  rw [BitVec.testBit_toNat, statusWord_getLsbD]
  by_cases hk8 : k < 8
  · interval_cases k <;> simp [hf]
  · simp [hk8, hc]

/-- Settles O34: what STAT does is `execStat_next`, and CAUSE is zero in a core that has kept its invariants and is not faulted. -/
theorem statReturnsStatus : Obligations.StatReturnsStatus := by
  unfold Obligations.StatReturnsStatus
  refine ⟨fun _ => execStat_next.2 rfl, fun s hinv hf => ?range, fun s h rest hs hi hopc hne => ?malformed⟩
  case range => exact Nat.le_of_lt_succ (statusWord_toNat_lt hf (hinv.causeZero hf))
  case malformed => exact step_of_countless_malformed (i := .stat) (by decide) rfl hs hi hopc (encodeHeader_stat ▸ hne)

end Sys2Proof.Machine
end

section
/-! PROOFS. The family of `spec/60_exceptions.md`: only a header raises a fault, and it raises it before its command does anything
(R225). -/

namespace Sys2Proof.Machine

/-! A load that is under way, and so a held core, raises no fault: its CNT was checked when its header was taken. -/

/-- A load whose last write of the state leaves FAULT alone leaves FAULT alone, completed or held. -/
theorem loadPayload_fault {α : Type} {cmd : LoadCmd} {cnt : Nat} {taken : List W64} {s t : State}
    {work : List W64 → State → Except Fault α} {update : α → State → State}
    (hupdate : ∀ x u, (update x u).fault = u.fault)
    (h : loadPayload cmd cnt (fun ws u => thenNext (work ws u) (fun x => update x u)) taken s = .next t) :
    t.fault = s.fault := by
  obtain ⟨-, x, -, rfl⟩ | ⟨-, rfl⟩ := (loadPayload_next work update).1 h
  · exact hupdate x _
  · rfl

theorem resume_fault {h : Held} {s t : State} (hr : resume h s = .next t) : t.fault = s.fault := by
  obtain ⟨-, hl⟩ | ⟨-, hl⟩ | ⟨-, hl⟩ | ⟨-, hl⟩ := resume_next.1 hr
  · exact loadPayload_fault storeSamples_fault hl
  · exact loadPayload_fault storeSamples_fault hl
  · exact loadPayload_fault (fun k => storeKernel_fault k h.cnt) hl
  · exact loadPayload_fault (fun x => storeSignal_fault x h.cnt) hl

/-! A header that has been taken. -/

/-- A command that ends in a fault was turned away: it neither completed nor held. -/
theorem exec_eq_raise {i : Instr} {s t : State} (hf : s.fault = false) (h : exec i s = .next t) (ht : t.fault = true) :
    ∃ c, t = raise c s := by
  obtain hc | hraised | ⟨cmd, -, -, rfl⟩ := exec_cases h
  · simp [hc.fault, hf] at ht
  · exact hraised
  · simp [hf] at ht

/-- A header that ends in a fault raised a cause and nothing else, whether it did not decode or its command was turned away. -/
theorem runHeader_eq_raise {h : W64} {s t : State} (hf : s.fault = false) (hr : runHeader h s = .next t)
    (ht : t.fault = true) : ∃ c, t = raise c s := by
  obtain ⟨i, -, e⟩ | ⟨err, -, e⟩ := runHeader_cases h s
  · exact exec_eq_raise hf (e.symm.trans hr) ht
  · exact ⟨decodeCause err, (Host.Outcome.next.inj (e.symm.trans hr)).symm⟩

/-- Settles O38: of the four cases of a step, a stopped core is excluded, a held and a waiting core keep FAULT, and a header that
ends in a fault only raises. -/
theorem faultsArePrecise : Obligations.FaultsArePrecise := by
  unfold Obligations.FaultsArePrecise
  intro s t hf hstep ht
  obtain ⟨hstopped, -⟩ | ⟨-, h, -, e⟩ | ⟨-, e⟩ | ⟨⟨-, hheld⟩, h, rest, hinch, e⟩ := step_cases s
  · simp [hf] at hstopped
  · simp [resume_fault (e.symm.trans hstep), hf] at ht
  · obtain rfl := Host.Outcome.next.inj (e.symm.trans hstep)
    simp [hf] at ht
  · obtain ⟨c, rfl⟩ := runHeader_eq_raise (s := takeWords 1 s) hf (e.symm.trans hstep) ht
    exact ⟨hheld, h, rest, c, hinch, congrArg (raise c) (takeWords_one hinch)⟩

end Sys2Proof.Machine
end

section
/-! PROOFS. The header word and its command (`spec/30_encoding.md` sections 1 to 4): encoding and decoding are inverse. -/

namespace Sys2Proof.Machine

/-! Decoding what was encoded. -/

theorem fields_encodeHeader (i : Instr) :
    opcOf (encodeHeader i) = i.opc ∧ rsvOf (encodeHeader i) = 0#24 ∧ cntOf (encodeHeader i) = BitVec.ofNat 32 i.cnt :=
  Laws.HeaderFields.fields_append ..

/-- The header of a command without a count is read back (R72). -/
theorem decode_encodeHeader_of_h0 {i : Instr} (hu : opcodeUse i.opc = some (.h0 i)) (hcnt : i.cnt = 0) :
    decode (encodeHeader i) = .ok i := by
  obtain ⟨hopc, hrsv, hc⟩ := fields_encodeHeader i
  simp [decode, hopc, hrsv, hc, hu, hcnt]

/-- The header of a load command is read back with its CNT (R72, R74). -/
theorem decode_encodeHeader_of_hc {load : Nat → Instr} {cnt : Nat} (hu : opcodeUse (load cnt).opc = some (.hc load))
    (hcnt : (load cnt).cnt = cnt) (hlt : cnt < 2 ^ 32) : decode (encodeHeader (load cnt)) = .ok (load cnt) := by
  obtain ⟨hopc, hrsv, hc⟩ := fields_encodeHeader (load cnt)
  have hread : (BitVec.ofNat 32 cnt).toNat = cnt := by rw [BitVec.toNat_ofNat, Nat.mod_eq_of_lt hlt]
  simp only [decode, hopc, hu, hrsv, hc, hcnt, hread, ne_eq, not_true_eq_false, if_false]

/-- Settles O2: by the use of each command's OPC. -/
theorem decodeOfEncode : Obligations.DecodeOfEncode := by
  unfold Obligations.DecodeOfEncode
  intro i hwf
  cases i with
  | nop => exact decode_encodeHeader_of_h0 rfl rfl
  | stat => exact decode_encodeHeader_of_h0 rfl rfl
  | fftSetr cnt => exact decode_encodeHeader_of_hc (load := .fftSetr) rfl rfl hwf
  | fftSetc cnt => exact decode_encodeHeader_of_hc (load := .fftSetc) rfl rfl hwf
  | fftRun => exact decode_encodeHeader_of_h0 rfl rfl
  | fftGets => exact decode_encodeHeader_of_h0 rfl rfl
  | firSetk cnt => exact decode_encodeHeader_of_hc (load := .firSetk) rfl rfl hwf
  | firSetx cnt => exact decode_encodeHeader_of_hc (load := .firSetx) rfl rfl hwf
  | firConv => exact decode_encodeHeader_of_h0 rfl rfl
  | firFilt => exact decode_encodeHeader_of_h0 rfl rfl
  | firGety => exact decode_encodeHeader_of_h0 rfl rfl

/-! Encoding what was decoded. -/

/-- A header that decodes has a legal OPC, RSV zero, and CNT zero where its command has no count (R82). -/
theorem fields_of_decode_ok {h : W64} {i : Instr} (hd : decode h = .ok i) :
    opcOf h ∈ legalOpcodes ∧ rsvOf h = 0#24 ∧ (opcOf h ∈ countlessOpcodes → cntOf h = 0#32) := by
  have hopc : opcOf h ∈ legalOpcodes := by
    by_contra hbad
    cases (decode_of_illegal hbad).symm.trans hd
  refine ⟨hopc, ?_, fun hc => ?_⟩
  · by_contra hbad
    cases (decode_of_rsv_ne_zero hopc hbad).symm.trans hd
  · by_contra hbad
    cases (decode_of_countless_cnt_ne_zero hc hbad).symm.trans hd

/-- The decoder hands on OPC and CNT as they stand in the word. -/
theorem opc_cnt_of_decode_ok {h : W64} {i : Instr} (hd : decode h = .ok i) :
    i.opc = opcOf h ∧ i.cnt = (cntOf h).toNat := by
  obtain ⟨hopc, hrsv, hcnt⟩ := fields_of_decode_ok hd
  obtain ⟨j, hj, hjopc, hjcnt⟩ := decode_of_legal hopc hrsv hcnt
  obtain rfl : i = j := Except.ok.inj (hd.symm.trans hj)
  exact ⟨hjopc, hjcnt⟩

/-- Settles O3: the word is its three fields put together, and RSV is zero in a word that decodes. -/
theorem encodeOfDecode : Obligations.EncodeOfDecode := by
  unfold Obligations.EncodeOfDecode
  intro h i hd
  obtain ⟨-, hrsv, -⟩ := fields_of_decode_ok hd
  obtain ⟨hopc, hcnt⟩ := opc_cnt_of_decode_ok hd
  refine ⟨hcnt.trans_lt (cntOf h).isLt, ?_⟩
  rw [encodeHeader, hopc, hcnt, BitVec.ofNat_toNat, BitVec.setWidth_eq, ← hrsv, fields_append_eq_self]

/-- Settles O1: the worked words are closed terms. -/
theorem specWordsDecode : Obligations.SpecWordsDecode := by
  unfold Obligations.SpecWordsDecode
  decide

/-- Settles O5: by the step on a header that decodes. -/
theorem stepRunsDecodedCommand : Obligations.StepRunsDecodedCommand := by
  unfold Obligations.StepRunsDecodedCommand
  exact fun _ _ _ _ hs hi hd => step_of_decode_ok hs hi hd

end Sys2Proof.Machine
end

section
/-! PROOFS. The load commands as one (`spec/20_memory.md` section 3): what a load answers, and a payload that comes in two parts. -/

namespace Sys2Proof.Machine

/-! One view of the four loads. -/

/-- The end of a load whose payload is complete. -/
def completeLoad (cmd : LoadCmd) (cnt : Nat) (ws : List W64) (s : State) : Result :=
  match cmd with
  | .fftSetr => completeFftSetr ws s
  | .fftSetc => completeFftSetc ws s
  | .firSetk => completeFirSetk cnt ws s
  | .firSetx => completeFirSetx cnt ws s

/-- The cause with which a load turns its CNT away. -/
def countCause : LoadCmd → Cause
  | .fftSetr => .fftCount
  | .fftSetc => .fftCount
  | .firSetk => .firCapacity
  | .firSetx => .firCapacity

theorem resume_eq_loadPayload (h : Held) (s : State) :
    resume h s = loadPayload h.cmd h.cnt (completeLoad h.cmd h.cnt) h.taken s := by
  obtain ⟨cmd, cnt, taken⟩ := h
  cases cmd <;> rfl

/-- A load whose CNT is accepted goes on as a held core does that has taken no word yet. -/
theorem exec_load {i : Instr} {cmd : LoadCmd} (h : loadCmdOf i = some cmd) (s : State) :
    exec i s = if cntAccepted s.cfg cmd i.cnt then resume ⟨cmd, i.cnt, []⟩ s else .next (raise (countCause cmd) s) := by
  cases i <;> cases h <;> rfl

theorem exec_load_of_accepted {i : Instr} {cmd : LoadCmd} {s : State} (h : loadCmdOf i = some cmd)
    (hacc : cntAccepted s.cfg cmd i.cnt = true) : exec i s = resume ⟨cmd, i.cnt, []⟩ s := by
  rw [exec_load h, if_pos hacc]

theorem exec_load_of_refused {i : Instr} {cmd : LoadCmd} {s : State} (h : loadCmdOf i = some cmd)
    (hacc : cntAccepted s.cfg cmd i.cnt = false) : exec i s = .next (raise (countCause cmd) s) := by
  rw [exec_load h, hacc]
  rfl

/-- A load whose payload is there completes. -/
theorem resume_of_enough {h : Held} {s : State} (hw : payloadOf h.cmd h.cnt ≤ h.taken.length + s.inch.length) :
    resume h s = completeLoad h.cmd h.cnt (fullPayload h.cmd h.cnt h.taken s) (afterPayload h.cmd h.cnt h.taken s) := by
  rw [resume_eq_loadPayload, loadPayload, if_pos (by rw [payloadLeft]; omega)]

/-- A load short of a word takes what there is and is held. -/
theorem resume_of_short {h : Held} {s : State} (hw : h.taken.length + s.inch.length < payloadOf h.cmd h.cnt) :
    resume h s = .next (heldAfter h.cmd h.cnt h.taken s) := by
  rw [resume_eq_loadPayload, loadPayload, if_neg (by rw [payloadLeft]; omega)]

/-- What a completed load leaves alone: everything but its own unit's operand, with its length and flag. -/
structure LoadDone (s t : State) : Prop where
  cfg : t.cfg = s.cfg
  out : t.out = s.out
  ylen : t.ylen = s.ylen
  yv : t.yv = s.yv
  fv : s.fv = true → t.fv = true
  kv : s.kv = true → t.kv = true
  xv : s.xv = true → t.xv = true
  fault : t.fault = s.fault
  cause : t.cause = s.cause
  inch : t.inch = s.inch
  outch : t.outch = s.outch
  pc : t.pc = s.pc
  held : t.held = s.held

theorem completeLoad_done {cmd : LoadCmd} {cnt : Nat} {ws : List W64} {s t : State}
    (h : completeLoad cmd cnt ws s = .next t) : LoadDone s t := by
  cases cmd with
  | fftSetr =>
    obtain ⟨b, -, rfl⟩ := (thenNext_eq_next ..).1 h
    exact ⟨rfl, rfl, rfl, rfl, fun _ => rfl, id, id, rfl, rfl, rfl, rfl, rfl, rfl⟩
  | fftSetc =>
    obtain ⟨b, -, rfl⟩ := (thenNext_eq_next ..).1 h
    exact ⟨rfl, rfl, rfl, rfl, fun _ => rfl, id, id, rfl, rfl, rfl, rfl, rfl, rfl⟩
  | firSetk =>
    obtain ⟨k, -, rfl⟩ := (thenNext_eq_next ..).1 h
    exact ⟨rfl, rfl, rfl, rfl, id, fun _ => rfl, id, rfl, rfl, rfl, rfl, rfl, rfl⟩
  | firSetx =>
    obtain ⟨x, -, rfl⟩ := (thenNext_eq_next ..).1 h
    exact ⟨rfl, rfl, rfl, rfl, id, id, fun _ => rfl, rfl, rfl, rfl, rfl, rfl, rfl⟩

/-- A load that goes on completes, or takes all of INCH and is held. -/
theorem resume_cases {h : Held} {s t : State} (hr : resume h s = .next t) :
    LoadDone (afterPayload h.cmd h.cnt h.taken s) t ∧ payloadOf h.cmd h.cnt ≤ h.taken.length + s.inch.length ∨
      h.taken.length + s.inch.length < payloadOf h.cmd h.cnt ∧ t = heldAfter h.cmd h.cnt h.taken s := by
  obtain hw | hw := Nat.lt_or_ge (h.taken.length + s.inch.length) (payloadOf h.cmd h.cnt)
  · rw [resume_of_short hw] at hr
    exact .inr ⟨hw, (Host.Outcome.next.inj hr).symm⟩
  · rw [resume_of_enough hw] at hr
    exact .inl ⟨completeLoad_done hr, hw⟩

/-! A payload in two parts. -/

/-- A load short of a word that is held and goes on when more words are there does what it does with all of them at once. -/
theorem resume_heldAfter_append {h : Held} {s : State} {ws : List W64}
    (hw : h.taken.length + s.inch.length < payloadOf h.cmd h.cnt) :
    resume ⟨h.cmd, h.cnt, h.taken ++ s.inch⟩ { heldAfter h.cmd h.cnt h.taken s with inch := ws } =
      resume h { s with inch := s.inch ++ ws } := by
  obtain hlt | hge := Nat.lt_or_ge (h.taken.length + s.inch.length + ws.length) (payloadOf h.cmd h.cnt)
  · rw [resume_of_short (by simpa using hlt), resume_of_short (by simpa [Nat.add_assoc] using hlt)]
    simp [heldAfter, hold, takeWords, Nat.add_assoc]
  · rw [resume_of_enough (by simpa using hge), resume_of_enough (by simpa [Nat.add_assoc] using hge)]
    have hleft : payloadLeft h.cmd h.cnt h.taken =
        s.inch.length + payloadLeft h.cmd h.cnt (h.taken ++ s.inch) := by
      simp only [payloadLeft, List.length_append]
      omega
    congr 1
    · simp [hleft, List.take_append]
    · simp [afterPayload, release, takeWords, hold, hleft, List.drop_append, Nat.add_assoc]

/-- A held core with more words behind it goes on to what its load would have done with all the words there at once. -/
theorem step_heldAfter_append {h : Held} {s : State} {ws : List W64} (hf : s.fault = false)
    (hw : h.taken.length + s.inch.length < payloadOf h.cmd h.cnt) :
    step { heldAfter h.cmd h.cnt h.taken s with inch := ws } = resume h { s with inch := s.inch ++ ws } := by
  rw [← resume_heldAfter_append hw]
  simp [step, cycle, hold, takeWords, hf]

/-- A command that holds the core is a load whose CNT was accepted and whose payload is not all there. -/
theorem exec_held {i : Instr} {s t : State} (hs : s.held = none) (h : exec i s = .next t) (ht : t.held ≠ none) :
    ∃ cmd, loadCmdOf i = some cmd ∧ cntAccepted s.cfg cmd i.cnt = true ∧
      s.inch.length < payloadOf cmd i.cnt ∧ t = heldAfter cmd i.cnt [] s := by
  obtain hc | ⟨c, rfl⟩ | ⟨cmd, hcmd, hlt, rfl⟩ := exec_cases h
  · exact absurd (hc.held hs) ht
  · exact absurd hs ht
  · refine ⟨cmd, hcmd, ?_, by simpa [payloadWords, hcmd] using hlt, rfl⟩
    by_contra hacc
    rw [exec_load_of_refused hcmd (by simpa using hacc)] at h
    exact ht ((congrArg State.held (Host.Outcome.next.inj h)).symm.trans hs)

/-- A header that holds the core does, with more words behind its payload, what the held core does once they are there. -/
theorem runHeader_append_of_held {h : W64} {s t : State} {ws : List W64} (hs : s.Ready) (hr : runHeader h s = .next t)
    (ht : t.held ≠ none) : t.inch = [] ∧ step { t with inch := ws } = runHeader h { s with inch := s.inch ++ ws } := by
  obtain ⟨i, hd, e⟩ | ⟨err, hd, e⟩ := runHeader_cases h s
  · obtain ⟨cmd, hcmd, hacc, hlt, rfl⟩ := exec_held hs.2 (e.symm.trans hr) ht
    refine ⟨by simp, ?_⟩
    have hrun : runHeader h { s with inch := s.inch ++ ws } = exec i { s with inch := s.inch ++ ws } := by
      simp [runHeader, hd]
    have hload := exec_load_of_accepted (s := { s with inch := s.inch ++ ws }) hcmd hacc
    exact (step_heldAfter_append (h := ⟨cmd, i.cnt, []⟩) hs.1 (by simpa using hlt)).trans (hload.symm.trans hrun.symm)
  · obtain rfl := Host.Outcome.next.inj (e.symm.trans hr)
    exact absurd hs.2 ht

/-- Settles O40: by the header that holds the core. -/
theorem splitPayloadSameLoad : Obligations.SplitPayloadSameLoad := by
  unfold Obligations.SplitPayloadSameLoad
  intro s t h ws1 ws2 hs hstep ht
  have hrun := (step_of_ready (s := { s with inch := h :: ws1 }) hs rfl).symm.trans hstep
  obtain ⟨hinch, happ⟩ := runHeader_append_of_held (s := takeWords 1 { s with inch := h :: ws1 }) (ws := ws2) hs hrun ht
  rw [hinch, List.nil_append, happ]
  exact (step_of_ready (s := { s with inch := h :: (ws1 ++ ws2) }) hs rfl).symm

end Sys2Proof.Machine
end

section
/-! PROOFS. What every command and every step can answer, said once, and what no step changes (`spec/10_state.md`,
`spec/20_memory.md` sections 1 to 3, `spec/60_exceptions.md` section 3). -/

namespace Sys2Proof.Machine

/-! What a command can answer. -/

theorem readSeq_length {α : Type} {name : StoreName} {size : Nat} {st : Store α} {a count : Nat} {vs : List α}
    (h : readSeq name size st a count = .ok vs) : vs.length = count := by
  induction count generalizing a vs with
  | zero => cases h; rfl
  | succ n ih =>
    simp only [readSeq] at h
    split at h
    · cases h
    · split at h
      · cases h
      · next hrest =>
        cases h
        simp [ih hrest]

/-- The next states of a command, by what it does to the state: nothing, words on OUTCH, a fault, a transform, a result, a load that
completes, and a load that is held. -/
inductive Answer (i : Instr) (s : State) : State → Prop
  | same : responseWords s i = 0 → Answer i s s
  | words (ws : List W64) : ws.length = responseWords s i → Answer i s (putWords ws s)
  | turnedAway (c : Cause) : Answer i s (raise c s)
  | transformed (b : Store C64) : responseWords s i = 0 → Answer i s (storeTransform b s)
  | result (element : Nat → Except Fault F64) (acc : F64) (y : Store F64) (m : Nat) : responseWords s i = 0 →
      element = convElement s ∨ element = filtElement s → applyKernel s element m = .ok (acc, y) →
      Answer i s (storeResult acc y m s)
  | loaded (cmd : LoadCmd) (t : State) : responseWords s i = 0 → payloadOf cmd i.cnt ≤ s.inch.length →
      LoadDone (afterPayload cmd i.cnt [] s) t → Answer i s t
  | held (cmd : LoadCmd) : Answer i s (heldAfter cmd i.cnt [] s)

theorem responseWords_of_load {i : Instr} {cmd : LoadCmd} (h : loadCmdOf i = some cmd) (s : State) :
    responseWords s i = 0 := by
  cases i <;> cases h <;> rfl

theorem exec_load_answer {i : Instr} {cmd : LoadCmd} {s t : State} (hcmd : loadCmdOf i = some cmd)
    (h : exec i s = .next t) : Answer i s t := by
  cases hacc : cntAccepted s.cfg cmd i.cnt with
  | true =>
    rw [exec_load_of_accepted hcmd hacc] at h
    obtain ⟨hdone, hw⟩ | ⟨-, rfl⟩ := resume_cases h
    · exact .loaded cmd t (responseWords_of_load hcmd s) (by simpa using hw) hdone
    · exact .held cmd
  | false =>
    rw [exec_load_of_refused hcmd hacc] at h
    obtain rfl := Host.Outcome.next.inj h
    exact .turnedAway _

theorem exec_answer {i : Instr} {s t : State} (h : exec i s = .next t) : Answer i s t := by
  cases i with
  | nop =>
    obtain rfl := execNop_next.1 h
    exact .same rfl
  | stat =>
    obtain rfl := execStat_next.1 h
    exact .words _ rfl
  | fftSetr cnt => exact exec_load_answer rfl h
  | fftSetc cnt => exact exec_load_answer rfl h
  | fftRun =>
    obtain ⟨-, b, -, rfl⟩ | ⟨-, rfl⟩ := execFftRun_next.1 h
    · exact .transformed b rfl
    · exact .turnedAway _
  | fftGets =>
    obtain ⟨-, zs, hzs, rfl⟩ | ⟨-, rfl⟩ := execFftGets_next.1 h
    · refine .words _ ?_
      rw [flattenPairs_length, readSeq_length hzs, responseWords, s.cfg.two_mul_half]
    · exact .turnedAway _
  | firSetk cnt => exact exec_load_answer rfl h
  | firSetx cnt => exact exec_load_answer rfl h
  | firConv =>
    obtain ⟨-, -, -, r, hr, rfl⟩ | ⟨-, -, -, rfl⟩ | ⟨-, rfl⟩ := execFirConv_next.1 h
    · exact .result _ _ _ _ rfl (.inl rfl) hr
    · exact .turnedAway _
    · exact .turnedAway _
  | firFilt =>
    obtain ⟨-, -, r, hr, rfl⟩ | ⟨-, rfl⟩ := execFirFilt_next.1 h
    · exact .result _ _ _ _ rfl (.inr rfl) hr
    · exact .turnedAway _
  | firGety =>
    obtain ⟨-, ys, hys, rfl⟩ | ⟨-, rfl⟩ := execFirGety_next.1 h
    · refine .words _ ?_
      rw [List.length_cons, readSeq_length hys, responseWords, Nat.add_comm]
    · exact .turnedAway _

/-- The next states of a step: a wait, a held load that goes on, and a header that is run. -/
theorem step_next_cases {s t : State} (h : step s = .next t) :
    (s.Idle ∧ t = s) ∨ (s.fault = false ∧ ∃ hd, s.held = some hd ∧ resume hd s = .next t) ∨
      (s.Ready ∧ ∃ w rest, s.inch = w :: rest ∧
        ((∃ i, decode w = .ok i ∧ exec i (takeWords 1 s) = .next t) ∨ ∃ c, t = raise c (takeWords 1 s))) := by
  obtain ⟨-, e⟩ | ⟨hf, hd, hh, e⟩ | ⟨hidle, e⟩ | ⟨hready, w, rest, hi, e⟩ := step_cases s
  · cases e.symm.trans h
  · exact .inr (.inl ⟨hf, hd, hh, e.symm.trans h⟩)
  · exact .inl ⟨hidle, (Host.Outcome.next.inj (e.symm.trans h)).symm⟩
  · refine .inr (.inr ⟨hready, w, rest, hi, ?_⟩)
    obtain ⟨i, hdec, e'⟩ | ⟨err, -, e'⟩ := runHeader_cases w (takeWords 1 s)
    · exact .inl ⟨i, hdec, e'.symm.trans (e.symm.trans h)⟩
    · exact .inr ⟨_, (Host.Outcome.next.inj (e'.symm.trans (e.symm.trans h))).symm⟩

/-- A core that has a step is not faulted. -/
theorem fault_of_step_next {s t : State} (h : step s = .next t) : s.fault = false := by
  by_contra hf
  cases (step_of_fault (by simpa using hf)).symm.trans h

/-! The configuration and the valid flags (R29, log entry 1). -/

/-- The configuration stays, and no valid flag is cleared. -/
structure KeepsFlags (s t : State) : Prop where
  cfg : t.cfg = s.cfg
  fv : s.fv = true → t.fv = true
  kv : s.kv = true → t.kv = true
  xv : s.xv = true → t.xv = true
  yv : s.yv = true → t.yv = true

theorem KeepsFlags.refl (s : State) : KeepsFlags s s := ⟨rfl, id, id, id, id⟩

theorem LoadDone.keepsFlags {s t : State} (h : LoadDone s t) : KeepsFlags s t :=
  ⟨h.cfg, h.fv, h.kv, h.xv, fun hy => h.yv.trans hy⟩

theorem resume_keepsFlags {h : Held} {s t : State} (hr : resume h s = .next t) : KeepsFlags s t := by
  obtain ⟨hdone, -⟩ | ⟨-, rfl⟩ := resume_cases hr
  · obtain ⟨hcfg, hfv, hkv, hxv, hyv⟩ := hdone.keepsFlags
    exact ⟨hcfg, hfv, hkv, hxv, hyv⟩
  · exact ⟨rfl, id, id, id, id⟩

theorem exec_keepsFlags {i : Instr} {s t : State} (h : exec i s = .next t) : KeepsFlags s t := by
  cases exec_answer h with
  | same => exact .refl s
  | words ws => exact ⟨rfl, id, id, id, id⟩
  | turnedAway c => exact ⟨rfl, id, id, id, id⟩
  | transformed b => exact ⟨rfl, id, id, id, id⟩
  | result element acc y m => exact ⟨rfl, id, id, id, fun _ => rfl⟩
  | loaded cmd _ _ _ hdone =>
    obtain ⟨hcfg, hfv, hkv, hxv, hyv⟩ := hdone.keepsFlags
    exact ⟨hcfg, hfv, hkv, hxv, hyv⟩
  | held cmd => exact ⟨rfl, id, id, id, id⟩

theorem step_keepsFlags {s t : State} (h : step s = .next t) : KeepsFlags s t := by
  obtain ⟨-, rfl⟩ | ⟨-, hd, -, hr⟩ | ⟨-, w, rest, -, ⟨i, -, he⟩ | ⟨c, rfl⟩⟩ := step_next_cases h
  · exact .refl t
  · exact resume_keepsFlags hr
  · obtain ⟨hcfg, hfv, hkv, hxv, hyv⟩ := exec_keepsFlags he
    exact ⟨hcfg, hfv, hkv, hxv, hyv⟩
  · exact ⟨rfl, id, id, id, id⟩

/-- A word offered to a core with FAULT = 0 goes to the back of INCH. -/
theorem hostAppend_of_ready {s : State} (w : W64) (h : s.fault = false) :
    hostAppend w s = { s with inch := s.inch ++ [w] } := by
  simp [hostAppend, inReady, h]

/-- A faulted core takes no word that is offered (R58, log entry 11). -/
theorem hostAppend_of_fault {s : State} (w : W64) (h : s.fault = true) : hostAppend w s = s := by
  simp [hostAppend, inReady, h]

theorem hostAppend_keepsFlags (w : W64) (s : State) : KeepsFlags s (hostAppend w s) := by
  cases hf : s.fault with
  | true => rw [hostAppend_of_fault w hf]; exact .refl s
  | false => rw [hostAppend_of_ready w hf]; exact ⟨rfl, id, id, id, id⟩

theorem event_keepsFlags {e : Event} {s t : State} (he : e ≠ .reset) (h : event e s = .next t) : KeepsFlags s t := by
  obtain ⟨-, h⟩ | ⟨w, -, rfl⟩ | ⟨-, rfl⟩ | ⟨rfl, -⟩ := event_next.1 h
  · exact step_keepsFlags h
  · exact hostAppend_keepsFlags w s
  · exact ⟨rfl, id, id, id, id⟩
  · exact absurd rfl he

/-- Settles O49: by the events but reset, and reset as it is defined. -/
theorem configurationIsConstant : Obligations.ConfigurationIsConstant := by
  unfold Obligations.ConfigurationIsConstant
  intro s t e h
  by_cases he : e = .reset
  · subst he
    obtain rfl := Host.Outcome.next.inj h
    rfl
  · exact (event_keepsFlags he h).cfg

/-- Settles O46: by the events but reset, and reset as it is defined. -/
theorem onlyResetClearsFlags : Obligations.OnlyResetClearsFlags := by
  unfold Obligations.OnlyResetClearsFlags
  refine ⟨fun s t e he h => ?_, fun s t h => ?_⟩
  · obtain ⟨-, hfv, hkv, hxv, hyv⟩ := event_keepsFlags he h
    exact ⟨hfv, hkv, hxv, hyv⟩
  · obtain rfl := Host.Outcome.next.inj h
    exact ⟨rfl, rfl, rfl, rfl⟩

/-! The channels (R22, R56, R57). -/

/-- Words leave the front of INCH and are counted by pc, and words are only added to the back of OUTCH. -/
def Flows (s t : State) : Prop :=
  (∃ k ≤ s.inch.length, t.inch = s.inch.drop k ∧ t.pc = s.pc + k) ∧ ∃ ws : List W64, t.outch = s.outch ++ ws

theorem Flows.of_eq {s t : State} (hi : t.inch = s.inch) (hpc : t.pc = s.pc) (ho : t.outch = s.outch) : Flows s t :=
  ⟨⟨0, Nat.zero_le _, by simpa using hi, hpc⟩, [], by simpa using ho⟩

theorem Flows.takeWords {k : Nat} {s : State} (h : k ≤ s.inch.length) : Flows s (takeWords k s) :=
  ⟨⟨k, h, rfl, rfl⟩, [], (List.append_nil _).symm⟩

theorem Flows.trans {s t u : State} (h : Flows s t) (h' : Flows t u) : Flows s u := by
  obtain ⟨⟨k, hk, hi, hpc⟩, ws, ho⟩ := h
  obtain ⟨⟨k', hk', hi', hpc'⟩, ws', ho'⟩ := h'
  have hlen : t.inch.length = s.inch.length - k := by rw [hi, List.length_drop]
  exact ⟨⟨k + k', by omega, by rw [hi', hi, List.drop_drop], by rw [hpc', hpc, Nat.add_assoc]⟩, ws ++ ws',
    by rw [ho', ho, List.append_assoc]⟩

/-- A completed load has taken the rest of its payload. -/
theorem LoadDone.flows {cmd : LoadCmd} {cnt : Nat} {taken : List W64} {s t : State}
    (h : LoadDone (afterPayload cmd cnt taken s) t) (hw : payloadOf cmd cnt ≤ taken.length + s.inch.length) : Flows s t :=
  (Flows.takeWords (k := payloadLeft cmd cnt taken) (by rw [payloadLeft]; omega)).trans (.of_eq h.inch h.pc h.outch)

theorem heldAfter_flows (cmd : LoadCmd) (cnt : Nat) (taken : List W64) (s : State) : Flows s (heldAfter cmd cnt taken s) :=
  (Flows.takeWords le_rfl).trans (.of_eq rfl rfl rfl)

theorem resume_flows {h : Held} {s t : State} (hr : resume h s = .next t) : Flows s t := by
  obtain ⟨hdone, hw⟩ | ⟨-, rfl⟩ := resume_cases hr
  · exact hdone.flows hw
  · exact heldAfter_flows ..

theorem exec_flows {i : Instr} {s t : State} (h : exec i s = .next t) : Flows s t := by
  cases exec_answer h with
  | same => exact .of_eq rfl rfl rfl
  | words ws => exact ⟨⟨0, Nat.zero_le _, rfl, rfl⟩, ws, rfl⟩
  | turnedAway c => exact .of_eq rfl rfl rfl
  | transformed b => exact .of_eq rfl rfl rfl
  | result element acc y m => exact .of_eq rfl rfl rfl
  | loaded cmd _ _ hw hdone => exact hdone.flows (by simpa using hw)
  | held cmd => exact heldAfter_flows ..

theorem step_flows {s t : State} (h : step s = .next t) : Flows s t := by
  obtain ⟨-, rfl⟩ | ⟨-, hd, -, hr⟩ | ⟨-, w, rest, hi, hrun⟩ := step_next_cases h
  · exact .of_eq rfl rfl rfl
  · exact resume_flows hr
  · refine (Flows.takeWords (k := 1) (by simp [hi])).trans ?_
    obtain ⟨i, -, he⟩ | ⟨c, rfl⟩ := hrun
    · exact exec_flows he
    · exact .of_eq rfl rfl rfl

/-- Settles O41: a step only lets words flow. -/
theorem channelsAreFirstInFirstOut : Obligations.ChannelsAreFirstInFirstOut := by
  unfold Obligations.ChannelsAreFirstInFirstOut
  exact fun _ _ h => step_flows h

/-- Settles O43: by what each command answers. -/
theorem responseLengths : Obligations.ResponseLengths := by
  unfold Obligations.ResponseLengths
  intro s t i ⟨hf, _⟩ h ht
  cases exec_answer h with
  | same hz => simp [hf, hz]
  | words ws hlen => simp [hf, hlen]
  | turnedAway c => simp
  | transformed b hz => simp [hf, hz]
  | result element acc y m hz => simp [hf, hz]
  | loaded cmd _ hz _ hdone => simp [hdone.outch, hdone.fault, hf, hz]
  | held cmd => simp at ht

/-- Settles O45: the words depend on nothing that a read changes. -/
theorem readsRepeat : Obligations.ReadsRepeat := by
  unfold Obligations.ReadsRepeat
  intro s t i hi hf h ht
  obtain rfl | rfl | rfl := hi
  · obtain rfl := execStat_next.1 h
    exact ⟨[statusWord s], rfl, rfl⟩
  · obtain ⟨hfv, zs, hzs, rfl⟩ | ⟨-, rfl⟩ := execFftGets_next.1 h
    · exact ⟨flattenPairs zs, rfl, execFftGets_next.2 (.inl ⟨hfv, zs, hzs, rfl⟩)⟩
    · cases ht
  · obtain ⟨hyv, ys, hys, rfl⟩ | ⟨-, rfl⟩ := execFirGety_next.1 h
    · exact ⟨BitVec.ofNat 64 s.ylen :: ys, rfl, execFirGety_next.2 (.inl ⟨hyv, ys, hys, rfl⟩)⟩
    · cases ht

/-! A core that waits, a core that has stopped, and the host's channels (R56 to R58, R224, R226). -/

/-- A load that is short of a word and finds none stays as it is held. -/
theorem resume_of_nothing {h : Held} {s : State} (hh : s.held = some h) (hi : s.inch = [])
    (hgood : Held.Good s.cfg h) : resume h s = .next s := by
  rw [resume_of_short (by simpa [hi] using hgood.2)]
  obtain ⟨cmd, cnt, taken⟩ := h
  simp [heldAfter, hold, takeWords, hi, ← hh]
  simp [← hi]

theorem step_of_idle {s : State} (h : s.Idle) : step s = .next s := by
  obtain ⟨⟨hf, hh⟩, hi⟩ := h
  simp [step, cycle, hf, hh, hi]

theorem step_of_held {s : State} {h : Held} (hf : s.fault = false) (hh : s.held = some h) : step s = resume h s := by
  simp [step, cycle, hf, hh]

/-- Settles O36: an idle core, and a held one that finds no word. -/
theorem waitingChangesNothing : Obligations.WaitingChangesNothing := by
  unfold Obligations.WaitingChangesNothing
  intro s hf hi hgood
  cases hh : s.held with
  | none => exact step_of_idle ⟨⟨hf, hh⟩, hi⟩
  | some h => exact (step_of_held hf hh).trans (resume_of_nothing hh hi (hgood h hh))

/-- The host takes the front word of OUTCH. -/
theorem hostTake_of_cons {s : State} {w : W64} {rest : List W64} (h : s.outch = w :: rest) :
    hostTake s = some (w, { s with outch := rest }) := by
  simp [hostTake, h]

/-- Settles O37: by the step, the offer and the taking. -/
theorem faultedCoreTakesNothing : Obligations.FaultedCoreTakesNothing := by
  unfold Obligations.FaultedCoreTakesNothing
  exact fun s hf => ⟨step_of_fault hf, fun w => hostAppend_of_fault w hf, fun _ _ ho => hostTake_of_cons ho⟩

/-- Settles O48: by the offer and the taking. -/
theorem hostMovesOnlyWords : Obligations.HostMovesOnlyWords := by
  unfold Obligations.HostMovesOnlyWords
  refine ⟨fun s w hf => ?_, fun s w rest ho => ⟨?_, hostTake_of_cons ho⟩, fun s ho => ⟨?_, ?_⟩⟩
  · rw [event, hostAppend_of_ready w hf]
  · rw [event_take, ho, List.tail_cons]
  · rw [event_take, ho, List.tail_nil, ← ho]
  · simp [hostTake, ho]

/-- Settles O39: a faulted core has no step and takes no word, so only a taking changes anything, the front of OUTCH. -/
theorem onlyResetLeavesFault : Obligations.OnlyResetLeavesFault := by
  unfold Obligations.OnlyResetLeavesFault
  refine ⟨fun s t e hf he h => ?_, fun s => ⟨State.resetOf s.cfg, rfl, rfl, rfl⟩⟩
  obtain ⟨-, h⟩ | ⟨w, -, rfl⟩ | ⟨-, rfl⟩ | ⟨rfl, -⟩ := event_next.1 h
  · simp [fault_of_step_next h] at hf
  · exact ⟨0, hostAppend_of_fault w hf⟩
  · exact ⟨1, by rw [List.drop_one]⟩
  · exact absurd rfl he

/-! The two units (R51). -/

/-- Settles O44: what a command of one unit answers names no register of the other, so the same answer stands whatever those hold. -/
theorem unitsAreIndependent : Obligations.UnitsAreIndependent := by
  unfold Obligations.UnitsAreIndependent
  intro i s t u h
  cases i with
  | nop => exact ⟨fun hi => absurd hi (by decide), fun hi => absurd hi (by decide)⟩
  | stat => exact ⟨fun hi => absurd hi (by decide), fun hi => absurd hi (by decide)⟩
  | fftSetr cnt =>
    refine ⟨fun _ => ?_, fun hi => absurd hi (by decide : isFirCommand (.fftSetr 0) ≠ true)⟩
    obtain ⟨hcnt, hl⟩ | ⟨hcnt, rfl⟩ := execFftSetr_next.1 h
    · obtain ⟨hw, b, hb, rfl⟩ | ⟨hw, rfl⟩ := loadFftSetr_next.1 hl
      · exact ⟨rfl, execFftSetr_next.2 (.inl ⟨hcnt, loadFftSetr_next.2 (.inl ⟨hw, b, hb, rfl⟩)⟩)⟩
      · exact ⟨rfl, execFftSetr_next.2 (.inl ⟨hcnt, loadFftSetr_next.2 (.inr ⟨hw, rfl⟩)⟩)⟩
    · exact ⟨rfl, execFftSetr_next.2 (.inr ⟨hcnt, rfl⟩)⟩
  | fftSetc cnt =>
    refine ⟨fun _ => ?_, fun hi => absurd hi (by decide : isFirCommand (.fftSetc 0) ≠ true)⟩
    obtain ⟨hcnt, hl⟩ | ⟨hcnt, rfl⟩ := execFftSetc_next.1 h
    · obtain ⟨hw, b, hb, rfl⟩ | ⟨hw, rfl⟩ := loadFftSetc_next.1 hl
      · exact ⟨rfl, execFftSetc_next.2 (.inl ⟨hcnt, loadFftSetc_next.2 (.inl ⟨hw, b, hb, rfl⟩)⟩)⟩
      · exact ⟨rfl, execFftSetc_next.2 (.inl ⟨hcnt, loadFftSetc_next.2 (.inr ⟨hw, rfl⟩)⟩)⟩
    · exact ⟨rfl, execFftSetc_next.2 (.inr ⟨hcnt, rfl⟩)⟩
  | fftRun =>
    refine ⟨fun _ => ?_, fun hi => absurd hi (by decide)⟩
    obtain ⟨hfv, b, hb, rfl⟩ | ⟨hfv, rfl⟩ := execFftRun_next.1 h
    · exact ⟨rfl, execFftRun_next.2 (.inl ⟨hfv, b, hb, rfl⟩)⟩
    · exact ⟨rfl, execFftRun_next.2 (.inr ⟨hfv, rfl⟩)⟩
  | fftGets =>
    refine ⟨fun _ => ?_, fun hi => absurd hi (by decide)⟩
    obtain ⟨hfv, zs, hzs, rfl⟩ | ⟨hfv, rfl⟩ := execFftGets_next.1 h
    · exact ⟨rfl, execFftGets_next.2 (.inl ⟨hfv, zs, hzs, rfl⟩)⟩
    · exact ⟨rfl, execFftGets_next.2 (.inr ⟨hfv, rfl⟩)⟩
  | firSetk cnt =>
    refine ⟨fun hi => absurd hi (by decide : isFftCommand (.firSetk 0) ≠ true), fun _ => ?_⟩
    obtain ⟨hcnt, hl⟩ | ⟨hcnt, rfl⟩ := execFirSetk_next.1 h
    · obtain ⟨hw, k, hk, rfl⟩ | ⟨hw, rfl⟩ := loadFirSetk_next.1 hl
      · exact ⟨rfl, execFirSetk_next.2 (.inl ⟨hcnt, loadFirSetk_next.2 (.inl ⟨hw, k, hk, rfl⟩)⟩)⟩
      · exact ⟨rfl, execFirSetk_next.2 (.inl ⟨hcnt, loadFirSetk_next.2 (.inr ⟨hw, rfl⟩)⟩)⟩
    · exact ⟨rfl, execFirSetk_next.2 (.inr ⟨hcnt, rfl⟩)⟩
  | firSetx cnt =>
    refine ⟨fun hi => absurd hi (by decide : isFftCommand (.firSetx 0) ≠ true), fun _ => ?_⟩
    obtain ⟨hcnt, hl⟩ | ⟨hcnt, rfl⟩ := execFirSetx_next.1 h
    · obtain ⟨hw, x, hx, rfl⟩ | ⟨hw, rfl⟩ := loadFirSetx_next.1 hl
      · exact ⟨rfl, execFirSetx_next.2 (.inl ⟨hcnt, loadFirSetx_next.2 (.inl ⟨hw, x, hx, rfl⟩)⟩)⟩
      · exact ⟨rfl, execFirSetx_next.2 (.inl ⟨hcnt, loadFirSetx_next.2 (.inr ⟨hw, rfl⟩)⟩)⟩
    · exact ⟨rfl, execFirSetx_next.2 (.inr ⟨hcnt, rfl⟩)⟩
  | firConv =>
    refine ⟨fun hi => absurd hi (by decide), fun _ => ?_⟩
    obtain ⟨hkv, hxv, hm, r, hr, rfl⟩ | ⟨hkv, hxv, hm, rfl⟩ | ⟨hnull, rfl⟩ := execFirConv_next.1 h
    · exact ⟨rfl, execFirConv_next.2 (.inl ⟨hkv, hxv, hm, r, hr, rfl⟩)⟩
    · exact ⟨rfl, execFirConv_next.2 (.inr (.inl ⟨hkv, hxv, hm, rfl⟩))⟩
    · exact ⟨rfl, execFirConv_next.2 (.inr (.inr ⟨hnull, rfl⟩))⟩
  | firFilt =>
    refine ⟨fun hi => absurd hi (by decide), fun _ => ?_⟩
    obtain ⟨hkv, hxv, r, hr, rfl⟩ | ⟨hnull, rfl⟩ := execFirFilt_next.1 h
    · exact ⟨rfl, execFirFilt_next.2 (.inl ⟨hkv, hxv, r, hr, rfl⟩)⟩
    · exact ⟨rfl, execFirFilt_next.2 (.inr ⟨hnull, rfl⟩)⟩
  | firGety =>
    refine ⟨fun hi => absurd hi (by decide), fun _ => ?_⟩
    obtain ⟨hyv, ys, hys, rfl⟩ | ⟨hyv, rfl⟩ := execFirGety_next.1 h
    · exact ⟨rfl, execFirGety_next.2 (.inl ⟨hyv, ys, hys, rfl⟩)⟩
    · exact ⟨rfl, execFirGety_next.2 (.inr ⟨hyv, rfl⟩)⟩

end Sys2Proof.Machine
end

section
/-! PROOFS. Rounding (`spec/40_complex_arithmetic.md` rules R100 to R105): the value of bits 62:0, the two bounds within which a number
rounds to given bits, and that `roundMag` and `divMag` meet them. -/

namespace Sys2Proof.Machine

/-! The value of a magnitude. -/

/-- The value in units of bits 62:0 read as a finite binary64; it goes on past the largest finite one. -/
def magUnits (m : Nat) : Nat := if m / 2 ^ 52 = 0 then m else (2 ^ 52 + m % 2 ^ 52) * 2 ^ (m / 2 ^ 52 - 1)

/-- Between 2^52 · 2^g and 2^53 · 2^g, both included, the magnitudes are the multiples of 2^g; for g = 0 from 0 on. -/
theorem magUnits_of_grid {g q : Nat} (hlow : g = 0 ∨ 2 ^ 52 ≤ q) (hhigh : q ≤ 2 ^ 53) :
    magUnits (g * 2 ^ 52 + q) = q * 2 ^ g := by
  obtain hq | hq | rfl : q < 2 ^ 52 ∨ (2 ^ 52 ≤ q ∧ q < 2 ^ 53) ∨ q = 2 ^ 53 := by omega
  · obtain rfl : g = 0 := by omega
    rw [magUnits, if_pos (by omega)]
    simp
  · have hexp : (g * 2 ^ 52 + q) / 2 ^ 52 = g + 1 := by omega
    have hfrac : 2 ^ 52 + (g * 2 ^ 52 + q) % 2 ^ 52 = q := by omega
    rw [magUnits, hexp, hfrac, if_neg (by omega), Nat.add_sub_cancel]
  · have hexp : (g * 2 ^ 52 + 2 ^ 53) / 2 ^ 52 = g + 2 := by omega
    have hfrac : (g * 2 ^ 52 + 2 ^ 53) % 2 ^ 52 = 0 := by omega
    rw [magUnits, hexp, hfrac, if_neg (by omega), show g + 2 - 1 = g + 1 by omega, Nat.pow_succ]
    omega

/-- Every magnitude lies on such a grid, with the next one on it too. -/
theorem exists_grid (m : Nat) :
    ∃ g q, m = g * 2 ^ 52 + q ∧ magUnits m = q * 2 ^ g ∧ magUnits (m + 1) = (q + 1) * 2 ^ g := by
  obtain ⟨g, q, rfl, hlow, hhigh⟩ : ∃ g q, m = g * 2 ^ 52 + q ∧ (g = 0 ∨ 2 ^ 52 ≤ q) ∧ q < 2 ^ 53 :=
    ⟨m / 2 ^ 52 - 1, m - (m / 2 ^ 52 - 1) * 2 ^ 52, by omega, by omega, by omega⟩
  refine ⟨g, q, rfl, magUnits_of_grid hlow hhigh.le, ?_⟩
  rw [Nat.add_assoc]
  exact magUnits_of_grid (by omega) hhigh

theorem magUnits_strictMono : StrictMono magUnits := by
  refine strictMono_nat_of_lt_succ fun m => ?_
  obtain ⟨g, q, -, hm, hm'⟩ := exists_grid m
  rw [hm, hm']
  exact Nat.mul_lt_mul_of_pos_right (Nat.lt_succ_self q) (Nat.two_pow_pos g)

@[simp] theorem magUnits_zero : magUnits 0 = 0 := rfl

@[simp] theorem magUnits_eq_zero {m : Nat} : magUnits m = 0 ↔ m = 0 :=
  magUnits_strictMono.injective.eq_iff (b := 0)

/-- Twice the middle between a magnitude and the next one. -/
def twiceMiddle (m : Nat) : Nat := magUnits m + magUnits (m + 1)

theorem twiceMiddle_strictMono : StrictMono twiceMiddle := fun _ _ h =>
  Nat.add_lt_add (magUnits_strictMono h) (magUnits_strictMono (Nat.succ_lt_succ h))

theorem twiceMiddle_lt (m : Nat) : twiceMiddle m < 2 * magUnits (m + 1) := by
  have := magUnits_strictMono (Nat.lt_add_one m)
  rw [twiceMiddle]
  omega

theorem lt_twiceMiddle (m : Nat) : 2 * magUnits m < twiceMiddle m := by
  have := magUnits_strictMono (Nat.lt_add_one m)
  rw [twiceMiddle]
  omega

/-- The middle above the last magnitude of a grid. -/
theorem twiceMiddle_last (k : Nat) :
    twiceMiddle ((k + 1) * 2 ^ 52 + (2 ^ 53 - 1)) = 2 * (2 ^ (k + 54) - 2 ^ k) := by
  have hlow : magUnits ((k + 1) * 2 ^ 52 + (2 ^ 53 - 1)) = (2 ^ 53 - 1) * 2 ^ (k + 1) :=
    magUnits_of_grid (by omega) (by omega)
  have hhigh : magUnits ((k + 1) * 2 ^ 52 + 2 ^ 53) = 2 ^ 53 * 2 ^ (k + 1) := magUnits_of_grid (by omega) le_rfl
  rw [twiceMiddle, hlow, Nat.add_assoc, show 2 ^ 53 - 1 + 1 = 2 ^ 53 from rfl, hhigh, Nat.pow_add 2 k 54, Nat.pow_succ]
  omega

/-- The middle between the largest finite binary64 and 2^1024. -/
theorem twiceMiddle_largest : twiceMiddle (infMag - 1) = 2 * (2 ^ 2098 - 2 ^ 2044) := by
  rw [show (2098 : Nat) = 2044 + 54 from rfl, show infMag - 1 = (2044 + 1) * 2 ^ 52 + (2 ^ 53 - 1) from rfl]
  exact twiceMiddle_last 2044

/-! Rounding as two bounds. -/

/-- `num / den` lies between the middles below and above the magnitude `r`, on one of them only when `r` is even; an infinity has no
middle above it. -/
structure RoundsMag (r num den : Nat) : Prop where
  le : r ≤ infMag
  lower : ∀ m, r = m + 1 → twiceMiddle m * den < 2 * num ∨ (twiceMiddle m * den = 2 * num ∧ r % 2 = 0)
  upper : r < infMag → 2 * num < twiceMiddle r * den ∨ (2 * num = twiceMiddle r * den ∧ r % 2 = 0)

theorem infMag_even : infMag % 2 = 0 := by decide

/-- A magnitude that keeps both bounds keeps them cut off at the infinity. -/
theorem roundsMag_min {r num den : Nat} (hden : 0 < den)
    (hlower : ∀ m, r = m + 1 → twiceMiddle m * den < 2 * num ∨ (twiceMiddle m * den = 2 * num ∧ r % 2 = 0))
    (hupper : 2 * num < twiceMiddle r * den ∨ (2 * num = twiceMiddle r * den ∧ r % 2 = 0)) :
    RoundsMag (min r infMag) num den := by
  obtain hlt | hle := Nat.lt_or_ge infMag r
  case inr =>
    rw [Nat.min_eq_left hle]
    exact ⟨hle, hlower, fun _ => hupper⟩
  case inl =>
    rw [Nat.min_eq_right hlt.le]
    refine ⟨le_rfl, fun m hm => ?_, fun h => absurd h (lt_irrefl _)⟩
    have hmid : twiceMiddle m * den < twiceMiddle (r - 1) * den :=
      Nat.mul_lt_mul_of_pos_right (twiceMiddle_strictMono (by omega)) hden
    have hr := hlower (r - 1) (by omega)
    exact .inl (by omega)

/-- The grid that `roundMag` drops bits to (R105): 53 bits are left, or fewer where no bit is dropped beyond the units. -/
theorem roundMag_grid (x sh : Nat) :
    let d := max sh (x.log2 - 52)
    (d - sh = 0 ∨ 2 ^ 52 ≤ x / 2 ^ d) ∧ x / 2 ^ d < 2 ^ 53 := by
  intro d
  refine ⟨?_, ?_⟩
  · by_cases hd : d = sh
    · exact .inl (by omega)
    · refine .inr ((Nat.le_div_iff_mul_le (Nat.two_pow_pos d)).2 ?_)
      have hx : x ≠ 0 := by
        rintro rfl
        simp [d] at hd
      have hlog : 52 + d = x.log2 := by omega
      rw [← Nat.pow_add, hlog]
      exact Nat.log2_self_le hx
  · rw [Nat.div_lt_iff_lt_mul (Nat.two_pow_pos d), ← Nat.pow_add]
    exact Nat.lt_log2_self.trans_le (Nat.pow_le_pow_right two_pos (by omega))

/-- `roundMag` rounds once, ties to even. -/
theorem roundMag_rounds (x sh : Nat) : RoundsMag (roundMag x sh) x (2 ^ sh) := by
  obtain ⟨hlow, hhigh⟩ := roundMag_grid x sh
  simp only [roundMag]
  set d := max sh (x.log2 - 52) with hd
  set q := x / 2 ^ d with hq
  set g := d - sh with hg
  have hval : magUnits (g * 2 ^ 52 + q) * 2 ^ sh = q * 2 ^ d := by
    rw [magUnits_of_grid hlow hhigh.le, Nat.mul_assoc, ← Nat.pow_add, show g + sh = d by omega]
  have hnext : magUnits (g * 2 ^ 52 + q + 1) * 2 ^ sh = q * 2 ^ d + 2 ^ d := by
    rw [Nat.add_assoc, magUnits_of_grid (q := q + 1) (by omega) hhigh, Nat.mul_assoc, ← Nat.pow_add, show g + sh = d by omega,
      Nat.add_mul, Nat.one_mul]
  have hmid : twiceMiddle (g * 2 ^ 52 + q) * 2 ^ sh = 2 * (q * 2 ^ d) + 2 ^ d := by
    rw [twiceMiddle, Nat.add_mul, hval, hnext]
    omega
  have hx : q * 2 ^ d + x % 2 ^ d = x := Nat.div_add_mod' x (2 ^ d)
  have hrem : x % 2 ^ d < 2 ^ d := Nat.mod_lt _ (Nat.two_pow_pos d)
  have hsh : 0 < 2 ^ sh := Nat.two_pow_pos sh
  rw [shiftRne, ← hq]
  split
  case isTrue hup =>
    have habove : 2 * (q * 2 ^ d + 2 ^ d) < twiceMiddle (g * 2 ^ 52 + q + 1) * 2 ^ sh := by
      rw [← hnext, ← Nat.mul_assoc]
      exact Nat.mul_lt_mul_of_pos_right (lt_twiceMiddle _) hsh
    refine roundsMag_min hsh (fun m hm => ?_) (.inl (by rw [← Nat.add_assoc]; omega))
    obtain rfl : m = g * 2 ^ 52 + q := by omega
    rw [hmid]
    omega
  case isFalse hdown =>
    refine roundsMag_min hsh (fun m hm => .inl ?_) (by rw [hmid]; omega)
    have hbelow : twiceMiddle m * 2 ^ sh < 2 * (q * 2 ^ d) := by
      rw [← hval, hm, ← Nat.mul_assoc]
      exact Nat.mul_lt_mul_of_pos_right (twiceMiddle_lt m) hsh
    omega

/-- Only how a number compares with the middles counts. -/
theorem RoundsMag.of_compare {r num den num' den' : Nat} (h : RoundsMag r num den)
    (hlt : ∀ k, k * den < 2 * num → k * den' < 2 * num') (heq : ∀ k, k * den = 2 * num → k * den' = 2 * num')
    (hgt : ∀ k, 2 * num < k * den → 2 * num' < k * den') : RoundsMag r num' den' where
  le := h.le
  lower m hm := (h.lower m hm).imp (hlt _) (And.imp_left (heq _))
  upper hr := (h.upper hr).imp (hgt _) (And.imp_left fun he => (heq _ he.symm).symm)

/-- `divMag` rounds the exact quotient once, ties to even: the bit below the half units keeps every comparison. -/
theorem divMag_rounds (x : Nat) {y : Nat} (hy : 0 < y) : RoundsMag (divMag x y) (x * 2 ^ 1074) y := by
  have hnum : 2 * (x * 2 ^ 1074) = x * 2 ^ 1075 := by
    rw [show (1075 : Nat) = 1074 + 1 from rfl, Nat.pow_add 2 1074 1, Nat.mul_left_comm, Nat.mul_comm 2, Nat.pow_one]
  have hdm := Nat.div_add_mod (x * 2 ^ 1075) y
  have hmod := Nat.mod_lt (x * 2 ^ 1075) hy
  have hround := roundMag_rounds (2 * (x * 2 ^ 1075 / y) + if x * 2 ^ 1075 % y = 0 then 0 else 1) 2
  rw [divMag]
  generalize x * 2 ^ 1075 / y = q at *
  have hbelow (k : Nat) (hk : k < q) : k * y + y ≤ y * q := by
    rw [← Nat.succ_mul, Nat.mul_comm y]
    exact Nat.mul_le_mul_right y hk
  have habove (k : Nat) (hk : q < k) : y * q + y ≤ k * y := by
    rw [← Nat.mul_succ, Nat.mul_comm k]
    exact Nat.mul_le_mul_left y hk
  have hsame : q * y = y * q := Nat.mul_comm q y
  refine hround.of_compare (fun k hk => ?_) (fun k hk => ?_) (fun k hk => ?_) <;> rw [hnum]
  · obtain hlt | rfl : k < q ∨ k = q := by split at hk <;> omega
    · have := hbelow k hlt
      omega
    · split at hk <;> omega
  · obtain rfl : k = q := by split at hk <;> omega
    split at hk <;> omega
  · obtain hlt | rfl : q < k ∨ k = q := by split at hk <;> omega
    · have := habove k hlt
      omega
    · split at hk <;> omega

/-- At most one magnitude keeps both bounds. -/
theorem RoundsMag.unique {r r' num den : Nat} (hden : 0 < den) (h : RoundsMag r num den) (h' : RoundsMag r' num den) :
    r = r' := by
  have key {a b : Nat} (ha : RoundsMag a num den) (hb : RoundsMag b num den) : ¬ a < b := by
    intro hab
    have hmid : twiceMiddle a * den ≤ twiceMiddle (b - 1) * den :=
      Nat.mul_le_mul_right den (twiceMiddle_strictMono.monotone (by omega))
    have hup := ha.upper (hab.trans_le hb.le)
    have hdown := hb.lower (b - 1) (by omega)
    have heq : twiceMiddle a * den = twiceMiddle (b - 1) * den := by omega
    have := twiceMiddle_strictMono.injective (Nat.eq_of_mul_eq_mul_right hden heq)
    omega
  have := key h h'
  have := key h' h
  omega

/-- A magnitude is what its own value rounds to. -/
theorem roundsMag_exact {m den : Nat} (hm : m < infMag) (hden : 0 < den) : RoundsMag m (magUnits m * den) den where
  le := hm.le
  lower k hk := by
    subst hk
    rw [← Nat.mul_assoc]
    exact .inl (Nat.mul_lt_mul_of_pos_right (twiceMiddle_lt k) hden)
  upper _ := by
    rw [← Nat.mul_assoc]
    exact .inl (Nat.mul_lt_mul_of_pos_right (lt_twiceMiddle m) hden)

theorem roundMag_exact {m : Nat} (sh : Nat) (hm : m < infMag) : roundMag (magUnits m * 2 ^ sh) sh = m :=
  (roundMag_rounds _ sh).unique (Nat.two_pow_pos sh) (roundsMag_exact hm (Nat.two_pow_pos sh))

/-- Only zero rounds to zero where nothing is shifted out. -/
theorem roundMag_ne_zero {x : Nat} (hx : x ≠ 0) : roundMag x 0 ≠ 0 := by
  intro h0
  have hupper := (h0 ▸ roundMag_rounds x 0).upper (by decide)
  simp only [twiceMiddle, show magUnits 0 = 0 from rfl, show magUnits (0 + 1) = 1 from rfl] at hupper
  omega

/-- A number overflows exactly from the middle between the largest finite binary64 and 2^1024 on. -/
theorem RoundsMag.eq_infMag_iff {r num den : Nat} (hden : 0 < den) (h : RoundsMag r num den) :
    r = infMag ↔ (2 ^ 2098 - 2 ^ 2044) * den ≤ num := by
  have hlargest : twiceMiddle (infMag - 1) * den = 2 * ((2 ^ 2098 - 2 ^ 2044) * den) := by
    rw [twiceMiddle_largest, Nat.mul_assoc]
  generalize (2 ^ 2098 - 2 ^ 2044) * den = bound at *
  have hpos : 0 < infMag := by decide
  have heven := infMag_even
  constructor
  · intro hr
    have := h.lower (infMag - 1) (by omega)
    omega
  · intro hnum
    by_contra hne
    have hlt : r < infMag := lt_of_le_of_ne h.le hne
    have hle : twiceMiddle r * den ≤ twiceMiddle (infMag - 1) * den :=
      Nat.mul_le_mul_right den (twiceMiddle_strictMono.monotone (by omega))
    have hup := h.upper hlt
    have heq : twiceMiddle r * den = twiceMiddle (infMag - 1) * den := by omega
    have := twiceMiddle_strictMono.injective (Nat.eq_of_mul_eq_mul_right hden heq)
    omega

/-! The nearest magnitude. -/

/-- The distance of a magnitude to `num / den`, times `den`. -/
abbrev distance (v : Int) (num den : Nat) : Int := |v * den - num|

theorem RoundsMag.distance_of_gt {r m num den : Nat} (h : RoundsMag r num den) (hr : r < infMag) (hm : r < m) :
    distance (magUnits r) num den ≤ distance (magUnits m) num den ∧
      (distance (magUnits r) num den = distance (magUnits m) num den → magUnits r * den < magUnits m * den → r % 2 = 0) := by
  have hnext : magUnits (r + 1) * den ≤ magUnits m * den := Nat.mul_le_mul_right den (magUnits_strictMono.monotone hm)
  have hself : magUnits r * den ≤ magUnits m * den := Nat.mul_le_mul_right den (magUnits_strictMono.monotone hm.le)
  have hup := h.upper hr
  rw [twiceMiddle, Nat.add_mul] at hup
  simp only [distance, ← Nat.cast_mul, Int.abs_eq_natAbs]
  generalize magUnits r * den = a at *
  generalize magUnits m * den = b at *
  generalize magUnits (r + 1) * den = c at *
  exact ⟨by omega, by omega⟩

theorem RoundsMag.distance_of_lt {r m num den : Nat} (h : RoundsMag r num den) (hm : m < r) :
    distance (magUnits r) num den ≤ distance (magUnits m) num den ∧
      (distance (magUnits r) num den = distance (magUnits m) num den → magUnits m * den < magUnits r * den → r % 2 = 0) := by
  have hprev : magUnits m * den ≤ magUnits (r - 1) * den :=
    Nat.mul_le_mul_right den (magUnits_strictMono.monotone (by omega))
  have hself : magUnits m * den ≤ magUnits r * den := Nat.mul_le_mul_right den (magUnits_strictMono.monotone hm.le)
  have hdown := h.lower (r - 1) (by omega)
  rw [twiceMiddle, Nat.add_mul, show r - 1 + 1 = r by omega] at hdown
  simp only [distance, ← Nat.cast_mul, Int.abs_eq_natAbs]
  generalize magUnits r * den = a at *
  generalize magUnits m * den = b at *
  generalize magUnits (r - 1) * den = c at *
  exact ⟨by omega, by omega⟩

/-- No magnitude is nearer than the rounded one, and another is as near only when the rounded one is even. -/
theorem RoundsMag.nearest {r num den : Nat} (hden : 0 < den) (h : RoundsMag r num den) (hr : r < infMag) (m : Nat) :
    distance (magUnits r) num den ≤ distance (magUnits m) num den ∧
      (distance (magUnits r) num den = distance (magUnits m) num den → m ≠ r → r % 2 = 0) := by
  have hlt {a b : Nat} (hab : a < b) : magUnits a * den < magUnits b * den :=
    Nat.mul_lt_mul_of_pos_right (magUnits_strictMono hab) hden
  obtain hm | rfl | hm := Nat.lt_trichotomy m r
  · obtain ⟨hle, htie⟩ := h.distance_of_lt hm
    exact ⟨hle, fun he _ => htie he (hlt hm)⟩
  · exact ⟨le_rfl, fun _ hne => absurd rfl hne⟩
  · obtain ⟨hle, htie⟩ := h.distance_of_gt hr hm
    exact ⟨hle, fun he _ => htie he (hlt hm)⟩

/-- Among numbers of both signs too: a negative one is farther than zero. -/
theorem RoundsMag.nearest_neg {r num den : Nat} (hden : 0 < den) (h : RoundsMag r num den) (hr : r < infMag) {m : Nat}
    (hm : m ≠ 0) : distance (magUnits r) num den < distance (-magUnits m) num den := by
  have hzero := (h.nearest hden hr 0).1
  have hpos : 0 < magUnits m * den := Nat.mul_pos (Nat.pos_of_ne_zero (by simpa using hm)) hden
  simp only [distance, magUnits_zero, Nat.cast_zero, zero_mul, neg_mul, ← Nat.cast_mul, Int.abs_eq_natAbs] at hzero ⊢
  generalize magUnits m * den = b at *
  generalize magUnits r * den = a at *
  omega

end Sys2Proof.Machine
end

section
/-! PROOFS. The default arithmetic (`spec/40_complex_arithmetic.md` sections 2 and 3): each operation on finite operands rounds once,
which results are NaNs, the signed zeros, and the parts of a complex product. -/

namespace Sys2Proof.Machine

/-! The fields and the class of a pattern. -/

/-- Bits 62:0. -/
def magOf (w : F64) : Nat := w.toNat % 2 ^ 63

theorem magOf_lt (w : F64) : magOf w < 2 ^ 63 := Nat.mod_lt _ (Nat.two_pow_pos _)

theorem magOf_packSign (neg : Bool) {m : Nat} (h : m < 2 ^ 63) : magOf (packSign neg m) = m := by
  rw [magOf, packSign_toNat neg h]
  cases neg <;> simp only [cond_true, cond_false] <;> omega

/-- A pattern is its sign with its other bits. -/
theorem packSign_magOf (w : F64) : packSign w.msb (magOf w) = w := by
  have hlt : w.toNat < 2 ^ 64 := w.isLt
  refine BitVec.eq_of_toNat_eq ?_
  rw [packSign_toNat _ (magOf_lt w), BitVec.msb_eq_decide, magOf]
  by_cases h : 2 ^ (64 - 1) ≤ w.toNat
  · simp only [h, decide_true, cond_true]
    omega
  · simp only [h, decide_false, cond_false]
    omega

theorem eq_of_msb_magOf {w w' : F64} (hs : w.msb = w'.msb) (hm : magOf w = magOf w') : w = w' := by
  rw [← packSign_magOf w, hs, hm, packSign_magOf]

theorem expOf_eq (w : F64) : expOf w = magOf w / 2 ^ 52 := by
  rw [← packSign_expOf w.msb (magOf_lt w), packSign_magOf]

theorem fracOf_eq (w : F64) : fracOf w = magOf w % 2 ^ 52 := by
  rw [← packSign_fracOf w.msb (magOf_lt w), packSign_magOf]

/-- A pattern below that of an infinity is finite, and its datum has its value (R100). -/
theorem datumOf_of_lt {w : F64} (h : magOf w < infMag) :
    ∃ m e, datumOf w = .fin w.msb m e ∧ m * 2 ^ e = magUnits (magOf w) := by
  rw [infMag] at h
  rw [datumOf, expOf_eq, fracOf_eq, magUnits, if_neg (by omega)]
  split
  · next h0 => exact ⟨_, _, rfl, by rw [Nat.mod_eq_of_lt (by omega), Nat.pow_zero, Nat.mul_one]⟩
  · exact ⟨_, _, rfl, rfl⟩

theorem datumOf_of_eq {w : F64} (h : magOf w = infMag) : datumOf w = .inf w.msb := by
  rw [datumOf, expOf_eq, fracOf_eq, h, if_pos (by decide), if_pos (by decide)]

theorem datumOf_of_gt {w : F64} (h : infMag < magOf w) : datumOf w = .nan := by
  have hlt := magOf_lt w
  rw [infMag] at h
  rw [datumOf, expOf_eq, fracOf_eq, if_pos (by omega), if_neg (by omega)]

theorem isFinite_iff {w : F64} : isFinite w = true ↔ magOf w < infMag := by
  have hlt := magOf_lt w
  rw [isFinite, decide_eq_true_iff, expOf_eq, infMag]
  omega

theorem isNaN_iff {w : F64} : isNaN w = true ↔ datumOf w = .nan := decide_eq_true_iff

theorem isNaN_packSign (neg : Bool) {m : Nat} (h : m ≤ infMag) : isNaN (packSign neg m) = false := by
  rw [← Bool.not_eq_true, isNaN_iff]
  have hm : magOf (packSign neg m) = m := magOf_packSign neg (h.trans_lt infMag_lt)
  obtain hlt | heq := Nat.lt_or_eq_of_le h
  · obtain ⟨_, _, he, -⟩ := datumOf_of_lt (hm.trans_lt hlt)
    simp [he]
  · simp [datumOf_of_eq (hm.trans heq)]

theorem datumOf_infinity (neg : Bool) : datumOf (infinity neg) = .inf neg := by
  rw [infinity, datumOf_of_eq (magOf_packSign neg infMag_lt), packSign_msb neg infMag_lt]

theorem datumOf_eq_inf_iff {w : F64} {neg : Bool} : datumOf w = .inf neg ↔ w = infinity neg := by
  refine ⟨fun h => ?_, fun h => h ▸ datumOf_infinity neg⟩
  obtain hlt | heq | hgt := Nat.lt_trichotomy (magOf w) infMag
  · obtain ⟨_, _, he, -⟩ := datumOf_of_lt hlt
    simp [he] at h
  · have hs : w.msb = neg := by simpa [datumOf_of_eq heq] using h
    exact eq_of_msb_magOf (hs.trans (packSign_msb neg infMag_lt).symm) (heq.trans (magOf_packSign neg infMag_lt).symm)
  · simp [datumOf_of_gt hgt] at h

theorem isFinite_iff_datumOf {w : F64} : isFinite w = true ↔ ∃ neg m e, datumOf w = .fin neg m e := by
  rw [isFinite_iff]
  obtain hlt | heq | hgt := Nat.lt_trichotomy (magOf w) infMag
  · obtain ⟨m, e, he, -⟩ := datumOf_of_lt hlt
    simp [hlt, he]
  · simp [heq, datumOf_of_eq heq]
  · simp [hgt.not_gt, datumOf_of_gt hgt]

/-! The signed value of a finite pattern. -/

/-- The factor of a sign. -/
def signFactor (neg : Bool) : Int := cond neg (-1) 1

@[simp] theorem signFactor_true : signFactor true = -1 := rfl
@[simp] theorem signFactor_false : signFactor false = 1 := rfl

theorem signedUnits_eq (neg : Bool) (m e : Nat) : signedUnits neg m e = signFactor neg * ((m * 2 ^ e : Nat) : Int) := by
  cases neg <;> simp [signedUnits]

theorem unitsOf_of_datumOf {w : F64} {neg : Bool} {m e : Nat} (h : datumOf w = .fin neg m e) :
    unitsOf w = signedUnits neg m e := by
  rw [unitsOf, h]

theorem unitsOf_eq {w : F64} (h : isFinite w = true) : unitsOf w = signFactor w.msb * (magUnits (magOf w) : Int) := by
  obtain ⟨m, e, he, hval⟩ := datumOf_of_lt (isFinite_iff.1 h)
  rw [unitsOf_of_datumOf he, signedUnits_eq, hval]

theorem unitsOf_packSign (neg : Bool) {m : Nat} (h : m < infMag) :
    isFinite (packSign neg m) = true ∧ unitsOf (packSign neg m) = signFactor neg * (magUnits m : Int) := by
  have hm : magOf (packSign neg m) = m := magOf_packSign neg (h.trans infMag_lt)
  have hf : isFinite (packSign neg m) = true := isFinite_iff.2 (hm.symm ▸ h)
  refine ⟨hf, ?_⟩
  rw [unitsOf_eq hf, hm, packSign_msb neg (h.trans infMag_lt)]

theorem signFactor_mul_self (neg : Bool) : signFactor neg * signFactor neg = 1 := by cases neg <;> rfl

theorem signFactor_xor (s t : Bool) : signFactor (s != t) = signFactor s * signFactor t := by
  cases s <;> cases t <;> rfl

@[simp] theorem abs_signFactor (neg : Bool) : |signFactor neg| = 1 := by cases neg <;> rfl

theorem unitsOf_eq_zero_iff {w : F64} (h : isFinite w = true) : unitsOf w = 0 ↔ magOf w = 0 := by
  rw [unitsOf_eq h]
  cases w.msb <;> simp

/-- With the factor of a sign a finite value is that of its magnitude, or the negated one. -/
theorem signFactor_mul_unitsOf {w : F64} (h : isFinite w = true) (neg : Bool) :
    signFactor neg * unitsOf w = magUnits (magOf w) ∨ signFactor neg * unitsOf w = -magUnits (magOf w) := by
  rw [unitsOf_eq h, ← mul_assoc, ← signFactor_xor]
  cases neg != w.msb <;> simp

theorem signFactor_mul_unitsOf_packSign (neg : Bool) {m : Nat} (h : m < infMag) :
    signFactor neg * unitsOf (packSign neg m) = magUnits m := by
  rw [(unitsOf_packSign neg h).2, ← mul_assoc, signFactor_mul_self, one_mul]

/-! Rounding of signed numbers. -/

/-- A magnitude that keeps the two bounds, with its sign, is nearest, and even where another is as near. -/
theorem nearestEven_of_rounds {neg : Bool} {r num den : Nat} {A B : Int} (hden : 0 < den) (h : RoundsMag r num den)
    (hr : r < infMag) (hdist : ∀ v : Int, |v * B - A| = distance (signFactor neg * v) num den) :
    NearestEven (packSign neg r) A B := by
  have hself := signFactor_mul_unitsOf_packSign neg hr
  refine ⟨(unitsOf_packSign neg hr).1, fun c hc => ?_⟩
  rw [hdist, hdist, hself]
  have hfrac : r % 2 = 0 → fracOf (packSign neg r) % 2 = 0 := by
    rw [packSign_fracOf neg (hr.trans infMag_lt)]
    omega
  by_cases hside : signFactor neg * unitsOf c = magUnits (magOf c)
  · rw [hside]
    obtain ⟨hle, htie⟩ := h.nearest hden hr (magOf c)
    refine ⟨hle, fun he hne => hfrac (htie he fun hm => hne ?_)⟩
    rw [hm, ← hself] at hside
    have hfactor : signFactor neg ≠ 0 := by cases neg <;> simp
    exact mul_left_cancel₀ hfactor hside
  · have hneg := (signFactor_mul_unitsOf hc neg).resolve_left hside
    have hm : magOf c ≠ 0 := by
      intro hm
      simp [hneg, hm] at hside
    have hlt := h.nearest_neg hden hr hm
    rw [hneg]
    exact ⟨hlt.le, fun he => absurd he hlt.ne⟩

theorem cast_two_pow (k : Nat) : ((2 ^ k : Nat) : Int) = 2 ^ k := by rw [Nat.cast_pow, Nat.cast_ofNat]

theorem two_pow_sub_cast {i j : Nat} (h : i ≤ j) : (2 : Int) ^ j - 2 ^ i = ((2 ^ j - 2 ^ i : Nat) : Int) := by
  rw [Nat.cast_sub (Nat.pow_le_pow_right two_pos h), cast_two_pow, cast_two_pow]

theorem overflows_iff {A B : Int} {num den : Nat} (hA : |A| = num) (hB : |B| = den) :
    Overflows A B ↔ (2 ^ 2098 - 2 ^ 2044) * den ≤ num := by
  rw [Overflows, hA, hB, two_pow_sub_cast (show 2044 ≤ 2098 by omega), ← Nat.cast_mul, Nat.cast_le]

/-- A magnitude that keeps the two bounds, with its sign, is the number rounded once. -/
theorem roundsTo_of_rounds {neg : Bool} {r num den : Nat} {A B : Int} (hden : 0 < den) (h : RoundsMag r num den)
    (hA : |A| = num) (hB : |B| = den) (hdist : ∀ v : Int, |v * B - A| = distance (signFactor neg * v) num den) :
    RoundsTo (packSign neg r) A B neg := by
  rw [RoundsTo, overflows_iff hA hB, ← h.eq_infMag_iff hden]
  exact ⟨fun hr => by rw [hr, infinity], fun hr => nearestEven_of_rounds hden h (lt_of_le_of_ne h.le hr) hdist⟩

theorem abs_mul_sub_of_sign (neg : Bool) (x y : Int) : |x - signFactor neg * y| = |signFactor neg * x - y| := by
  cases neg
  · simp
  · rw [signFactor_true, neg_one_mul, neg_one_mul, sub_neg_eq_add, ← abs_neg, neg_add']

/-- A signed number of units is rounded once, whatever the sign of an exact zero. -/
theorem roundInt_roundsTo (zeroNeg : Bool) (z : Int) : RoundsTo (roundInt zeroNeg z) z 1 (decide (z < 0)) := by
  rw [roundInt]
  split
  case isTrue h0 =>
    have hround : RoundsMag 0 0 1 := roundsMag_exact (m := 0) (by decide) one_pos
    have hno : ¬ Overflows 0 1 := by
      rw [overflows_iff (num := 0) (den := 1) (by simp) (by simp), ← hround.eq_infMag_iff one_pos]
      decide
    subst h0
    refine ⟨fun hover => absurd hover hno, fun _ => nearestEven_of_rounds one_pos hround (by decide) fun v => ?_⟩
    simp [distance, abs_mul]
  case isFalse h0 =>
    refine roundsTo_of_rounds one_pos (roundMag_rounds z.natAbs 0) z.abs_eq_natAbs rfl fun v => ?_
    have hz : z = signFactor (decide (z < 0)) * (z.natAbs : Int) := by
      by_cases hneg : z < 0
      · rw [decide_eq_true hneg, signFactor_true]
        omega
      · rw [decide_eq_false hneg, signFactor_false]
        omega
    rw [distance, Nat.cast_one, mul_one, mul_one, ← abs_mul_sub_of_sign, ← hz]

/-! The operations on finite operands (R101 to R104). -/

theorem fadd_of_datumOf {a b : F64} {s t : Bool} {m e n f : Nat} (ha : datumOf a = .fin s m e)
    (hb : datumOf b = .fin t n f) : fadd .ieee a b = roundInt (s && t) (unitsOf a + unitsOf b) := by
  simp [fadd, numericsOp, ieeeOp, ha, hb, addDatum, unitsOf]

theorem unitsOf_neg_datum {t : Bool} {n f : Nat} : signedUnits (!t) n f = -signedUnits t n f := by
  cases t <;> simp [signedUnits]

theorem fsub_of_datumOf {a b : F64} {s t : Bool} {m e n f : Nat} (ha : datumOf a = .fin s m e)
    (hb : datumOf b = .fin t n f) : fsub .ieee a b = roundInt (s && !t) (unitsOf a - unitsOf b) := by
  simp [fsub, numericsOp, ieeeOp, ha, hb, negDatum, addDatum, unitsOf, unitsOf_neg_datum, sub_eq_add_neg]

theorem fmul_of_finite {a b : F64} (ha : isFinite a = true) (hb : isFinite b = true) :
    fmul .ieee a b = packSign (a.msb != b.msb) (roundMag (magUnits (magOf a) * magUnits (magOf b)) 1074) := by
  obtain ⟨m, e, hda, hma⟩ := datumOf_of_lt (isFinite_iff.1 ha)
  obtain ⟨n, f, hdb, hmb⟩ := datumOf_of_lt (isFinite_iff.1 hb)
  simp [fmul, numericsOp, ieeeOp, hda, hdb, mulDatum, hma, hmb]

theorem fdiv_of_finite {a b : F64} (ha : isFinite a = true) (hb : isFinite b = true) (h0 : magOf b ≠ 0) :
    fdiv .ieee a b = packSign (a.msb != b.msb) (divMag (magUnits (magOf a)) (magUnits (magOf b))) := by
  obtain ⟨m, e, hda, hma⟩ := datumOf_of_lt (isFinite_iff.1 ha)
  obtain ⟨n, f, hdb, hmb⟩ := datumOf_of_lt (isFinite_iff.1 hb)
  have hn : n ≠ 0 := by
    rintro rfl
    exact h0 (magUnits_eq_zero.1 (by simpa using hmb.symm))
  simp [fdiv, numericsOp, ieeeOp, hda, hdb, divDatum, hma, hmb, hn]

/-! The sign flipped (R102). -/

theorem msb_flipSign (w : F64) : (flipSign w).msb = !w.msb := by
  rw [flipSign, BitVec.msb_xor, show (0x8000000000000000#64).msb = true from by decide, Bool.xor_true]

theorem magOf_flipSign (w : F64) : magOf (flipSign w) = magOf w := by
  rw [magOf, flipSign, BitVec.toNat_xor, Nat.xor_mod_two_pow, show (0x8000000000000000#64).toNat % 2 ^ 63 = 0 from by decide,
    Nat.xor_zero, magOf]

theorem datumOf_flipSign (w : F64) : datumOf (flipSign w) = negDatum (datumOf w) := by
  rw [datumOf, datumOf, expOf_eq, expOf_eq, fracOf_eq, fracOf_eq, magOf_flipSign, msb_flipSign]
  split_ifs <;> rfl

/-- Settles O6: both answer an exact number of units rounded by `roundInt`. -/
theorem ieeeAddRoundsOnce : Obligations.IeeeAddRoundsOnce := by
  unfold Obligations.IeeeAddRoundsOnce
  intro a b ha hb
  obtain ⟨s, m, e, hda⟩ := isFinite_iff_datumOf.1 ha
  obtain ⟨t, n, f, hdb⟩ := isFinite_iff_datumOf.1 hb
  refine ⟨?sum, ?difference, ?flipped⟩
  case sum => exact fadd_of_datumOf hda hdb ▸ roundInt_roundsTo ..
  case difference => exact fsub_of_datumOf hda hdb ▸ roundInt_roundsTo ..
  case flipped =>
    have hflip : datumOf (flipSign b) = .fin (!t) n f := by rw [datumOf_flipSign, hdb, negDatum]
    rw [fsub_of_datumOf hda hdb, fadd_of_datumOf hda hflip, unitsOf_of_datumOf hflip, unitsOf_of_datumOf hdb,
      unitsOf_neg_datum, sub_eq_add_neg]

theorem abs_unitsOf {w : F64} (h : isFinite w = true) : |unitsOf w| = magUnits (magOf w) := by
  rw [unitsOf_eq h, abs_mul, abs_signFactor, one_mul, Nat.abs_cast]

theorem abs_two_pow (k : Nat) : |(2 : Int) ^ k| = ((2 ^ k : Nat) : Int) := by
  rw [abs_pow, abs_two, cast_two_pow]

theorem abs_mul_two_pow_sub_of_sign (neg : Bool) (v : Int) (n k : Nat) :
    |v * 2 ^ k - signFactor neg * n| = distance (signFactor neg * v) n (2 ^ k) := by
  rw [abs_mul_sub_of_sign, distance, mul_assoc, cast_two_pow]

/-- Settles O7: the product of the values is rounded by `roundMag` after the exponents' shift. -/
theorem ieeeMulRoundsOnce : Obligations.IeeeMulRoundsOnce := by
  unfold Obligations.IeeeMulRoundsOnce
  intro a b ha hb
  rw [fmul_of_finite ha hb, packSign_msb _ (roundMag_lt ..)]
  refine ⟨roundsTo_of_rounds (Nat.two_pow_pos _) (roundMag_rounds ..) ?_ ?_ fun v => ?_, rfl⟩
  · rw [abs_mul, abs_unitsOf ha, abs_unitsOf hb, Nat.cast_mul]
  · rw [abs_two_pow]
  · have hprod : unitsOf a * unitsOf b = signFactor (a.msb != b.msb) *
        ((magUnits (magOf a) * magUnits (magOf b) : Nat) : Int) := by
      rw [unitsOf_eq ha, unitsOf_eq hb, signFactor_xor, Nat.cast_mul]
      ring
    rw [hprod, abs_mul_two_pow_sub_of_sign]

/-- Settles O8: the quotient is rounded by `divMag`. -/
theorem ieeeDivRoundsOnce : Obligations.IeeeDivRoundsOnce := by
  unfold Obligations.IeeeDivRoundsOnce
  intro a b ha hb h0
  have hmag : magOf b ≠ 0 := fun h => h0 ((unitsOf_eq_zero_iff hb).2 h)
  have hpos : 0 < magUnits (magOf b) := Nat.pos_of_ne_zero (by simpa using hmag)
  have hround := divMag_rounds (magUnits (magOf a)) hpos
  rw [fdiv_of_finite ha hb hmag, packSign_msb _ (hround.le.trans_lt infMag_lt)]
  refine ⟨roundsTo_of_rounds hpos hround ?_ (abs_unitsOf hb) fun v => ?_, rfl⟩
  · rw [abs_mul, abs_unitsOf ha, abs_two_pow, Nat.cast_mul]
  · rw [unitsOf_eq ha, unitsOf_eq hb, mul_assoc (signFactor a.msb), abs_mul_sub_of_sign, distance, signFactor_xor,
      Nat.cast_mul, cast_two_pow]
    congr 2
    ring

end Sys2Proof.Machine
end

section
/-! PROOFS. NaNs, signed zeros and complex products of the default arithmetic (`spec/40_complex_arithmetic.md` rules R106, R107,
R108 to R111). -/

namespace Sys2Proof.Machine

/-! NaN results (R106). -/

/-- The datum operation behind a default operation; `none` for an invalid one. -/
def datumOp (op : NumOp) (d d' : Datum) : Option F64 :=
  match op with
  | .add => addDatum d d'
  | .sub => addDatum d (negDatum d')
  | .mul => mulDatum d d'
  | .div => divDatum d d'

theorem ieeeOp_eq (op : NumOp) (a b : F64) :
    ieeeOp op a b = (datumOp op (datumOf a) (datumOf b)).getD (nanResult op a b) := by
  cases op <;> simp only [ieeeOp, datumOp] <;> split <;> simp [*]

theorem isNaN_roundInt (zeroNeg : Bool) (z : Int) : isNaN (roundInt zeroNeg z) = false := by
  rw [roundInt]
  split
  · exact isNaN_packSign _ (Nat.zero_le _)
  · exact isNaN_packSign _ (roundMag_le_infMag ..)

theorem isNaN_infinity (neg : Bool) : isNaN (infinity neg) = false := isNaN_packSign neg le_rfl

theorem isNaN_of_addDatum {d d' : Datum} {w : F64} (h : addDatum d d' = some w) : isNaN w = false := by
  cases d <;> cases d' <;> simp only [addDatum, reduceCtorEq, Option.some.injEq, Option.ite_none_right_eq_some] at h
  · obtain ⟨-, rfl⟩ := h
    exact isNaN_infinity _
  all_goals subst h
  · exact isNaN_infinity _
  · exact isNaN_infinity _
  · exact isNaN_roundInt ..

theorem isNaN_of_mulDatum {d d' : Datum} {w : F64} (h : mulDatum d d' = some w) : isNaN w = false := by
  cases d <;> cases d' <;>
    simp only [mulDatum, reduceCtorEq, Option.some.injEq, Option.ite_none_left_eq_some] at h
  · exact h ▸ isNaN_infinity _
  · exact h.2 ▸ isNaN_infinity _
  · exact h.2 ▸ isNaN_infinity _
  · exact h ▸ isNaN_packSign _ (roundMag_le_infMag ..)

theorem isNaN_of_divDatum {d d' : Datum} {w : F64} (h : divDatum d d' = some w) : isNaN w = false := by
  cases d <;> cases d' <;> simp only [divDatum, reduceCtorEq, Option.some.injEq] at h
  · exact h ▸ isNaN_infinity _
  · exact h ▸ isNaN_packSign _ (Nat.zero_le _)
  · split at h
    · simp only [Option.ite_none_left_eq_some, Option.some.injEq] at h
      exact h.2 ▸ isNaN_infinity _
    · exact Option.some.inj h ▸ isNaN_packSign _ (roundMag_le_infMag ..)

/-- A default operation answers a NaN exactly where the operation on the data is invalid. -/
theorem isNaN_ieeeOp_iff (op : NumOp) (a b : F64) :
    isNaN (ieeeOp op a b) = true ↔ datumOp op (datumOf a) (datumOf b) = none := by
  rw [ieeeOp_eq]
  cases h : datumOp op (datumOf a) (datumOf b) with
  | none => simp [nanResult, isNaN_iff, datumOf_nanFrom]
  | some w =>
    have hw : isNaN w = false := by
      cases op with
      | add => exact isNaN_of_addDatum h
      | sub => exact isNaN_of_addDatum h
      | mul => exact isNaN_of_mulDatum h
      | div => exact isNaN_of_divDatum h
    simp [hw]

/-- Where a default operation is no NaN it is what its work on the data answers. -/
theorem datumOp_eq_some {op : NumOp} {a b : F64} (h : isNaN (ieeeOp op a b) = false) :
    datumOp op (datumOf a) (datumOf b) = some (ieeeOp op a b) := by
  cases hd : datumOp op (datumOf a) (datumOf b) with
  | none => simp [(isNaN_ieeeOp_iff op a b).2 hd] at h
  | some w => rw [ieeeOp_eq, hd, Option.getD_some]

theorem addDatum_eq_none {d d' : Datum} :
    addDatum d d' = none ↔ (d = .nan ∨ d' = .nan) ∨ ∃ s t, d = .inf s ∧ d' = .inf t ∧ s ≠ t := by
  cases d <;> cases d' <;> simp [addDatum]

theorem mulDatum_eq_none {d d' : Datum} :
    mulDatum d d' = none ↔ (d = .nan ∨ d' = .nan) ∨ (∃ s t e, d = .inf s ∧ d' = .fin t 0 e) ∨
      ∃ s t e, d' = .inf s ∧ d = .fin t 0 e := by
  cases d <;> cases d' <;> simp [mulDatum]

theorem divDatum_eq_none {d d' : Datum} :
    divDatum d d' = none ↔ (d = .nan ∨ d' = .nan) ∨ (∃ s t, d = .inf s ∧ d' = .inf t) ∨
      ∃ s t e f, d = .fin s 0 e ∧ d' = .fin t 0 f := by
  cases d with
  | nan => simp [divDatum]
  | inf s => cases d' <;> simp [divDatum]
  | fin s m e =>
    cases d' with
    | nan => simp [divDatum]
    | inf t => simp [divDatum]
    | fin t n f => by_cases hn : n = 0 <;> simp [divDatum, hn]

/-- The infinities, by their data. -/
theorem isInfinity_iff {w : F64} : w = infinity false ∨ w = infinity true ↔ ∃ s, datumOf w = .inf s := by
  simp only [datumOf_eq_inf_iff, Bool.exists_bool]

/-- The zeros, by their data. -/
theorem isZero_iff {w : F64} : isFinite w = true ∧ unitsOf w = 0 ↔ ∃ s e, datumOf w = .fin s 0 e := by
  constructor
  · rintro ⟨hf, hz⟩
    obtain ⟨s, m, e, h⟩ := isFinite_iff_datumOf.1 hf
    rw [unitsOf_of_datumOf h, signedUnits_eq] at hz
    obtain rfl : m = 0 := by cases s <;> simpa using hz
    exact ⟨s, e, h⟩
  · rintro ⟨s, e, h⟩
    refine ⟨isFinite_iff_datumOf.2 ⟨s, 0, e, h⟩, ?_⟩
    rw [unitsOf_of_datumOf h, signedUnits_eq]
    simp

/-- Settles O9: the invalid operations on data, in terms of the patterns. -/
theorem nanExactlyWhenInvalid : Obligations.NanExactlyWhenInvalid := by
  unfold Obligations.NanExactlyWhenInvalid
  intro a b
  have hinf (s t : Bool) (ha : datumOf a = .inf s) (hb : datumOf b = .inf t) : a = b ↔ s = t :=
    ⟨fun h => by simpa [h, hb, eq_comm] using ha,
      fun h => (datumOf_eq_inf_iff.1 ha).trans (h ▸ (datumOf_eq_inf_iff.1 hb).symm)⟩
  refine ⟨?sum, ?difference, ?product, ?quotient⟩
  case sum =>
    refine (isNaN_ieeeOp_iff .add a b).trans (addDatum_eq_none.trans ?_)
    rw [isNaN_iff, isNaN_iff, isInfinity_iff, isInfinity_iff]
    refine or_congr_right ⟨?_, ?_⟩
    · rintro ⟨s, t, ha, hb, hne⟩
      exact ⟨⟨s, ha⟩, ⟨t, hb⟩, fun h => hne ((hinf s t ha hb).1 h)⟩
    · rintro ⟨⟨s, ha⟩, ⟨t, hb⟩, hne⟩
      exact ⟨s, t, ha, hb, fun h => hne ((hinf s t ha hb).2 h)⟩
  case difference =>
    have hnan : negDatum (datumOf b) = .nan ↔ datumOf b = .nan := by cases datumOf b <;> simp [negDatum]
    have hneg (t : Bool) : negDatum (datumOf b) = .inf t ↔ datumOf b = .inf (!t) := by
      cases datumOf b <;> simp [negDatum, Bool.not_eq_eq_eq_not]
    refine (isNaN_ieeeOp_iff .sub a b).trans (addDatum_eq_none.trans ?_)
    rw [hnan, isNaN_iff, isNaN_iff, isInfinity_iff, isInfinity_iff]
    refine or_congr_right ⟨?_, ?_⟩
    · rintro ⟨s, t, ha, hb, hne⟩
      exact ⟨⟨s, ha⟩, ⟨!t, (hneg t).1 hb⟩, (hinf s _ ha ((hneg t).1 hb)).2 (Bool.eq_not_iff.2 hne)⟩
    · rintro ⟨⟨s, ha⟩, ⟨t, hb⟩, he⟩
      exact ⟨s, !t, ha, (hneg _).2 (by simpa using hb), by simp [(hinf s t ha hb).1 he]⟩
  case product =>
    refine (isNaN_ieeeOp_iff .mul a b).trans (mulDatum_eq_none.trans ?_)
    rw [isNaN_iff, isNaN_iff, isInfinity_iff, isInfinity_iff, isZero_iff, isZero_iff]
    simp only [exists_and_left, exists_and_right]
  case quotient =>
    refine (isNaN_ieeeOp_iff .div a b).trans (divDatum_eq_none.trans ?_)
    rw [isNaN_iff, isNaN_iff, isInfinity_iff, isInfinity_iff, ← and_assoc (b := unitsOf a = 0), isZero_iff, isZero_iff]
    simp only [exists_and_left, exists_and_right]

/-! Signed zeros (R107). -/

/-- A finite pattern that is not a zero is its own value rounded. -/
theorem roundInt_unitsOf {w : F64} (hf : isFinite w = true) (h0 : unitsOf w ≠ 0) (zeroNeg : Bool) :
    roundInt zeroNeg (unitsOf w) = w := by
  have hmag : magOf w ≠ 0 := fun h => h0 ((unitsOf_eq_zero_iff hf).2 h)
  have hpos : 0 < magUnits (magOf w) := Nat.pos_of_ne_zero (by simpa using hmag)
  have hsign : decide (unitsOf w < 0) = w.msb := by
    rw [unitsOf_eq hf]
    cases w.msb <;> simp [hpos]
  have habs : (unitsOf w).natAbs = magUnits (magOf w) * 2 ^ 0 := by
    rw [unitsOf_eq hf, Int.natAbs_mul]
    cases w.msb <;> simp
  rw [roundInt, if_neg h0, hsign, habs, roundMag_exact 0 (isFinite_iff.1 hf), packSign_magOf]

theorem packSign_zero_eq (neg : Bool) :
    packSign neg 0 = if neg then 0x8000000000000000#64 else 0x0000000000000000#64 := by
  cases neg <;> decide

theorem unitsOf_packSign_zero (neg : Bool) : isFinite (packSign neg 0) = true ∧ unitsOf (packSign neg 0) = 0 := by
  simpa using unitsOf_packSign neg (show 0 < infMag by decide)

theorem eq_packSign_zero {w : F64} (h : magOf w = 0) : w = packSign w.msb 0 := by
  rw [← h, packSign_magOf]

/-- A finite pattern that is neither zero has a value that is not zero. -/
theorem unitsOf_ne_zero {w : F64} (hf : isFinite w = true) (hp : w ≠ 0x0000000000000000#64)
    (hn : w ≠ 0x8000000000000000#64) : unitsOf w ≠ 0 := by
  rw [Ne, unitsOf_eq_zero_iff hf]
  intro h
  have hw := eq_packSign_zero h
  rw [packSign_zero_eq] at hw
  split at hw
  · exact hn hw
  · exact hp hw

/-- Adding a zero to a number that is not a zero leaves it. -/
theorem fadd_packSign_zero {x : F64} (hx : isNaN x = false) (hp : x ≠ 0x0000000000000000#64)
    (hn : x ≠ 0x8000000000000000#64) (neg : Bool) : fadd .ieee x (packSign neg 0) = x := by
  obtain ⟨hf0, hz0⟩ := unitsOf_packSign_zero neg
  obtain ⟨t, n, f, h0⟩ := isFinite_iff_datumOf.1 hf0
  cases h : datumOf x with
  | nan => simp [isNaN, h] at hx
  | inf s =>
    rw [fadd, numericsOp, ieeeOp_eq, h, h0]
    exact (datumOf_eq_inf_iff.1 h).symm
  | fin s m e =>
    have hf := isFinite_iff_datumOf.2 ⟨s, m, e, h⟩
    rw [fadd_of_datumOf h h0, hz0, add_zero, roundInt_unitsOf hf (unitsOf_ne_zero hf hp hn)]

theorem roundInt_eq_negZero {zeroNeg : Bool} {z : Int} (h : roundInt zeroNeg z = packSign true 0) :
    z = 0 ∧ zeroNeg = true := by
  rw [roundInt] at h
  split at h
  · next hz =>
    refine ⟨hz, ?_⟩
    have := congrArg BitVec.msb h
    simpa [packSign_msb] using this
  · next hz =>
    have hmag := congrArg magOf h
    rw [magOf_packSign _ (roundMag_lt ..), magOf_packSign _ (by decide)] at hmag
    exact absurd hmag (roundMag_ne_zero (by simpa using hz))

theorem infinity_ne_zero (neg s : Bool) : infinity neg ≠ packSign s 0 := fun h => by
  have hmag := congrArg magOf h
  rw [infinity, magOf_packSign _ infMag_lt, magOf_packSign _ (by decide)] at hmag
  exact absurd hmag (by decide)

/-- A negative datum of value zero is that of −0.0. -/
theorem eq_negZero_of_datumOf {w : F64} {m e : Nat} (hw : datumOf w = .fin true m e) (h0 : m * 2 ^ e = 0) :
    w = packSign true 0 := by
  have hf := isFinite_iff_datumOf.2 ⟨true, m, e, hw⟩
  have hunits : unitsOf w = 0 := by
    rw [unitsOf_of_datumOf hw, signedUnits_eq, h0]
    simp
  have hmsb : w.msb = true := by
    obtain ⟨m', e', hw', -⟩ := datumOf_of_lt (isFinite_iff.1 hf)
    exact (Datum.fin.inj (hw.symm.trans hw')).1.symm
  rw [eq_packSign_zero ((unitsOf_eq_zero_iff hf).1 hunits), hmsb]

/-- A sum is −0.0 only when both operands are. -/
theorem fadd_eq_negZero {a b : F64} (h : fadd .ieee a b = 0x8000000000000000#64) :
    a = 0x8000000000000000#64 ∧ b = 0x8000000000000000#64 := by
  have hnegZero : (0x8000000000000000#64 : F64) = packSign true 0 := by decide
  rw [hnegZero] at h ⊢
  have hnan : isNaN (fadd .ieee a b) = false := by
    rw [h]
    exact isNaN_packSign true (Nat.zero_le _)
  have hadd : addDatum (datumOf a) (datumOf b) = some (packSign true 0) :=
    (datumOp_eq_some (op := .add) hnan).trans (congrArg some h)
  cases ha : datumOf a <;> cases hb : datumOf b <;>
    simp only [ha, hb, addDatum, reduceCtorEq, Option.some.injEq, Option.ite_none_right_eq_some, infinity_ne_zero,
      and_false] at hadd
  next s m e t n f =>
    obtain ⟨hz, hst⟩ := roundInt_eq_negZero hadd
    obtain ⟨rfl, rfl⟩ : s = true ∧ t = true := by simpa using hst
    simp only [signedUnits, cond_true] at hz
    exact ⟨eq_negZero_of_datumOf ha (by omega), eq_negZero_of_datumOf hb (by omega)⟩

/-- A finite number and its negation add up to +0.0. -/
theorem fadd_flipSign {x : F64} (hf : isFinite x = true) : fadd .ieee x (flipSign x) = 0x0000000000000000#64 := by
  obtain ⟨s, m, e, h⟩ := isFinite_iff_datumOf.1 hf
  have hflip : datumOf (flipSign x) = .fin (!s) m e := by rw [datumOf_flipSign, h, negDatum]
  rw [fadd_of_datumOf h hflip, unitsOf_of_datumOf h, unitsOf_of_datumOf hflip, unitsOf_neg_datum, add_neg_cancel,
    Bool.and_not_self, roundInt, if_pos rfl, packSign_zero_eq]
  rfl

/-- Settles O10: the sums and differences of zeros are closed terms. -/
theorem signedZeroLaws : Obligations.SignedZeroLaws := by
  unfold Obligations.SignedZeroLaws
  refine ⟨fun x => fadd_flipSign, by decide, by decide, by decide, by decide, by decide, fun x hx hp hn => ?_,
    fun a b => fadd_eq_negZero⟩
  exact ⟨fadd_packSign_zero hx hp hn false, fadd_packSign_zero hx hp hn true⟩

/-! Complex products (R110). -/

theorem addDatum_comm (d d' : Datum) : addDatum d d' = addDatum d' d := by
  cases d <;> cases d' <;> simp only [addDatum]
  · next s t => by_cases h : s = t <;> simp [h, eq_comm]
  · rw [Bool.and_comm, add_comm]

theorem mulDatum_comm (d d' : Datum) : mulDatum d d' = mulDatum d' d := by
  cases d <;> cases d' <;> simp only [mulDatum]
  · next s t => rw [bne_comm]
  · next s t n f => rw [bne_comm]
  · next s m e t => rw [bne_comm]
  · next s m e t n f => rw [bne_comm, Nat.mul_comm]

/-- A default operation that is not a NaN does not depend on the order of its operands where its work on data does not. -/
theorem ieeeOp_comm {op : NumOp} (hop : ∀ d d', datumOp op d d' = datumOp op d' d) {a b : F64}
    (h : isNaN (ieeeOp op a b) = false) : ieeeOp op a b = ieeeOp op b a := by
  rw [ieeeOp_eq op b, hop (datumOf b), datumOp_eq_some h, Option.getD_some]

theorem isNaN_of_operand {op : NumOp} {a b : F64} (h : isNaN (ieeeOp op a b) = false) :
    isNaN a = false ∧ isNaN b = false := by
  rw [← Bool.not_eq_true, isNaN_ieeeOp_iff] at h
  simp only [← Bool.not_eq_true, isNaN_iff]
  refine ⟨fun ha => h ?_, fun hb => h ?_⟩
  · rw [ha]
    cases op <;> rfl
  · rw [hb]
    cases op <;> cases datumOf a <;> rfl

/-- Settles O11: the products and the sum in a part that is not a NaN are not NaNs either. -/
theorem complexOperations : Obligations.ComplexOperations := by
  unfold Obligations.ComplexOperations
  refine ⟨fun c a b => ⟨rfl, rfl, rfl⟩, fun v => rfl, fun a b => ⟨fun h => ?re, fun h => ?im⟩⟩
  case re =>
    obtain ⟨hre, him⟩ := isNaN_of_operand (op := .sub) h
    exact congrArg₂ (fsub .ieee) (ieeeOp_comm (op := .mul) mulDatum_comm hre) (ieeeOp_comm (op := .mul) mulDatum_comm him)
  case im =>
    obtain ⟨hri, hir⟩ := isNaN_of_operand (op := .add) h
    refine (ieeeOp_comm (op := .add) addDatum_comm h).trans ?_
    exact congrArg₂ (fadd .ieee) (ieeeOp_comm (op := .mul) mulDatum_comm hir) (ieeeOp_comm (op := .mul) mulDatum_comm hri)

end Sys2Proof.Machine
end

section
/-! PROOFS. The default twiddle-factor ROM for the tabulated sizes (`spec/41_fft_commands.md` rule R122). -/

namespace Sys2Proof.Machine

/-! The binary64 nearest to a real number. -/

/-- The number of units in 1. -/
noncomputable def unitScale : ℝ := 2 ^ 1074

theorem unitScale_pos : 0 < unitScale := pow_pos two_pos 1074

/-- No finite binary64 is nearer to the real number. -/
def NearestTo (w : F64) (x : ℝ) : Prop :=
  isFinite w = true ∧ ∀ c : F64, isFinite c = true → |(unitsOf w : ℝ) / unitScale - x| ≤ |(unitsOf c : ℝ) / unitScale - x|

/-- A magnitude whose middles lie on both sides of a number is nearest to it among the magnitudes. -/
theorem abs_magUnits_sub_le {r : Nat} {x : ℝ} (hlower : (twiceMiddle r : ℝ) ≤ 2 * x)
    (hupper : 2 * x ≤ (twiceMiddle (r + 1) : ℝ)) (m : Nat) :
    |(magUnits (r + 1) : ℝ) - x| ≤ |(magUnits m : ℝ) - x| := by
  simp only [twiceMiddle, Nat.cast_add] at hlower hupper
  have hmono {i j : Nat} (h : i ≤ j) : (magUnits i : ℝ) ≤ magUnits j := Nat.cast_le.2 (magUnits_strictMono.monotone h)
  have hself := hmono (Nat.le_add_right r 1)
  have hself' := hmono (Nat.le_add_right (r + 1) 1)
  obtain hm | rfl | hm := Nat.lt_trichotomy m (r + 1)
  · have hprev := hmono (Nat.le_of_lt_succ hm)
    refine le_trans ?_ (neg_le_abs _)
    exact abs_le.2 ⟨by linarith, by linarith⟩
  · exact le_rfl
  · have hnext := hmono hm
    refine le_trans ?_ (le_abs_self _)
    exact abs_le.2 ⟨by linarith, by linarith⟩

/-- The distance of a scaled number to a signed one, with the sign and the scale moved over. -/
theorem abs_div_sub_of_sign (neg : Bool) (u : ℤ) (x : ℝ) {p : ℝ} (hp : 0 < p) :
    |(u : ℝ) / p - signFactor neg * x| = |((signFactor neg * u : ℤ) : ℝ) - x * p| / p := by
  have hsplit : (u : ℝ) / p - signFactor neg * x = signFactor neg * ((((signFactor neg * u : ℤ) : ℝ) - x * p) / p) := by
    rw [sub_div, mul_div_assoc, div_self hp.ne', mul_one, mul_sub, Int.cast_mul, mul_div_assoc, ← mul_assoc,
      ← Int.cast_mul, signFactor_mul_self, Int.cast_one, one_mul]
  rw [hsplit, abs_mul, ← Int.cast_abs, abs_signFactor, Int.cast_one, one_mul, abs_div, abs_of_pos hp]

/-- The same among the finite numbers of both signs, for a number with a sign. -/
theorem nearestTo_of_middles {neg : Bool} {r : Nat} {x : ℝ} (hr : r + 1 < infMag)
    (hlower : (twiceMiddle r : ℝ) ≤ 2 * (x * unitScale)) (hupper : 2 * (x * unitScale) ≤ (twiceMiddle (r + 1) : ℝ)) :
    NearestTo (packSign neg (r + 1)) (signFactor neg * x) := by
  refine ⟨(unitsOf_packSign neg hr).1, fun c hc => ?_⟩
  rw [abs_div_sub_of_sign neg _ x unitScale_pos, abs_div_sub_of_sign neg _ x unitScale_pos,
    signFactor_mul_unitsOf_packSign neg hr]
  refine div_le_div_of_nonneg_right ?_ unitScale_pos.le
  have hnear := abs_magUnits_sub_le hlower hupper
  rw [Int.cast_natCast]
  by_cases hside : signFactor neg * unitsOf c = magUnits (magOf c)
  · rw [hside, Int.cast_natCast]
    exact hnear _
  · have hneg := (signFactor_mul_unitsOf hc neg).resolve_left hside
    have hx : 0 ≤ x * unitScale := by
      have := (Nat.cast_nonneg (α := ℝ) (twiceMiddle r)).trans hlower
      linarith
    have hm : (0 : ℝ) ≤ magUnits (magOf c) := Nat.cast_nonneg _
    have hzero := hnear 0
    rw [magUnits_zero, Nat.cast_zero, zero_sub, abs_neg, abs_of_nonneg hx] at hzero
    refine hzero.trans (le_trans ?_ (neg_le_abs _))
    rw [hneg]
    push_cast
    linarith

theorem two_mul_mul_two_pow (x : ℝ) (j : Nat) : 2 * (x * 2 ^ j) = x * 2 ^ (j + 1) := by
  rw [pow_succ]
  ring

/-- On a grid of 53-bit numbers the middles are half a step away: a bound on both sides of the number scaled to the grid. -/
theorem nearestTo_of_grid {neg : Bool} {g k q : Nat} {x : ℝ} (hk : g + k = 1075) (hlow : 2 ^ 52 < q)
    (hhigh : q < 2 ^ 53) (hlower : (2 * q - 1 : ℝ) ≤ x * 2 ^ k) (hupper : x * 2 ^ k ≤ (2 * q + 1 : ℝ)) :
    NearestTo (packSign neg (g * 2 ^ 52 + q)) (signFactor neg * x) := by
  obtain ⟨p, rfl⟩ : ∃ p, q = p + 1 := ⟨q - 1, by omega⟩
  have hprev : magUnits (g * 2 ^ 52 + p) = p * 2 ^ g := magUnits_of_grid (by omega) (by omega)
  have hself : magUnits (g * 2 ^ 52 + p + 1) = (p + 1) * 2 ^ g := by
    rw [Nat.add_assoc, magUnits_of_grid (q := p + 1) (by omega) (by omega)]
  have hnext : magUnits (g * 2 ^ 52 + p + 1 + 1) = (p + 1 + 1) * 2 ^ g := by
    rw [Nat.add_assoc, Nat.add_assoc, ← Nat.add_assoc p, magUnits_of_grid (q := p + 1 + 1) (by omega) (by omega)]
  have hscale : 2 * (x * unitScale) = x * 2 ^ k * 2 ^ g := by
    rw [unitScale, two_mul_mul_two_pow, show 1074 + 1 = k + g by omega, pow_add, mul_assoc]
  have hpow : (0 : ℝ) < 2 ^ g := pow_pos two_pos g
  rw [← Nat.add_assoc]
  refine nearestTo_of_middles (by simp only [infMag]; omega) ?_ ?_
  · rw [hscale, twiceMiddle, hprev, hself, ← Nat.add_mul]
    push_cast at hlower ⊢
    exact mul_le_mul_of_nonneg_right (by linarith) hpow.le
  · rw [hscale, twiceMiddle, hself, hnext, ← Nat.add_mul]
    push_cast at hupper ⊢
    exact mul_le_mul_of_nonneg_right (by linarith) hpow.le

theorem nearestTo_of_eq {w : F64} {x : ℝ} (hf : isFinite w = true) (h : (unitsOf w : ℝ) / unitScale = x) :
    NearestTo w x := ⟨hf, fun c _ => by rw [h, sub_self, abs_zero]; exact abs_nonneg _⟩

theorem nearestTo_zero : NearestTo 0x0000000000000000#64 0 :=
  nearestTo_of_eq (by decide) (by rw [show unitsOf 0x0000000000000000#64 = 0 from by decide]; simp)

theorem nearestTo_signed_one (neg : Bool) : NearestTo (packSign neg (1023 * 2 ^ 52)) (signFactor neg) := by
  have hval : magUnits (1022 * 2 ^ 52 + 2 ^ 52) = 2 ^ 52 * 2 ^ 1022 := magUnits_of_grid (by omega) (by omega)
  obtain ⟨hf, hu⟩ := unitsOf_packSign neg (show 1022 * 2 ^ 52 + 2 ^ 52 < infMag by decide)
  have hcast (i j : Nat) : ((2 ^ i * 2 ^ j : Nat) : ℝ) = 2 ^ (i + j) := by
    rw [Nat.cast_mul, Nat.cast_pow, Nat.cast_pow, Nat.cast_ofNat, pow_add]
  refine nearestTo_of_eq hf ?_
  rw [show 1023 * 2 ^ 52 = 1022 * 2 ^ 52 + 2 ^ 52 from rfl, hu, hval, Int.cast_mul, Int.cast_natCast, hcast, show 52 + 1022 = 1074 from rfl, ← unitScale, mul_div_assoc, div_self unitScale_pos.ne',
    mul_one]

/-! The sines and cosines of the eighths of a half turn. -/

/-- Bounds of √2 that are near enough for every entry. -/
theorem sqrt_two_bounds :
    (1414213562373095048801688724209 / 10 ^ 30 : ℝ) ≤ √2 ∧ √2 ≤ 1414213562373095048801688724210 / 10 ^ 30 :=
  ⟨Real.le_sqrt_of_sq_le (by norm_num), Real.sqrt_le_iff.2 ⟨by norm_num, by norm_num⟩⟩

theorem nearestTo_cos_pi_div_four (neg : Bool) :
    NearestTo (packSign neg (1021 * 2 ^ 52 + 0x16A09E667F3BCD)) (signFactor neg * Real.cos (Real.pi / 4)) := by
  obtain ⟨hlow, hhigh⟩ := sqrt_two_bounds
  rw [Real.cos_pi_div_four]
  refine nearestTo_of_grid (k := 54) rfl (by omega) (by omega) ?_ ?_ <;> norm_num <;> linarith

theorem nearestTo_cos_pi_div_eight (neg : Bool) :
    NearestTo (packSign neg (1021 * 2 ^ 52 + 0x1D906BCF328D46)) (signFactor neg * Real.cos (Real.pi / 8)) := by
  obtain ⟨hlow, hhigh⟩ := sqrt_two_bounds
  have hlower : (2 * 0x1D906BCF328D46 - 1 : ℝ) / 2 ^ 53 ≤ √(2 + √2) :=
    Real.le_sqrt_of_sq_le (le_trans (by norm_num) (add_le_add_right hlow 2))
  have hupper : √(2 + √2) ≤ (2 * 0x1D906BCF328D46 + 1 : ℝ) / 2 ^ 53 :=
    Real.sqrt_le_iff.2 ⟨by norm_num, (add_le_add_right hhigh 2).trans (by norm_num)⟩
  rw [Real.cos_pi_div_eight]
  refine nearestTo_of_grid (k := 54) rfl (by omega) (by omega) ?_ ?_ <;> norm_num at * <;> linarith

theorem nearestTo_sin_pi_div_eight (neg : Bool) :
    NearestTo (packSign neg (1020 * 2 ^ 52 + 0x187DE2A6AEA963)) (signFactor neg * Real.sin (Real.pi / 8)) := by
  obtain ⟨hlow, hhigh⟩ := sqrt_two_bounds
  have hlower : (2 * 0x187DE2A6AEA963 - 1 : ℝ) / 2 ^ 54 ≤ √(2 - √2) :=
    Real.le_sqrt_of_sq_le (le_trans (by norm_num) (sub_le_sub_left hhigh 2))
  have hupper : √(2 - √2) ≤ (2 * 0x187DE2A6AEA963 + 1 : ℝ) / 2 ^ 54 :=
    Real.sqrt_le_iff.2 ⟨by norm_num, (sub_le_sub_left hlow 2).trans (by norm_num)⟩
  rw [Real.sin_pi_div_eight]
  refine nearestTo_of_grid (k := 55) rfl (by omega) (by omega) ?_ ?_ <;> norm_num at * <;> linarith

/-! The entries (R122). -/

/-- The entries for the eighths of a half turn; a smaller ROM has every second, fourth or eighth of them. -/
def twEighths : List C64 :=
  [⟨0x3FF0000000000000#64, 0x0000000000000000#64⟩, ⟨0x3FED906BCF328D46#64, 0xBFD87DE2A6AEA963#64⟩,
    ⟨0x3FE6A09E667F3BCD#64, 0xBFE6A09E667F3BCD#64⟩, ⟨0x3FD87DE2A6AEA963#64, 0xBFED906BCF328D46#64⟩,
    ⟨0x0000000000000000#64, 0xBFF0000000000000#64⟩, ⟨0xBFD87DE2A6AEA963#64, 0xBFED906BCF328D46#64⟩,
    ⟨0xBFE6A09E667F3BCD#64, 0xBFE6A09E667F3BCD#64⟩, ⟨0xBFED906BCF328D46#64, 0xBFD87DE2A6AEA963#64⟩]

/-- The default ROM for LOG2N from 1 to 4, computed. -/
theorem defaultTw_getElem? :
    ∀ l ∈ [1, 2, 3, 4], ∀ t < 2 ^ (l - 1), (defaultTw l)[t]? = twEighths[t * 2 ^ (4 - l)]? := by decide +kernel

theorem defaultTw_length (l : Nat) : (defaultTw l).length = 2 ^ (l - 1) := by simp [defaultTw]

/-- An entry of the ROM is nearest to the cosine and to the negated sine of its angle. -/
def EntryNearest (w : C64) (angle : ℝ) : Prop := NearestTo w.re (Real.cos angle) ∧ NearestTo w.im (-Real.sin angle)

/-- The nearest pattern of a number is the nearest of a number equal to it, written in another way. -/
theorem NearestTo.of_eq {w w' : F64} {x y : ℝ} (h : NearestTo w x) (hw : w = w') (hxy : x = y) : NearestTo w' y :=
  hw ▸ hxy ▸ h

theorem entryNearest_eighths : ∀ j : Nat, j < 8 → ∃ w, twEighths[j]? = some w ∧ EntryNearest w (j * (Real.pi / 8)) := by
  intro j hj
  interval_cases j
  · refine ⟨_, rfl, (nearestTo_signed_one false).of_eq (by decide) ?_, nearestTo_zero.of_eq rfl ?_⟩
    · simp
    · simp
  · refine ⟨_, rfl, (nearestTo_cos_pi_div_eight false).of_eq (by decide) ?_,
      (nearestTo_sin_pi_div_eight true).of_eq (by decide) ?_⟩
    · simp
    · simp
  · have hangle : ((2 : ℕ) : ℝ) * (Real.pi / 8) = Real.pi / 4 := by push_cast; ring
    rw [hangle]
    refine ⟨_, rfl, (nearestTo_cos_pi_div_four false).of_eq (by decide) ?_,
      (nearestTo_cos_pi_div_four true).of_eq (by decide) ?_⟩
    · simp
    · rw [Real.sin_pi_div_four, Real.cos_pi_div_four]
      simp
  · have hangle : ((3 : ℕ) : ℝ) * (Real.pi / 8) = Real.pi / 2 - Real.pi / 8 := by push_cast; ring
    rw [hangle]
    refine ⟨_, rfl, (nearestTo_sin_pi_div_eight false).of_eq (by decide) ?_,
      (nearestTo_cos_pi_div_eight true).of_eq (by decide) ?_⟩
    · rw [Real.cos_pi_div_two_sub]
      simp
    · rw [Real.sin_pi_div_two_sub]
      simp
  · have hangle : ((4 : ℕ) : ℝ) * (Real.pi / 8) = Real.pi / 2 := by push_cast; ring
    rw [hangle]
    refine ⟨_, rfl, nearestTo_zero.of_eq rfl ?_, (nearestTo_signed_one true).of_eq (by decide) ?_⟩
    · simp
    · simp
  · have hangle : ((5 : ℕ) : ℝ) * (Real.pi / 8) = Real.pi / 8 + Real.pi / 2 := by push_cast; ring
    rw [hangle]
    refine ⟨_, rfl, (nearestTo_sin_pi_div_eight true).of_eq (by decide) ?_,
      (nearestTo_cos_pi_div_eight true).of_eq (by decide) ?_⟩
    · rw [Real.cos_add_pi_div_two]
      simp
    · rw [Real.sin_add_pi_div_two]
      simp
  · have hangle : ((6 : ℕ) : ℝ) * (Real.pi / 8) = Real.pi - Real.pi / 4 := by push_cast; ring
    rw [hangle]
    refine ⟨_, rfl, (nearestTo_cos_pi_div_four true).of_eq (by decide) ?_,
      (nearestTo_cos_pi_div_four true).of_eq (by decide) ?_⟩
    · rw [Real.cos_pi_sub]
      simp
    · rw [Real.sin_pi_sub, Real.sin_pi_div_four, Real.cos_pi_div_four]
      simp
  · have hangle : ((7 : ℕ) : ℝ) * (Real.pi / 8) = Real.pi - Real.pi / 8 := by push_cast; ring
    rw [hangle]
    refine ⟨_, rfl, (nearestTo_cos_pi_div_eight true).of_eq (by decide) ?_,
      (nearestTo_sin_pi_div_eight true).of_eq (by decide) ?_⟩
    · rw [Real.cos_pi_sub]
      simp
    · rw [Real.sin_pi_sub]
      simp

/-- Settles O23: every entry for LOG2N up to 4 is one of the eight. -/
theorem defaultTwiddlesNearest : Obligations.DefaultTwiddlesNearest := by
  unfold Obligations.DefaultTwiddlesNearest
  intro l hl
  have hl4 : 1 ≤ l ∧ l ≤ 4 := (by decide : ∀ i ∈ [1, 2, 3, 4], 1 ≤ i ∧ i ≤ 4) l hl
  refine ⟨defaultTw_length l, fun t ht => ?_⟩
  have hsplit : 2 ^ (l - 1) * 2 ^ (4 - l) = 8 := by
    rw [← Nat.pow_add, show l - 1 + (4 - l) = 3 by omega]
  have hidx : t * 2 ^ (4 - l) < 8 := hsplit ▸ Nat.mul_lt_mul_of_pos_right ht (Nat.two_pow_pos _)
  have hangle : ((t * 2 ^ (4 - l) : ℕ) : ℝ) * (Real.pi / 8) = 2 * Real.pi * t / 2 ^ l := by
    have hturn : (2 : ℝ) ^ (4 - l) * 2 ^ l = 16 := by
      rw [← pow_add, show 4 - l + l = 4 by omega]
      norm_num
    push_cast
    field_simp
    linear_combination (t : ℝ) * hturn
  obtain ⟨w, hw, ⟨hre, hnearRe⟩, him, hnearIm⟩ := entryNearest_eighths _ hidx
  rw [hangle] at hnearRe hnearIm
  refine ⟨w, (defaultTw_getElem? l hl t ht).trans hw, hre, him, fun c hc => ⟨hnearRe c hc, ?_⟩⟩
  have := hnearIm c hc
  rwa [sub_neg_eq_add, sub_neg_eq_add] at this

end Sys2Proof.Machine
end

section
/-! PROOFS. The transform (`spec/41_fft_commands.md` sections 3 and 5): the permutation, the stages and FFT.RUN as closed forms of the
cells before. -/

namespace Sys2Proof.Machine

/-! The twiddle index (R127). -/

theorem n_div_stage {c : Config} {e : Nat} (he : e < c.log2n) : c.n = c.n / (2 * 2 ^ e) * (2 * 2 ^ e) := by
  refine (Nat.div_mul_cancel ?_).symm
  rw [Config.n, ← Nat.pow_succ']
  exact pow_dvd_pow 2 he

theorem twidx_eq {c : Config} {e : Nat} (he : e < c.log2n) (m j : Nat) :
    twidx c.n (m + j) m (2 ^ e) = j * (c.n / (2 * 2 ^ e)) := by
  have hdvd : 2 ^ e * 2 ∣ c.n := ⟨c.n / (2 * 2 ^ e), (n_div_stage he).trans (by ring)⟩
  rw [twidx, Nat.add_sub_cancel_left, Nat.div_div_eq_div_mul, Nat.mul_div_assoc _ hdvd, Nat.mul_comm (2 ^ e)]

theorem twidx_lt_half {c : Config} {e j : Nat} (he : e < c.log2n) (hj : j < 2 ^ e) :
    j * (c.n / (2 * 2 ^ e)) < c.half := by
  have hpos : 0 < c.n / (2 * 2 ^ e) := by
    refine Nat.pos_of_ne_zero fun h0 => c.n_pos.ne' ?_
    rw [n_div_stage he, h0, Nat.zero_mul]
  have hlt := Nat.mul_lt_mul_of_pos_right hj hpos
  have hn : 2 * c.half = 2 * (2 ^ e * (c.n / (2 * 2 ^ e))) := by
    rw [c.two_mul_half]
    exact (n_div_stage he).trans (by ring)
  omega

/-- Settles O16: the division by 2k is exact for a power of two below N. -/
theorem twiddleIndexExact : Obligations.TwiddleIndexExact := by
  unfold Obligations.TwiddleIndexExact
  exact fun c e m j he hj => ⟨twidx_eq he m j, twidx_lt_half he hj, c.tw_length⟩

/-! Step 1, the permutation (R125). -/

/-- A swap of two cells that hold values, as the two writes it makes. -/
theorem swapReversed_eq_ok {c : Config} {i : Nat} {b : Store C64} {x y : C64} (hi : i < c.n)
    (hlt : i < bitrev c.log2n i) (hx : cellAt b i = some x) (hy : cellAt b (bitrev c.log2n i) = some y) :
    swapReversed c i b = .ok (setCell (setCell b i y) (bitrev c.log2n i) x) := by
  have hr : bitrev c.log2n i < c.n := bitrev_lt ..
  have hbi : readCell .buf c.n b i = .ok x := (readCell_eq_ok ..).2 ⟨hi, hx⟩
  have hbr : readCell .buf c.n b (bitrev c.log2n i) = .ok y := (readCell_eq_ok ..).2 ⟨hr, hy⟩
  simp only [swapReversed, if_pos hlt, hbi, hbr, writeCell, if_pos hi, if_pos hr]
  rfl

/-- A cell of BUF after the positions of step 1 below `count`, from BUF before the loop. -/
def permutedBelow (c : Config) (z : Nat → C64) (b : Store C64) (count i : Nat) : Option C64 :=
  if i < c.n ∧ (i < count ∨ bitrev c.log2n i < count) then some (z (bitrev c.log2n i)) else cellAt b i

section

variable {c : Config} {z : Nat → C64} {b y : Store C64} {k : Nat} (hb : Store.Holds b c.n z) (hk : k < c.n)
  (hy : ∀ i, cellAt y i = permutedBelow c z b k i)

theorem eq_bitrev_of_bitrev_eq {i : Nat} (hi : i < c.n) (h : bitrev c.log2n i = k) : i = bitrev c.log2n k := by
  rw [← h, bitrev_bitrev hi]

include hb hk

/-- A position that is not below its partner is done already: the pair was swapped, or it is a palindrome. -/
theorem permutedBelow_succ_of_ge (hge : bitrev c.log2n k ≤ k) (i : Nat) :
    permutedBelow c z b (k + 1) i = permutedBelow c z b k i := by
  by_cases hdone : i < c.n ∧ (i < k ∨ bitrev c.log2n i < k)
  · rw [permutedBelow, permutedBelow, if_pos hdone, if_pos ⟨hdone.1, by omega⟩]
  · rw [permutedBelow, permutedBelow, if_neg hdone]
    split
    · next hnew =>
      have hfix : i = k ∧ bitrev c.log2n i = k := by
        obtain ⟨hi, hor⟩ := hnew
        obtain rfl | h : i = k ∨ bitrev c.log2n i = k := by omega
        · omega
        · have := eq_bitrev_of_bitrev_eq hi h
          omega
      rw [hfix.2, hfix.1, hb k hk]
    · rfl

include hy

/-- A position below its partner swaps a pair that no position before it has touched. -/
theorem swapReversed_pass_of_lt (hlt : k < bitrev c.log2n k) :
    ∃ y', swapReversed c k y = .ok y' ∧ ∀ i, cellAt y' i = permutedBelow c z b (k + 1) i := by
  have hr : bitrev c.log2n k < c.n := bitrev_lt ..
  have hback : bitrev c.log2n (bitrev c.log2n k) = k := bitrev_bitrev hk
  have hyk : cellAt y k = some (z k) := by rw [hy, permutedBelow, if_neg (by omega), hb k hk]
  have hyr : cellAt y (bitrev c.log2n k) = some (z (bitrev c.log2n k)) := by
    rw [hy, permutedBelow, if_neg (by omega), hb _ hr]
  refine ⟨_, swapReversed_eq_ok hk hlt hyk hyr, fun i => ?_⟩
  rw [cellAt_setCell, cellAt_setCell, hy, permutedBelow, permutedBelow]
  by_cases hir : i = bitrev c.log2n k
  · rw [if_pos hir, hir, hback, if_pos ⟨hr, .inr (Nat.lt_succ_self k)⟩]
  · by_cases hik : i = k
    · rw [if_neg hir, if_pos hik, hik, if_pos ⟨hk, .inl (Nat.lt_succ_self k)⟩]
    · rw [if_neg hir, if_neg hik]
      refine if_congr (and_congr_right fun hi => ?_) rfl rfl
      have : bitrev c.log2n i ≠ k := fun h => hir (eq_bitrev_of_bitrev_eq hi h)
      omega

theorem swapReversed_pass :
    ∃ y', swapReversed c k y = .ok y' ∧ ∀ i, cellAt y' i = permutedBelow c z b (k + 1) i := by
  by_cases hlt : k < bitrev c.log2n k
  · exact swapReversed_pass_of_lt hb hk hy hlt
  · refine ⟨y, if_neg hlt, fun i => ?_⟩
    rw [hy, permutedBelow_succ_of_ge hb hk (by omega)]

end

/-- Step 1 completes and cell i is cell bitrev(i) before. -/
theorem permute_completes {c : Config} {b : Store C64} {z : Nat → C64} (hb : Store.Holds b c.n z) :
    ∃ b', permute c b = .ok b' ∧ Store.Holds b' c.n (fun i => z (bitrev c.log2n i)) ∧
      ∀ i ≥ c.n, cellAt b' i = cellAt b i := by
  obtain ⟨b', hok, hcells⟩ := forUp_completes (swapReversed c) (fun k y => ∀ i, cellAt y i = permutedBelow c z b k i)
    0 c.n b (fun i => (if_neg (by omega)).symm) fun k y _ hk hy => swapReversed_pass hb (by omega) hy
  refine ⟨b', hok, fun i hi => ?_, fun i hi => ?_⟩
  · rw [hcells, permutedBelow, if_pos ⟨hi, .inl (by omega)⟩]
  · rw [hcells, permutedBelow, if_neg (by omega)]

/-- Settles O15: the loop of guarded swaps moves every cell once. -/
theorem permutationMovesCells : Obligations.PermutationMovesCells := by
  unfold Obligations.PermutationMovesCells
  exact fun c b z hb => permute_completes hb

/-! Step 2, one stage (R126 to R128). -/

theorem twAt_eq {c : Config} {x : Nat} (hx : x < c.half) : c.tw[x]? = some (twAt c x) := by
  have hlen : x < c.tw.length := c.tw_length.symm ▸ hx
  rw [twAt, List.getElem?_eq_getElem hlen, Option.getD_some]

/-- The sum side of a pair. -/
theorem stageCell_sum (c : Config) {k j : Nat} (z : Nat → C64) (J : Nat) (hj : j < k) :
    stageCell c k z (J * (2 * k) + j) = cadd c.numerics (z (J * (2 * k) + j))
      (cmul c.numerics (twAt c (j * (c.n / (2 * k)))) (z (J * (2 * k) + j + k))) := by
  have hmod : (J * (2 * k) + j) % (2 * k) = j := by
    rw [Nat.add_comm, Nat.add_mul_mod_self_right, Nat.mod_eq_of_lt (by omega)]
  simp only [stageCell, hmod, Nat.mod_eq_of_lt hj, if_pos hj]

/-- The difference side of a pair. -/
theorem stageCell_difference (c : Config) {k j : Nat} (z : Nat → C64) (J : Nat) (hj : j < k) :
    stageCell c k z (J * (2 * k) + j + k) = csub c.numerics (z (J * (2 * k) + j))
      (cmul c.numerics (twAt c (j * (c.n / (2 * k)))) (z (J * (2 * k) + j + k))) := by
  have hmod : (J * (2 * k) + j + k) % (2 * k) = j + k := by
    rw [Nat.add_assoc, Nat.add_comm, Nat.add_mul_mod_self_right, Nat.mod_eq_of_lt (by omega)]
  have hhalf : (j + k) % k = j := by rw [Nat.add_mod_right, Nat.mod_eq_of_lt hj]
  simp only [stageCell, hmod, hhalf, if_neg (show ¬ j + k < k by omega), Nat.add_sub_cancel]

/-- A cell of BUF inside a stage, from BUF before it: the block with base index m has done its butterflies below index i. -/
def stagedBelow (c : Config) (k : Nat) (z : Nat → C64) (b : Store C64) (m i x : Nat) : Option C64 :=
  if x < i ∨ (m + k ≤ x ∧ x < i + k) then some (stageCell c k z x) else cellAt b x

/-- One butterfly of a block combines a pair that no butterfly before it has touched. -/
theorem butterfly_pass {c : Config} {e J j : Nat} {z : Nat → C64} {b y : Store C64} (he : e < c.log2n)
    (hb : Store.Holds b c.n z) (hJ : J < c.n / (2 * 2 ^ e)) (hj : j < 2 ^ e)
    (hy : ∀ x, cellAt y x = stagedBelow c (2 ^ e) z b (J * (2 * 2 ^ e)) (J * (2 * 2 ^ e) + j) x) :
    ∃ y', butterfly c (J * (2 * 2 ^ e) + j) (J * (2 * 2 ^ e) + j + 2 ^ e)
        (twidx c.n (J * (2 * 2 ^ e) + j) (J * (2 * 2 ^ e)) (2 ^ e)) y = .ok y' ∧
      ∀ x, cellAt y' x = stagedBelow c (2 ^ e) z b (J * (2 * 2 ^ e)) (J * (2 * 2 ^ e) + j + 1) x := by
  have hfit : J * (2 * 2 ^ e) + 2 * 2 ^ e ≤ c.n := by
    rw [n_div_stage he, ← Nat.succ_mul]
    exact Nat.mul_le_mul_right _ hJ
  have hsum := stageCell_sum c z J hj
  have hdiff := stageCell_difference c z J hj
  rw [twidx_eq he]
  have htw := twAt_eq (twidx_lt_half he hj)
  generalize J * (2 * 2 ^ e) = m at *
  generalize 2 ^ e = k at *
  have hp : cellAt y (m + j) = some (z (m + j)) := by rw [hy, stagedBelow, if_neg (by omega), hb _ (by omega)]
  have hq : cellAt y (m + j + k) = some (z (m + j + k)) := by
    rw [hy, stagedBelow, if_neg (by omega), hb _ (by omega)]
  obtain ⟨y', hok, hcells⟩ := butterflyWritesSumAndDifference c (m + j) (m + j + k) _ y _ _ _ (by omega) (by omega)
    (by omega) htw hp hq
  refine ⟨y', hok, fun x => ?_⟩
  rw [hcells, ← hsum, ← hdiff, hy, stagedBelow, stagedBelow]
  by_cases hxp : x = m + j
  · rw [if_pos hxp, hxp, if_pos (.inl (Nat.lt_succ_self _))]
  · by_cases hxq : x = m + j + k
    · rw [if_neg hxp, if_pos hxq, hxq, if_pos (.inr (by omega))]
    · rw [if_neg hxp, if_neg hxq]
      exact if_congr (by omega) rfl rfl

/-- A cell of BUF after the blocks of a stage below J. -/
def blocksBelow (c : Config) (k : Nat) (z : Nat → C64) (b : Store C64) (J x : Nat) : Option C64 :=
  if x < J * (2 * k) then some (stageCell c k z x) else cellAt b x

theorem block_pass {c : Config} {e J : Nat} {z : Nat → C64} {b y : Store C64} (he : e < c.log2n)
    (hb : Store.Holds b c.n z) (hJ : J < c.n / (2 * 2 ^ e)) (hy : ∀ x, cellAt y x = blocksBelow c (2 ^ e) z b J x) :
    ∃ y', block c (2 ^ e) (J * (2 * 2 ^ e)) y = .ok y' ∧ ∀ x, cellAt y' x = blocksBelow c (2 ^ e) z b (J + 1) x := by
  have hpos : 0 < 2 ^ e := Nat.two_pow_pos e
  obtain ⟨y', hok, hcells⟩ := forUp_completes
    (fun i => butterfly c i (i + 2 ^ e) (twidx c.n i (J * (2 * 2 ^ e)) (2 ^ e)))
    (fun i y => ∀ x, cellAt y x = stagedBelow c (2 ^ e) z b (J * (2 * 2 ^ e)) i x) (J * (2 * 2 ^ e)) (2 ^ e) y
    (fun x => by rw [hy, blocksBelow, stagedBelow]; exact if_congr (by omega) rfl rfl)
    fun i y' hlow hhigh hy' => by
      obtain ⟨j, rfl⟩ := Nat.exists_eq_add_of_le hlow
      exact butterfly_pass he hb hJ (by omega) hy'
  refine ⟨y', hok, fun x => ?_⟩
  rw [hcells, stagedBelow, blocksBelow, Nat.add_mul J 1, Nat.one_mul]
  exact if_congr (by omega) rfl rfl

/-- A stage completes, and every cell below N is its closed form. -/
theorem stage_completes {c : Config} {e : Nat} {b : Store C64} {z : Nat → C64} (he : e < c.log2n)
    (hb : Store.Holds b c.n z) :
    ∃ b', stage c (2 ^ e) b = .ok b' ∧ Store.Holds b' c.n (stageCell c (2 ^ e) z) ∧
      ∀ i ≥ c.n, cellAt b' i = cellAt b i := by
  obtain ⟨b', hok, hcells⟩ := forUp_completes (fun J => block c (2 ^ e) (J * (2 * 2 ^ e)))
    (fun J y => ∀ x, cellAt y x = blocksBelow c (2 ^ e) z b J x) 0 (c.n / (2 * 2 ^ e)) b
    (fun x => by rw [blocksBelow, if_neg (by omega)]) fun J y _ hJ hy => block_pass he hb (by omega) hy
  rw [Nat.zero_add] at hcells
  refine ⟨b', hok, fun i hi => ?_, fun i hi => ?_⟩
  · rw [hcells, blocksBelow, ← n_div_stage he, if_pos hi]
  · rw [hcells, blocksBelow, ← n_div_stage he, if_neg (by omega)]

/-- Settles O18: by the loops over the blocks and over the butterflies of a block. -/
theorem stageCombinesPairs : Obligations.StageCombinesPairs := by
  unfold Obligations.StageCombinesPairs
  exact fun c e b z he hb => stage_completes he hb

/-! The whole transform (R123). -/

theorem stagesCell_succ (c : Config) (j : Nat) (z : Nat → C64) :
    stagesCell c (List.range (j + 1)) z = stageCell c (2 ^ j) (stagesCell c (List.range j) z) := by
  rw [stagesCell, List.range_succ, List.foldl_append]
  rfl

/-- Step 2 completes, and every cell below N is the stages' closed form. -/
theorem stages_completes {c : Config} {b : Store C64} {z : Nat → C64} (hb : Store.Holds b c.n z) :
    ∃ b', stages c b = .ok b' ∧ Store.Holds b' c.n (stagesCell c (List.range c.log2n) z) ∧
      ∀ i ≥ c.n, cellAt b' i = cellAt b i := by
  obtain ⟨b', hok, hb'⟩ := forUp_completes (fun j => stage c (2 ^ j))
    (fun j y => Store.Holds y c.n (stagesCell c (List.range j) z) ∧ ∀ i ≥ c.n, cellAt y i = cellAt b i) 0 c.log2n b
    ⟨hb, fun _ _ => rfl⟩ fun j y _ hj ⟨hy, hframe⟩ => by
      obtain ⟨y', hok, hy', hframe'⟩ := stage_completes (e := j) (by omega) hy
      exact ⟨y', hok, stagesCell_succ c j z ▸ hy', fun i hi => (hframe' i hi).trans (hframe i hi)⟩
  rw [Nat.zero_add] at hb'
  exact ⟨b', hok, hb'⟩

/-- The transform completes, and every cell below N is the closed form of its three steps. -/
theorem transform_completes {c : Config} {b : Store C64} {z : Nat → C64} (hb : Store.Holds b c.n z) :
    ∃ b', transform c b = .ok b' ∧ Store.Holds b' c.n (transformCell c z) ∧ ∀ i ≥ c.n, cellAt b' i = cellAt b i := by
  obtain ⟨b1, h1, hb1, hframe1⟩ := permute_completes hb
  obtain ⟨b2, h2, hb2, hframe2⟩ := stages_completes hb1
  obtain ⟨b3, h3, hb3⟩ := normalise_completes hb2
  refine ⟨b3, ?_, fun i hi => ?_, fun i hi => ?_⟩
  · rw [transform, h1]
    exact (congrArg (fun r => Except.bind r (normalise c)) h2).trans h3
  · rw [hb3, if_pos hi]
    rfl
  · rw [hb3, if_neg (by omega), hframe2 i hi, hframe1 i hi]

/-- Settles O20: by the closed form of the three steps. -/
theorem fftRunComputesTransform : Obligations.FftRunComputesTransform := by
  unfold Obligations.FftRunComputesTransform
  refine fun s => ⟨fun hfv => execFftRun_next.2 (.inr ⟨hfv, rfl⟩), fun hfv z hz => ?_⟩
  obtain ⟨b, hok, hb, hframe⟩ := transform_completes hz
  exact ⟨b, execFftRun_next.2 (.inl ⟨hfv, b, hok, rfl⟩), hb, hframe⟩

/-! A zero signal (R136). -/

/-- The complex +0.0. -/
def zeroC : C64 := ⟨0x0000000000000000#64, 0x0000000000000000#64⟩

theorem fadd_zeros (s t : Bool) : fadd .ieee (packSign s 0) (packSign t 0) = packSign (s && t) 0 := by
  cases s <;> cases t <;> decide

theorem fsub_zeros (s t : Bool) : fsub .ieee (packSign s 0) (packSign t 0) = packSign (s && !t) 0 := by
  cases s <;> cases t <;> decide

theorem roundMag_zero (sh : Nat) : roundMag 0 sh = 0 := by simpa using roundMag_exact sh (show 0 < infMag by decide)

theorem magOf_packSign_zero (neg : Bool) : magOf (packSign neg 0) = 0 := magOf_packSign neg (Nat.two_pow_pos _)

/-- A product of a finite number with +0.0 is a zero of some sign. -/
theorem fmul_plusZero {w : F64} (hw : isFinite w = true) : ∃ neg, fmul .ieee w (packSign false 0) = packSign neg 0 := by
  refine ⟨w.msb != (packSign false 0).msb, ?_⟩
  rw [fmul_of_finite hw (unitsOf_packSign_zero false).1, magOf_packSign_zero, magUnits_zero, Nat.mul_zero, roundMag_zero]

theorem packSign_false_zero : packSign false 0 = 0x0000000000000000#64 := packSign_zero_eq false

/-- A butterfly of two cells that are +0.0 writes +0.0 to both, whatever the signs of the zeros that its products are. -/
theorem butterfly_zeroC {w : C64} (hre : isFinite w.re = true) (him : isFinite w.im = true) :
    cadd .ieee zeroC (cmul .ieee w zeroC) = zeroC ∧ csub .ieee zeroC (cmul .ieee w zeroC) = zeroC := by
  obtain ⟨s, hs⟩ := fmul_plusZero hre
  obtain ⟨t, ht⟩ := fmul_plusZero him
  simp only [cadd, csub, cmul, zeroC, ← packSign_false_zero, hs, ht, fadd_zeros, fsub_zeros, Bool.false_and, and_self]

theorem stageCell_zeroC {c : Config} (hc : c.numerics = .ieee)
    (htw : ∀ w ∈ c.tw, isFinite w.re = true ∧ isFinite w.im = true) (k : Nat) :
    stageCell c k (fun _ => zeroC) = fun _ => zeroC := by
  funext i
  have hfin (x : Nat) : isFinite (twAt c x).re = true ∧ isFinite (twAt c x).im = true := by
    rw [twAt]
    cases h : c.tw[x]? with
    | none => decide
    | some w => exact htw w (List.mem_of_getElem? h)
  simp only [stageCell, hc]
  obtain ⟨hre, him⟩ := hfin (i % (2 * k) % k * (c.n / (2 * k)))
  obtain ⟨hadd, hsub⟩ := butterfly_zeroC hre him
  rw [hadd, hsub, ite_self]

theorem stagesCell_zeroC {c : Config} (hc : c.numerics = .ieee)
    (htw : ∀ w ∈ c.tw, isFinite w.re = true ∧ isFinite w.im = true) (j : Nat) :
    stagesCell c (List.range j) (fun _ => zeroC) = fun _ => zeroC := by
  induction j with
  | zero => rfl
  | succ j ih => rw [stagesCell_succ, ih, stageCell_zeroC hc htw]

/-- +0.0 divided by a power of two is +0.0. -/
theorem cdivReal_zeroC {e : Nat} (he : e < 1024) : cdivReal .ieee zeroC (toF64 (2 ^ e)) = zeroC := by
  have hlt : (e + 1023) * 2 ^ 52 < 2 ^ 63 := by omega
  have hdiv : fdiv .ieee (packSign false 0) (toF64 (2 ^ e)) = packSign false 0 := by
    rw [fdiv_of_finite (unitsOf_packSign_zero false).1 (isFinite_toF64_two_pow e he), toF64_two_pow e he,
      packSign_msb _ hlt, packSign_msb _ (Nat.two_pow_pos _), magOf_packSign_zero, magUnits_zero, divMag, Nat.zero_mul,
      Nat.zero_div, Nat.zero_mod, if_pos rfl, Nat.mul_zero, roundMag_zero]
    · rfl
    · rw [toF64_two_pow e he, magOf_packSign _ hlt]
      omega
  rw [packSign_false_zero] at hdiv
  rw [cdivReal, zeroC, hdiv]

theorem transformCell_zeroC {c : Config} (hc : c.numerics = .ieee)
    (htw : ∀ w ∈ c.tw, isFinite w.re = true ∧ isFinite w.im = true) (i : Nat) :
    transformCell c (fun _ => zeroC) i = zeroC := by
  have hhalf : cdivReal .ieee zeroC (toF64 c.half) = zeroC := cdivReal_zeroC (by have := c.legal.1.2; omega)
  have htwo : cdivReal .ieee zeroC two64 = zeroC := two64_eq_toF64 ▸ cdivReal_zeroC (by decide)
  rw [transformCell, stagesCell_zeroC hc htw, normalCell, hc, hhalf, htwo, ite_self]

/-- Settles O22: the closed form of FFT.RUN at zero. -/
theorem zeroSignalZeroSpectrum : Obligations.ZeroSignalZeroSpectrum := by
  unfold Obligations.ZeroSignalZeroSpectrum
  intro s hc htw hfv hz
  obtain ⟨-, hrun⟩ := fftRunComputesTransform s
  obtain ⟨b, hok, hb, -⟩ := hrun hfv (fun _ => zeroC) hz
  exact ⟨b, hok, fun i hi => (hb i hi).trans (congrArg some (transformCell_zeroC hc htw i))⟩

end Sys2Proof.Machine
end

section
/-! PROOFS. The FIR unit's results (`spec/42_fir_commands.md` sections 2 to 6): both modes as sums, empty operands, the impulse, and
no −0.0 in a result. -/

namespace Sys2Proof.Machine

/-! Work in sequence, and loops over an accumulator. -/

/-- Two pieces of work one after the other answer exactly when both do. -/
theorem bind_eq_ok {α β : Type} {x : Except Fault α} {f : α → Except Fault β} {b : β} :
    (x >>= f) = .ok b ↔ ∃ a, x = .ok a ∧ f a = .ok b := by
  cases x <;> simp [bind, Except.bind]

/-- Two loops whose passes agree answer the same. -/
theorem forUp_congr {σ : Type} {f g : Nat → σ → Except Fault σ} {a count : Nat} (x : σ)
    (h : ∀ i, a ≤ i → i < a + count → ∀ y, f i y = g i y) : forUp f a count x = forUp g a count x := by
  induction count generalizing a x with
  | zero => rfl
  | succ n ih =>
    rw [forUp, forUp, h a le_rfl (by omega)]
    cases g a x with
    | ok y => exact ih y fun i h1 h2 => h i (by omega) (by omega)
    | error f => rfl

/-- A loop whose passes all answer is a fold over its indices. -/
theorem forUp_eq_foldl {σ : Type} {body : Nat → σ → Except Fault σ} {f : σ → Nat → σ} {a count : Nat} (x : σ)
    (h : ∀ i, a ≤ i → i < a + count → ∀ y, body i y = .ok (f y i)) :
    forUp body a count x = .ok ((List.range' a count).foldl f x) := by
  induction count generalizing a x with
  | zero => rfl
  | succ n ih =>
    rw [forUp, h a le_rfl (by omega), List.range'_succ, List.foldl_cons]
    exact ih (f x a) fun i h1 h2 => h i (by omega) (by omega)

/-- The numbers below L from a on and below b, in order. -/
theorem filter_range_eq_range' (L a b : Nat) :
    (List.range L).filter (fun i => decide (a ≤ i ∧ i < b)) = List.range' a (min b L - a) := by
  induction L with
  | zero => simp
  | succ L ih =>
    rw [List.range_succ, List.filter_append, ih]
    by_cases h : a ≤ L ∧ L < b
    · obtain ⟨k, rfl⟩ := Nat.exists_eq_add_of_le h.1
      rw [List.filter_singleton, decide_eq_true h, show min b (a + k) - a = k by omega,
        show min b (a + k + 1) - a = k + 1 by omega, List.range'_concat, Nat.one_mul]
      rfl
    · rw [List.filter_singleton, decide_eq_false h, show min b (L + 1) - a = min b L - a by omega]
      simp

/-! Storing the elements of a result. -/

/-- Where every element answers and the result fits OUT, ACC holds the last element and OUT holds them all. -/
theorem applyKernel_completes {s : State} {element : Nat → Except Fault F64} {m : Nat} {y : Nat → F64}
    (hm : m ≤ s.cfg.ymax) (hy : ∀ n < m, element n = .ok (y n)) :
    ∃ o, applyKernel s element m = .ok (if m = 0 then s.acc else y (m - 1), o) ∧ Store.Holds o m y ∧
      ∀ n ≥ m, cellAt o n = cellAt s.out n := by
  obtain ⟨⟨acc, o⟩, hok, hacc, hcells⟩ := forUp_completes (storeElement s element)
    (fun n x => x.1 = (if n = 0 then s.acc else y (n - 1)) ∧
      ∀ i, cellAt x.2 i = if i < n then some (y i) else cellAt s.out i) 0 m (s.acc, s.out)
    ⟨rfl, fun i => (if_neg i.not_lt_zero).symm⟩ fun n x _ hn ⟨_, hx⟩ => by
      refine ⟨(y n, setCell x.2 n (y n)), ?_, ?_, fun i => ?_⟩
      · have hwrite : writeCell .out s.cfg.ymax x.2 n (y n) = .ok (setCell x.2 n (y n)) :=
          (writeCell_eq_ok ..).2 ⟨by omega, rfl⟩
        exact bind_eq_ok.2 ⟨_, hy n (by omega), bind_eq_ok.2 ⟨_, hwrite, rfl⟩⟩
      · simp
      · rw [cellAt_setCell, hx]
        by_cases hi : i = n
        · rw [if_pos hi, hi, if_pos (Nat.lt_succ_self n)]
        · rw [if_neg hi]
          exact if_congr (by omega) rfl rfl
  rw [Nat.zero_add] at hacc hcells
  exact ⟨o, hacc ▸ hok, fun i hi => by rw [hcells, if_pos hi], fun i hi => by rw [hcells, if_neg (by omega)]⟩

/-- What storing an element did where it answers. -/
theorem storeElement_eq_ok {s : State} {element : Nat → Except Fault F64} {n : Nat} {x x' : F64 × Store F64}
    (h : storeElement s element n x = .ok x') :
    element n = .ok x'.1 ∧ n < s.cfg.ymax ∧ x'.2 = setCell x.2 n x'.1 := by
  obtain ⟨v, he, h'⟩ := bind_eq_ok.1 h
  obtain ⟨o, hw, hpure⟩ := bind_eq_ok.1 h'
  obtain rfl := Except.ok.inj hpure
  exact ⟨he, (writeCell_eq_ok ..).1 hw⟩

/-- Every element of a result that was stored is what its computation answered. -/
theorem applyKernel_cells {s : State} {element : Nat → Except Fault F64} {m : Nat} {r : F64 × Store F64}
    (h : applyKernel s element m = .ok r) : ∀ n < m, ∃ v, element n = .ok v ∧ cellAt r.2 n = some v := by
  have hkeep := forUp_keeps (storeElement s element)
    (fun k x => ∀ n < k, ∃ v, element n = .ok v ∧ cellAt x.2 n = some v) 0 m (s.acc, s.out) r
    (fun n hn => absurd hn n.not_lt_zero) (fun k x x' _ _ hx hok n hn => by
      obtain ⟨he, -, hout⟩ := storeElement_eq_ok hok
      rw [hout, cellAt_setCell]
      by_cases hnk : n = k
      · exact ⟨x'.1, hnk ▸ he, if_pos hnk⟩
      · rw [if_neg hnk]
        exact hx n (by omega)) h
  rwa [Nat.zero_add] at hkeep

/-! The elements as sums (R156 to R159, R161). -/

/-- One step of FIR.CONV on cells that hold values. -/
theorem convStep_eq_ok {s : State} {n i : Nat} {x h : F64} (hi : i < s.cfg.lmax) (hn : n - i < s.cfg.kmax)
    (hx : cellAt s.sig i = some x) (hh : cellAt s.ker (n - i) = some h) (acc : F64) :
    convStep s n i acc = .ok (macStep s.cfg.numerics acc x h) := by
  have hrx : readCell .sig s.cfg.lmax s.sig i = .ok x := (readCell_eq_ok ..).2 ⟨hi, hx⟩
  have hrh : readCell .ker s.cfg.kmax s.ker (n - i) = .ok h := (readCell_eq_ok ..).2 ⟨hn, hh⟩
  exact bind_eq_ok.2 ⟨x, hrx, bind_eq_ok.2 ⟨h, hrh, rfl⟩⟩

/-- One step of FIR.FILT on cells that hold values. -/
theorem filtStep_eq_ok {s : State} {y b : Nat} {x h : F64} (hb : b < s.cfg.kmax) (hy : y - b < s.cfg.lmax)
    (hh : cellAt s.ker b = some h) (hx : cellAt s.sig (y - b) = some x) (acc : F64) :
    filtStep s y b acc = .ok (macStep s.cfg.numerics acc h x) := by
  have hrh : readCell .ker s.cfg.kmax s.ker b = .ok h := (readCell_eq_ok ..).2 ⟨hb, hh⟩
  have hrx : readCell .sig s.cfg.lmax s.sig (y - b) = .ok x := (readCell_eq_ok ..).2 ⟨hy, hx⟩
  exact bind_eq_ok.2 ⟨h, hrh, bind_eq_ok.2 ⟨x, hrx, rfl⟩⟩

section

variable {s : State} {x h : Nat → F64} (hk : s.klen ≤ s.cfg.kmax) (hl : s.xlen ≤ s.cfg.lmax)
  (hx : Store.Holds s.sig s.xlen x) (hh : Store.Holds s.ker s.klen h)

include hk hl hx hh

/-- An element of the full convolution is the sum over all valid signal indices. -/
theorem convElement_eq_ok (n : Nat) :
    convElement s n = .ok (macSum s.cfg.numerics x (fun i => h (n - i))
      ((List.range s.xlen).filter fun i => decide (i ≤ n ∧ n - i < s.klen))) := by
  have hvalid : (fun i => decide (i ≤ n ∧ n - i < s.klen)) = fun i => decide (n + 1 - s.klen ≤ i ∧ i < n + 1) := by
    funext i
    exact decide_eq_decide.2 (by omega)
  rw [hvalid, filter_range_eq_range', convElement, macSum]
  refine forUp_eq_foldl plusZero fun i hlow hhigh acc => ?_
  have hbounds : i < s.xlen ∧ i ≤ n ∧ n - i < s.klen := by
    rw [convFirst] at hlow hhigh
    rw [convCount, convFirst] at hhigh
    omega
  obtain ⟨hi, -, hn⟩ := hbounds
  exact convStep_eq_ok (hi.trans_le hl) (hn.trans_le hk) (hx i hi) (hh _ hn) acc

/-- An element of the causal filter is the sum over exactly the taps short of its own index. -/
theorem filtElement_eq_ok {n : Nat} (hn : n < s.xlen) :
    filtElement s n = .ok (macSum s.cfg.numerics h (fun b => x (n - b))
      ((List.range s.klen).filter fun b => decide (0 < (n : Int) - (b : Int)))) := by
  have hvalid : (fun b : Nat => decide (0 < (n : Int) - (b : Int))) = fun b => decide (0 ≤ b ∧ b < n) := by
    funext b
    exact decide_eq_decide.2 (by omega)
  rw [hvalid, filter_range_eq_range', filtElement, macSum, Nat.min_comm, Nat.sub_zero]
  refine forUp_eq_foldl plusZero fun b _ hhigh acc => ?_
  exact filtStep_eq_ok (by omega) (by omega) (hh b (by omega)) (hx _ (by omega)) acc

end

/-- Settles O26: every element is a sum, and they are stored in order. -/
theorem firConvComputesConvolution : Obligations.FirConvComputesConvolution := by
  unfold Obligations.FirConvComputesConvolution
  refine fun s => ⟨fun hnull => execFirConv_next.2 (.inr (.inr ⟨hnull, rfl⟩)),
    fun hkv hxv h0 => execFirConv_next.2 (.inr (.inl ⟨hkv, hxv, h0, rfl⟩)), ?_⟩
  intro hkv hxv hne hk hl x h hx hh m y
  obtain ⟨o, hok, hcells, hframe⟩ := applyKernel_completes (element := convElement s) (y := y)
    (s.cfg.conv_length_le_ymax hk hl) fun n _ => convElement_eq_ok hk hl hx hh n
  exact ⟨o, execFirConv_next.2 (.inl ⟨hkv, hxv, by omega, _, hok, rfl⟩), hcells, hframe⟩

/-- Settles O27: every element is a sum, and they are stored in order. -/
theorem firFiltComputesCausalFilter : Obligations.FirFiltComputesCausalFilter := by
  unfold Obligations.FirFiltComputesCausalFilter
  refine fun s => ⟨fun hnull => execFirFilt_next.2 (.inr ⟨hnull, rfl⟩), ?_⟩
  intro hkv hxv hk hl x h hx hh y
  obtain ⟨o, hok, hcells, hframe⟩ := applyKernel_completes (element := filtElement s) (y := y)
    (hl.trans s.cfg.lmax_le_ymax) fun n hn => filtElement_eq_ok hk hl hx hh hn
  exact ⟨o, execFirFilt_next.2 (.inl ⟨hkv, hxv, _, hok, rfl⟩), hcells, hframe⟩

/-! The strict boundary (R159). -/

theorem readCell_setCell_of_ne {α : Type} {name : StoreName} {size i j : Nat} {st : Store α} {v : α} (h : i ≠ j) :
    readCell name size (setCell st j v) i = readCell name size st i := by
  rw [readCell, readCell, cellAt_setCell, if_neg h]

/-- No element of the causal filter reads cell 0 of SIG. -/
theorem filtElement_setCell_zero (s : State) (v : F64) :
    filtElement { s with sig := setCell s.sig 0 v } = filtElement s := by
  funext n
  refine forUp_congr plusZero fun b _ hb acc => ?_
  have hread : readCell .sig s.cfg.lmax (setCell s.sig 0 v) (n - b) = readCell .sig s.cfg.lmax s.sig (n - b) :=
    readCell_setCell_of_ne (by omega)
  simp only [filtStep, hread]

theorem filtElement_zero (s : State) : filtElement s 0 = .ok plusZero := by
  rw [filtElement, Nat.min_zero]
  rfl

/-- Settles O28: the elements are the same, and element 0 has no tap. -/
theorem filtNeverReadsFirstSample : Obligations.FiltNeverReadsFirstSample := by
  unfold Obligations.FiltNeverReadsFirstSample
  intro s t v h
  obtain ⟨hkv, hxv, r, hr, rfl⟩ | ⟨hnull, rfl⟩ := execFirFilt_next.1 h
  · have hr' : applyKernel { s with sig := setCell s.sig 0 v } (filtElement { s with sig := setCell s.sig 0 v })
        s.xlen = .ok r := by
      rw [filtElement_setCell_zero]
      exact hr
    refine ⟨execFirFilt_next.2 (.inl ⟨hkv, hxv, r, hr', rfl⟩), fun _ _ hx => ?_⟩
    obtain ⟨w, he, hw⟩ := applyKernel_cells hr 0 hx
    rw [filtElement_zero] at he
    exact hw.trans (congrArg some (Except.ok.inj he).symm)
  · refine ⟨execFirFilt_next.2 (.inr ⟨hnull, rfl⟩), fun hkv hxv _ => ?_⟩
    simp [hkv, hxv] at hnull

/-! Empty operands (R162). -/

theorem convElement_of_empty {s : State} (h : s.klen = 0 ∨ s.xlen = 0) (n : Nat) : convElement s n = .ok plusZero := by
  have hcount : convCount s.klen s.xlen n = 0 := by
    rw [convCount, convFirst]
    omega
  rw [convElement, hcount]
  rfl

theorem filtElement_of_empty {s : State} (h : s.klen = 0) (n : Nat) : filtElement s n = .ok plusZero := by
  rw [filtElement, h, Nat.zero_min]
  rfl

/-- Settles O30: an element with no valid index is the sum of nothing. -/
theorem emptyOperands : Obligations.EmptyOperands := by
  unfold Obligations.EmptyOperands
  intro s
  refine ⟨execFirSetk_next.2 (.inl ⟨Nat.zero_le _, loadFirSetk_next.2 (.inl ⟨Nat.zero_le _, s.ker, rfl, rfl⟩)⟩),
    execFirSetx_next.2 (.inl ⟨Nat.zero_le _, loadFirSetx_next.2 (.inl ⟨Nat.zero_le _, s.sig, rfl, rfl⟩)⟩), ?_⟩
  intro hkv hxv hk hl
  refine ⟨fun hk0 hx0 => ?bothEmpty, fun hempty hne => ?convolution, fun hk0 => ?noTaps, fun hx0 => ?noSamples⟩
  case bothEmpty => exact execFirConv_next.2 (.inr (.inl ⟨hkv, hxv, by omega, rfl⟩))
  case convolution =>
    obtain ⟨o, hok, hcells, -⟩ := applyKernel_completes (element := convElement s) (y := fun _ => plusZero)
      (s.cfg.conv_length_le_ymax hk hl) fun n _ => convElement_of_empty hempty n
    rw [Nat.add_comm s.klen]
    exact ⟨o, _, execFirConv_next.2 (.inl ⟨hkv, hxv, by omega, _, hok, rfl⟩), hcells⟩
  case noTaps =>
    obtain ⟨o, hok, hcells, -⟩ := applyKernel_completes (element := filtElement s) (y := fun _ => plusZero)
      (hl.trans s.cfg.lmax_le_ymax) fun n _ => filtElement_of_empty hk0 n
    exact ⟨o, _, execFirFilt_next.2 (.inl ⟨hkv, hxv, _, hok, rfl⟩), hcells⟩
  case noSamples =>
    have hok : applyKernel s (filtElement s) s.xlen = .ok (s.acc, s.out) := by
      rw [hx0]
      rfl
    exact execFirFilt_next.2 (.inl ⟨hkv, hxv, _, hok, by rw [storeResult, hx0]⟩)

/-! The impulse (R164). -/

/-- 1.0 -/
def one64 : F64 := 0x3FF0000000000000#64

theorem magUnits_one64 : magUnits (magOf one64) = 2 ^ 1074 := by
  rw [show magOf one64 = 1022 * 2 ^ 52 + 2 ^ 52 from by decide, magUnits_of_grid (by omega) (by omega),
    show (1074 : Nat) = 52 + 1022 from rfl, Nat.pow_add 2 52 1022]

/-- 1.0 times a number that is not a NaN is that number. -/
theorem fmul_one64 {w : F64} (hw : isNaN w = false) : fmul .ieee one64 w = w := by
  have hone : isFinite one64 = true := by decide
  obtain hlt | heq | hgt := Nat.lt_trichotomy (magOf w) infMag
  · rw [fmul_of_finite hone (isFinite_iff.2 hlt), magUnits_one64, Nat.mul_comm, roundMag_exact 1074 hlt,
      show one64.msb = false from by decide, Bool.false_bne, packSign_magOf]
  · have hd : datumOf w = .inf w.msb := datumOf_of_eq heq
    have hdone : datumOf one64 = .fin false (2 ^ 52) 1022 := by decide
    have hmul : mulDatum (datumOf one64) (datumOf w) = some w := by
      rw [hdone, hd, mulDatum, if_neg (by decide), Bool.false_bne, ← datumOf_eq_inf_iff.1 hd]
    exact (ieeeOp_eq .mul one64 w).trans (by rw [datumOp, hmul, Option.getD_some])
  · simp [isNaN_iff.2 (datumOf_of_gt hgt)] at hw

theorem fadd_comm_of_not_nan {a b : F64} (h : isNaN (fadd .ieee a b) = false) : fadd .ieee a b = fadd .ieee b a :=
  ieeeOp_comm (op := .add) addDatum_comm h

/-- +0.0 plus a number that is not a NaN is that number, but for −0.0. -/
theorem plusZero_fadd {w : F64} (hw : isNaN w = false) :
    fadd .ieee plusZero w = if w = 0x8000000000000000#64 then 0x0000000000000000#64 else w := by
  by_cases hneg : w = 0x8000000000000000#64
  · subst hneg
    decide
  · rw [if_neg hneg]
    by_cases hpos : w = 0x0000000000000000#64
    · subst hpos
      decide
    · have hadd : fadd .ieee w plusZero = w := fadd_packSign_zero hw hpos hneg false
      rw [← fadd_comm_of_not_nan (hadd.symm ▸ hw), hadd]

theorem isNaN_ieeeOp_of_right {op : NumOp} {a b : F64} (hb : isNaN b = true) : isNaN (ieeeOp op a b) = true := by
  by_contra h
  have := (isNaN_of_operand (by simpa using h)).2
  simp [hb] at this

/-- Settles O31: every element is +0.0 plus 1.0 times its tap. -/
theorem impulseReproducesKernel : Obligations.ImpulseReproducesKernel := by
  unfold Obligations.ImpulseReproducesKernel
  intro s h hnum hkv hxv hxlen hone hk hh
  have hx : Store.Holds s.sig s.xlen fun _ => one64 := fun i hi => by
    obtain rfl : i = 0 := by omega
    exact hone
  have hl : s.xlen ≤ s.cfg.lmax := hxlen ▸ s.cfg.legal.2.2.1.1
  obtain ⟨o, hrun, hcells, -⟩ := (firConvComputesConvolution s).2.2 hkv hxv (by omega) hk hl _ h hx hh
  rw [show s.xlen + s.klen - 1 = s.klen by omega] at hrun hcells
  refine ⟨o, _, hrun, fun n hn => ?_⟩
  have hindices : (List.range s.xlen).filter (fun i => decide (i ≤ n ∧ n - i < s.klen)) = [0] := by
    rw [hxlen]
    simp [List.range_succ, hn]
  have hy := hcells n hn
  simp only [hindices, macSum, List.foldl_cons, List.foldl_nil, hnum, Nat.sub_zero] at hy
  refine ⟨_, hy, fun hnan => ?_, fun hnot => ?_⟩
  · exact isNaN_ieeeOp_of_right (op := .add) (isNaN_ieeeOp_of_right (op := .mul) hnan)
  · rw [fmul_one64 hnot, plusZero_fadd hnot]

/-! No −0.0 in a result (R107). -/

/-- A pass of either mode adds something to the accumulator. -/
theorem convStep_adds {s : State} {n i : Nat} {acc v : F64} (h : convStep s n i acc = .ok v) :
    ∃ p, v = fadd s.cfg.numerics acc p := by
  obtain ⟨x, -, h'⟩ := bind_eq_ok.1 h
  obtain ⟨k, -, hpure⟩ := bind_eq_ok.1 h'
  exact ⟨_, (Except.ok.inj hpure).symm⟩

theorem filtStep_adds {s : State} {y b : Nat} {acc v : F64} (h : filtStep s y b acc = .ok v) :
    ∃ p, v = fadd s.cfg.numerics acc p := by
  obtain ⟨k, -, h'⟩ := bind_eq_ok.1 h
  obtain ⟨x, -, hpure⟩ := bind_eq_ok.1 h'
  exact ⟨_, (Except.ok.inj hpure).symm⟩

/-- A sum that starts at +0.0 never becomes −0.0, since a sum is −0.0 only when both its operands are. -/
theorem forUp_ne_negZero {body : Nat → F64 → Except Fault F64} {a count : Nat} {v : F64}
    (hbody : ∀ i acc w, body i acc = .ok w → ∃ p, w = fadd .ieee acc p) (h : forUp body a count plusZero = .ok v) :
    v ≠ 0x8000000000000000#64 := by
  refine forUp_keeps body (fun _ w => w ≠ 0x8000000000000000#64) a count plusZero v (by decide)
    (fun i acc w _ _ hacc hw => ?_) h
  obtain ⟨p, rfl⟩ := hbody i acc w hw
  exact fun hzero => hacc (fadd_eq_negZero hzero).1

theorem element_ne_negZero {s : State} {element : Nat → Except Fault F64} (hnum : s.cfg.numerics = .ieee)
    (he : element = convElement s ∨ element = filtElement s) {n : Nat} {v : F64} (h : element n = .ok v) :
    v ≠ 0x8000000000000000#64 := by
  obtain rfl | rfl := he
  · exact forUp_ne_negZero (fun _ _ _ hw => hnum ▸ convStep_adds hw) h
  · exact forUp_ne_negZero (fun _ _ _ hw => hnum ▸ filtStep_adds hw) h

/-- A result that either mode has stored has no −0.0. -/
theorem applyKernel_noNegZero {s : State} {element : Nat → Except Fault F64} {m : Nat} {acc : F64} {o : Store F64}
    (hnum : s.cfg.numerics = .ieee) (he : element = convElement s ∨ element = filtElement s)
    (h : applyKernel s element m = .ok (acc, o)) :
    ∀ n < m, ∃ y : F64, cellAt o n = some y ∧ y ≠ 0x8000000000000000#64 := fun n hn => by
  obtain ⟨v, hv, hcell⟩ := applyKernel_cells h n hn
  exact ⟨v, hcell, element_ne_negZero hnum he hv⟩

/-- Settles O32: both modes store sums that start at +0.0. -/
theorem noNegativeZeroInResult : Obligations.NoNegativeZeroInResult := by
  unfold Obligations.NoNegativeZeroInResult
  intro s t i hi hnum hf h ht
  obtain rfl | rfl := hi
  · obtain ⟨-, -, -, r, hr, rfl⟩ | ⟨-, -, -, rfl⟩ | ⟨-, rfl⟩ := execFirConv_next.1 h
    · exact applyKernel_noNegZero hnum (.inl rfl) hr
    · cases ht
    · cases ht
  · obtain ⟨-, -, r, hr, rfl⟩ | ⟨-, rfl⟩ := execFirFilt_next.1 h
    · exact applyKernel_noNegZero hnum (.inr rfl) hr
    · cases ht

/-- What leaves the result and the configuration alone keeps it free of −0.0. -/
theorem NoNegativeZero.of_eq {s t : State} (h : NoNegativeZero s) (hcfg : t.cfg = s.cfg) (hout : t.out = s.out)
    (hylen : t.ylen = s.ylen) : NoNegativeZero t := by
  rw [NoNegativeZero, hcfg, hout, hylen]
  exact h

theorem LoadDone.noNegativeZero {s t : State} (h : LoadDone s t) (hs : NoNegativeZero s) : NoNegativeZero t :=
  hs.of_eq h.cfg h.out h.ylen

theorem exec_noNegativeZero {i : Instr} {s t : State} (hs : NoNegativeZero s) (h : exec i s = .next t) :
    NoNegativeZero t := by
  cases exec_answer h with
  | same => exact hs
  | words ws => exact hs
  | turnedAway c => exact hs
  | transformed b => exact hs
  | result element acc y m _ he hr => exact fun hnum => applyKernel_noNegZero (s := s) hnum he hr
  | loaded cmd _ _ _ hdone => exact hdone.noNegativeZero hs
  | held cmd => exact hs

theorem step_noNegativeZero {s t : State} (hs : NoNegativeZero s) (h : step s = .next t) : NoNegativeZero t := by
  obtain ⟨-, rfl⟩ | ⟨-, hd, -, hr⟩ | ⟨-, w, rest, -, ⟨i, -, he⟩ | ⟨c, rfl⟩⟩ := step_next_cases h
  · exact hs
  · obtain ⟨hdone, -⟩ | ⟨-, rfl⟩ := resume_cases hr
    · exact hdone.noNegativeZero hs
    · exact hs
  · exact exec_noNegativeZero (s := takeWords 1 s) hs he
  · exact hs

theorem resetOf_noNegativeZero (c : Config) : NoNegativeZero (State.resetOf c) :=
  fun _ n hn => absurd hn n.not_lt_zero

/-- Settles O54: only FIR.CONV and FIR.FILT write a result, and reset leaves none. -/
theorem noNegativeZeroKept : Obligations.NoNegativeZeroKept := by
  unfold Obligations.NoNegativeZeroKept
  intro s t e hs h
  obtain ⟨-, h⟩ | ⟨w, -, rfl⟩ | ⟨-, rfl⟩ | ⟨-, rfl⟩ := event_next.1 h
  · exact step_noNegativeZero hs h
  · cases hf : s.fault with
    | true => rwa [hostAppend_of_fault w hf]
    | false => rwa [hostAppend_of_ready w hf]
  · exact hs
  · exact resetOf_noNegativeZero s.cfg

/-- Settles O55: a result of no elements. -/
theorem noNegativeZeroAfterReset : Obligations.NoNegativeZeroAfterReset := by
  unfold Obligations.NoNegativeZeroAfterReset
  exact resetOf_noNegativeZero

end Sys2Proof.Machine
end

section
/-! PROOFS. The four loads (`spec/41_fft_commands.md` section 1, `spec/42_fir_commands.md` section 1, `spec/20_memory.md` section 3). -/

namespace Sys2Proof.Machine

section

variable {i : Instr} {cmd : LoadCmd} {s : State}

/-- An accepted load with its payload on INCH takes it and completes. -/
theorem exec_load_of_enough (hcmd : loadCmdOf i = some cmd) (hacc : cntAccepted s.cfg cmd i.cnt = true)
    (hw : payloadOf cmd i.cnt ≤ s.inch.length) :
    exec i s = completeLoad cmd i.cnt (s.inch.take (payloadOf cmd i.cnt)) (release (takeWords (payloadOf cmd i.cnt) s)) :=
  (exec_load_of_accepted hcmd hacc).trans (resume_of_enough (h := ⟨cmd, i.cnt, []⟩) (by simpa using hw))

/-- An accepted load short of a word takes all of INCH and is held. -/
theorem exec_load_of_short (hcmd : loadCmdOf i = some cmd) (hacc : cntAccepted s.cfg cmd i.cnt = true)
    (hw : s.inch.length < payloadOf cmd i.cnt) :
    exec i s = .next { s with inch := [], pc := s.pc + s.inch.length, held := some ⟨cmd, i.cnt, s.inch⟩ } := by
  refine ((exec_load_of_accepted hcmd hacc).trans
    (resume_of_short (h := ⟨cmd, i.cnt, []⟩) (by simpa using hw))).trans ?_
  simp [hold, takeWords]

end

/-- A list written from cell 0 that fits its store: cell i is element i, and the cells behind it are as before. -/
theorem writeSeq_zero_completes {α : Type} (name : StoreName) {size : Nat} (vs : List α) (st : Store α)
    (h : vs.length ≤ size) :
    ∃ st', writeSeq name size 0 vs st = .ok st' ∧ (∀ i < vs.length, cellAt st' i = vs[i]?) ∧
      ∀ i ≥ vs.length, cellAt st' i = cellAt st i := by
  obtain ⟨st', hok, hcells⟩ := writeSeq_completes name size vs 0 st (by omega)
  exact ⟨st', hok, fun i hi => by rw [hcells, if_pos (by omega), Nat.sub_zero],
    fun i hi => by rw [hcells, if_neg (by omega)]⟩

/-- Settles O12: the check of CNT, the words as real samples, and the hold. -/
theorem fftSetrLoadsRealSamples : Obligations.FftSetrLoadsRealSamples := by
  unfold Obligations.FftSetrLoadsRealSamples
  refine fun s cnt => ⟨fun hcnt => ?refused, fun hcnt hw => ?loaded, fun hcnt hw => ?held⟩
  case refused => exact exec_load_of_refused (i := .fftSetr cnt) rfl (decide_eq_false hcnt)
  case held => exact exec_load_of_short (i := .fftSetr cnt) rfl (decide_eq_true hcnt) hw
  case loaded =>
    have hlen : ((s.inch.take cnt).map ofReal).length = cnt := by simpa using hw
    obtain ⟨b, hok, hcells, hframe⟩ := writeSeq_zero_completes .buf ((s.inch.take cnt).map ofReal) s.buf (size := s.cfg.n)
      (by omega)
    rw [hlen] at hcells hframe
    have hload := exec_load_of_enough (i := .fftSetr cnt) rfl (decide_eq_true hcnt) hw
    refine ⟨b, hload.trans ((thenNext_eq_next ..).2 ⟨b, hok, rfl⟩), fun i hi => ?_, hframe⟩
    rw [hcells i hi, List.getElem?_map, List.getElem?_take_of_lt hi]
    rfl

/-- Settles O13: the check of CNT, the words in pairs, and the hold. -/
theorem fftSetcLoadsComplexSamples : Obligations.FftSetcLoadsComplexSamples := by
  unfold Obligations.FftSetcLoadsComplexSamples
  refine fun s cnt => ⟨fun hcnt => ?refused, fun hcnt hw => ?loaded, fun hcnt hw => ?held⟩
  case refused => exact exec_load_of_refused (i := .fftSetc cnt) rfl (decide_eq_false hcnt)
  case held => exact exec_load_of_short (i := .fftSetc cnt) rfl (decide_eq_true hcnt) hw
  case loaded =>
    have hlen : (pairUp (s.inch.take (2 * cnt))).length = cnt := by
      rw [pairUp_length, List.length_take, Nat.min_eq_left hw]
      omega
    obtain ⟨b, hok, hcells, hframe⟩ := writeSeq_zero_completes .buf (pairUp (s.inch.take (2 * cnt))) s.buf
      (size := s.cfg.n) (by omega)
    rw [hlen] at hcells hframe
    have hload := exec_load_of_enough (i := .fftSetc cnt) rfl (decide_eq_true hcnt) hw
    refine ⟨b, hload.trans ((thenNext_eq_next ..).2 ⟨b, hok, rfl⟩), fun i hi => ?_, hframe⟩
    refine ⟨s.inch[2 * i], s.inch[2 * i + 1], List.getElem?_eq_getElem _, List.getElem?_eq_getElem _, ?_⟩
    rw [hcells i hi, pairUp_getElem? _ _ (by rw [List.length_take]; omega), List.getElem_take, List.getElem_take]

/-- Settles O24: the check of CNT, the words as taps, and the hold. -/
theorem firSetkLoadsKernel : Obligations.FirSetkLoadsKernel := by
  unfold Obligations.FirSetkLoadsKernel
  refine fun s cnt => ⟨fun hcnt => ?refused, fun hcnt hw => ?loaded, fun hcnt hw => ?held⟩
  case refused => exact exec_load_of_refused (i := .firSetk cnt) rfl (decide_eq_false hcnt.not_ge)
  case held => exact exec_load_of_short (i := .firSetk cnt) rfl (decide_eq_true hcnt) hw
  case loaded =>
    have hlen : (s.inch.take cnt).length = cnt := by simpa using hw
    obtain ⟨k, hok, hcells, hframe⟩ := writeSeq_zero_completes .ker (s.inch.take cnt) s.ker (hlen.trans_le hcnt)
    rw [hlen] at hcells hframe
    have hload := exec_load_of_enough (i := .firSetk cnt) rfl (decide_eq_true hcnt) hw
    refine ⟨k, hload.trans ((thenNext_eq_next ..).2 ⟨k, hok, rfl⟩), fun i hi => ?_, hframe⟩
    rw [hcells i hi, List.getElem?_take_of_lt hi]

/-- Settles O25: the check of CNT, the words as samples, and the hold. -/
theorem firSetxLoadsSignal : Obligations.FirSetxLoadsSignal := by
  unfold Obligations.FirSetxLoadsSignal
  refine fun s cnt => ⟨fun hcnt => ?refused, fun hcnt hw => ?loaded, fun hcnt hw => ?held⟩
  case refused => exact exec_load_of_refused (i := .firSetx cnt) rfl (decide_eq_false hcnt.not_ge)
  case held => exact exec_load_of_short (i := .firSetx cnt) rfl (decide_eq_true hcnt) hw
  case loaded =>
    have hlen : (s.inch.take cnt).length = cnt := by simpa using hw
    obtain ⟨x, hok, hcells, hframe⟩ := writeSeq_zero_completes .sig (s.inch.take cnt) s.sig (hlen.trans_le hcnt)
    rw [hlen] at hcells hframe
    have hload := exec_load_of_enough (i := .firSetx cnt) rfl (decide_eq_true hcnt) hw
    refine ⟨x, hload.trans ((thenNext_eq_next ..).2 ⟨x, hok, rfl⟩), fun i hi => ?_, hframe⟩
    rw [hcells i hi, List.getElem?_take_of_lt hi]

end Sys2Proof.Machine
end

section
/-! PROOFS. The invariants (`spec/10_state.md` section 6): kept by every event, and enough for every command to end
(`spec/20_memory.md` section 5, `spec/70_reset_and_hazards.md` sections 4 and 5). -/

namespace Sys2Proof.Machine

/-! Stores that are written in range keep their form. -/

/-- A store in canonical form whose cells all lie in its range. -/
def Store.InForm {α : Type} (st : Store α) (size : Nat) : Prop := Store.Wf st ∧ Store.Within st size

theorem writeCell_inForm {α : Type} {name : StoreName} {size i : Nat} {st st' : Store α} {v : α}
    (h : writeCell name size st i v = .ok st') (hst : Store.InForm st size) : Store.InForm st' size := by
  obtain ⟨hi, rfl⟩ := (writeCell_eq_ok ..).1 h
  exact ⟨setCell_wf st i v hst.1, setCell_within st i size v hi hst.2⟩

/-- A loop whose every pass keeps the form of a store keeps it. -/
theorem forUp_inForm {α : Type} {size a count : Nat} {body : Nat → Store α → Except Fault (Store α)} {st st' : Store α}
    (hbody : ∀ i y y', body i y = .ok y' → Store.InForm y size → Store.InForm y' size)
    (h : forUp body a count st = .ok st') (hst : Store.InForm st size) : Store.InForm st' size :=
  forUp_keeps body (fun _ y => Store.InForm y size) a count st st' hst (fun i y y' _ _ hy hok => hbody i y y' hok hy) h

theorem swapReversed_inForm {c : Config} {i : Nat} {b b' : Store C64} (h : swapReversed c i b = .ok b')
    (hb : Store.InForm b c.n) : Store.InForm b' c.n := by
  simp only [swapReversed] at h
  split at h
  · obtain ⟨x, -, h⟩ := bind_eq_ok.1 h
    obtain ⟨y, -, h⟩ := bind_eq_ok.1 h
    obtain ⟨b1, h1, h2⟩ := bind_eq_ok.1 h
    exact writeCell_inForm h2 (writeCell_inForm h1 hb)
  · exact Except.ok.inj h ▸ hb

theorem butterfly_inForm {c : Config} {p q x : Nat} {b b' : Store C64} (h : butterfly c p q x b = .ok b')
    (hb : Store.InForm b c.n) : Store.InForm b' c.n := by
  obtain ⟨w, -, h⟩ := bind_eq_ok.1 h
  obtain ⟨bq, -, h⟩ := bind_eq_ok.1 h
  obtain ⟨u, -, h⟩ := bind_eq_ok.1 h
  obtain ⟨b1, h1, h2⟩ := bind_eq_ok.1 h
  exact writeCell_inForm h2 (writeCell_inForm h1 hb)

theorem divideCell_inForm {c : Config} {d : F64} {i : Nat} {b b' : Store C64} (h : divideCell c d i b = .ok b')
    (hb : Store.InForm b c.n) : Store.InForm b' c.n := by
  obtain ⟨z, -, h⟩ := bind_eq_ok.1 h
  exact writeCell_inForm h hb

theorem transform_inForm {c : Config} {b b' : Store C64} (h : transform c b = .ok b') (hb : Store.InForm b c.n) :
    Store.InForm b' c.n := by
  obtain ⟨b1, hpermute, h⟩ := bind_eq_ok.1 h
  obtain ⟨b2, hstages, hnormalise⟩ := bind_eq_ok.1 h
  obtain ⟨b3, hloop, hdc⟩ := bind_eq_ok.1 hnormalise
  have hb1 : Store.InForm b1 c.n := forUp_inForm (fun _ _ _ => swapReversed_inForm) hpermute hb
  have hblock (k m : Nat) (y y' : Store C64) (hy : block c k m y = .ok y') : Store.InForm y c.n → Store.InForm y' c.n :=
    forUp_inForm (fun _ _ _ => butterfly_inForm) hy
  have hstage (k : Nat) (y y' : Store C64) (hy : stage c k y = .ok y') : Store.InForm y c.n → Store.InForm y' c.n :=
    forUp_inForm (fun _ _ _ => hblock _ _ _ _) hy
  have hb2 : Store.InForm b2 c.n := forUp_inForm (fun _ _ _ => hstage _ _ _) hstages hb1
  exact divideCell_inForm hdc (forUp_inForm (fun _ _ _ => divideCell_inForm) hloop hb2)

theorem applyKernel_inForm {s : State} {element : Nat → Except Fault F64} {m : Nat} {r : F64 × Store F64}
    (h : applyKernel s element m = .ok r) (hs : Store.InForm s.out s.cfg.ymax) : Store.InForm r.2 s.cfg.ymax :=
  forUp_keeps (storeElement s element) (fun _ x => Store.InForm x.2 s.cfg.ymax) 0 m (s.acc, s.out) r hs
    (fun n x x' _ _ hx hok => by
      obtain ⟨-, hn, hout⟩ := storeElement_eq_ok hok
      rw [hout]
      exact ⟨setCell_wf _ n _ hx.1, setCell_within _ n _ _ hn hx.2⟩) h

/-- A list that fits its store is written into it in form, and its cells are then written. -/
theorem writeSeq_inForm {α : Type} (name : StoreName) {size : Nat} (vs : List α) (st : Store α) (h : vs.length ≤ size)
    (hst : Store.InForm st size) :
    ∃ st', writeSeq name size 0 vs st = .ok st' ∧ Store.InForm st' size ∧ Store.FilledTo st' vs.length := by
  obtain ⟨st', hok, hcells, -⟩ := writeSeq_zero_completes name vs st h
  refine ⟨st', hok, writeSeq_keeps name size vs 0 st st' hok hst.1 hst.2, fun i hi => ?_⟩
  rw [hcells i hi, List.getElem?_eq_getElem hi]
  rfl

/-- The values of written cells, as a function. -/
theorem Store.FilledTo.exists_holds {α : Type} {st : Store α} {m : Nat} (h : Store.FilledTo st m) (unwritten : α) :
    ∃ f, Store.Holds st m f := by
  refine ⟨fun i => (cellAt st i).getD unwritten, fun i hi => ?_⟩
  obtain ⟨v, hv⟩ := Option.isSome_iff_exists.1 (h i hi)
  simp [hv]

theorem Store.Holds.filledTo {α : Type} {st : Store α} {m : Nat} {f : Nat → α} (h : Store.Holds st m f) :
    Store.FilledTo st m := fun i hi => by rw [h i hi]; rfl

/-! The invariants under each update of the state. -/

theorem causeCode_range (c : Cause) : 1 ≤ (causeCode c).toNat ∧ (causeCode c).toNat ≤ 8 := by cases c <;> decide

section

variable {s : State} (hs : Inv s)

include hs

theorem Inv.takeWords (k : Nat) : Inv (takeWords k s) := { hs with }

theorem Inv.putWords (ws : List W64) : Inv (putWords ws s) := { hs with }

theorem Inv.withInch (ws : List W64) : Inv { s with inch := ws } := { hs with }

theorem Inv.withOutch (ws : List W64) : Inv { s with outch := ws } := { hs with }

theorem Inv.raise (c : Cause) (hheld : s.held = none) : Inv (raise c s) :=
  { hs with
    causeZero := fun hf => absurd hf (by simp)
    causeRange := fun _ => causeCode_range c
    heldReady := fun _ => hheld }

theorem Inv.release : Inv (release s) :=
  { hs with heldReady := fun _ => rfl, heldGood := fun h hh => absurd hh (by simp) }

theorem Inv.hold {h : Held} (hf : s.fault = false) (hgood : Held.Good s.cfg h) : Inv (hold h s) :=
  { hs with
    heldReady := fun ht => absurd (hf.symm.trans ht) (by decide)
    heldGood := fun h' hh => Option.some.inj hh ▸ hgood }

theorem Inv.storeTransform {b : Store C64} (hform : Store.InForm b s.cfg.n) (hfill : Store.FilledTo b s.cfg.n) :
    Inv (storeTransform b s) :=
  { hs with bufWf := hform.1, bufWithin := hform.2, bufFilled := fun _ => hfill }

theorem Inv.storeSamples {b : Store C64} (hform : Store.InForm b s.cfg.n) (hfill : Store.FilledTo b s.cfg.n) :
    Inv (storeSamples b s) :=
  { hs with bufWf := hform.1, bufWithin := hform.2, bufFilled := fun _ => hfill }

theorem Inv.storeKernel {k : Store F64} {cnt : Nat} (hform : Store.InForm k s.cfg.kmax) (hfill : Store.FilledTo k cnt)
    (hcnt : cnt ≤ s.cfg.kmax) : Inv (storeKernel k cnt s) :=
  { hs with
    kerWf := hform.1, kerWithin := hform.2, kerFilled := fun _ => hfill, klenBound := hcnt,
    klenZero := fun hk => absurd hk (by simp) }

theorem Inv.storeSignal {x : Store F64} {cnt : Nat} (hform : Store.InForm x s.cfg.lmax) (hfill : Store.FilledTo x cnt)
    (hcnt : cnt ≤ s.cfg.lmax) : Inv (storeSignal x cnt s) :=
  { hs with
    sigWf := hform.1, sigWithin := hform.2, sigFilled := fun _ => hfill, xlenBound := hcnt,
    xlenZero := fun hx => absurd hx (by simp) }

theorem Inv.storeResult {acc : F64} {y : Store F64} {m : Nat} (hform : Store.InForm y s.cfg.ymax)
    (hfill : Store.FilledTo y m) (hm : m ≤ s.cfg.ymax) : Inv (storeResult acc y m s) :=
  { hs with
    outWf := hform.1, outWithin := hform.2, outFilled := fun _ => hfill, ylenBound := hm,
    ylenZero := fun hy => absurd hy (by simp) }

/-! Every command answers a state with the invariants. -/

/-- A load with an accepted CNT and its whole payload. -/
theorem Inv.completeLoad_answers {cmd : LoadCmd} {cnt : Nat} {ws : List W64} (hacc : cntAccepted s.cfg cmd cnt = true)
    (hlen : ws.length = payloadOf cmd cnt) : ∃ t, completeLoad cmd cnt ws s = .next t ∧ Inv t := by
  cases cmd with
  | fftSetr =>
    have hcnt : (ws.map ofReal).length = s.cfg.n := by
      rw [List.length_map, hlen]
      exact of_decide_eq_true hacc
    obtain ⟨b, hok, hform, hfill⟩ := writeSeq_inForm .buf _ s.buf hcnt.le ⟨hs.bufWf, hs.bufWithin⟩
    exact ⟨_, (thenNext_eq_next ..).2 ⟨b, hok, rfl⟩, hs.storeSamples hform (hcnt ▸ hfill)⟩
  | fftSetc =>
    have hcnt : (pairUp ws).length = s.cfg.n := by
      rw [pairUp_length, hlen, ← of_decide_eq_true hacc]
      exact Nat.mul_div_cancel_left cnt two_pos
    obtain ⟨b, hok, hform, hfill⟩ := writeSeq_inForm .buf _ s.buf hcnt.le ⟨hs.bufWf, hs.bufWithin⟩
    exact ⟨_, (thenNext_eq_next ..).2 ⟨b, hok, rfl⟩, hs.storeSamples hform (hcnt ▸ hfill)⟩
  | firSetk =>
    have hcnt : cnt ≤ s.cfg.kmax := of_decide_eq_true hacc
    obtain ⟨k, hok, hform, hfill⟩ := writeSeq_inForm .ker ws s.ker (hlen.trans_le hcnt) ⟨hs.kerWf, hs.kerWithin⟩
    exact ⟨_, (thenNext_eq_next ..).2 ⟨k, hok, rfl⟩, hs.storeKernel hform (hlen.subst hfill) hcnt⟩
  | firSetx =>
    have hcnt : cnt ≤ s.cfg.lmax := of_decide_eq_true hacc
    obtain ⟨x, hok, hform, hfill⟩ := writeSeq_inForm .sig ws s.sig (hlen.trans_le hcnt) ⟨hs.sigWf, hs.sigWithin⟩
    exact ⟨_, (thenNext_eq_next ..).2 ⟨x, hok, rfl⟩, hs.storeSignal hform (hlen.subst hfill) hcnt⟩

/-- A load that goes on, with its payload there or not. -/
theorem Inv.resume_answers {h : Held} (hf : s.fault = false) (hacc : cntAccepted s.cfg h.cmd h.cnt = true)
    (htaken : h.taken.length ≤ payloadOf h.cmd h.cnt) : ∃ t, resume h s = .next t ∧ Inv t := by
  obtain hw | hw := Nat.lt_or_ge (h.taken.length + s.inch.length) (payloadOf h.cmd h.cnt)
  · refine ⟨_, resume_of_short hw, (hs.takeWords _).hold hf ⟨hacc, ?_⟩⟩
    simpa using hw
  · rw [resume_of_enough hw]
    exact (hs.takeWords _).release.completeLoad_answers hacc (payload_length _ _ _ s hw htaken)

theorem Inv.exec_load_answers {i : Instr} {cmd : LoadCmd} (hready : s.Ready) (hcmd : loadCmdOf i = some cmd) :
    ∃ t, exec i s = .next t ∧ Inv t := by
  cases hacc : cntAccepted s.cfg cmd i.cnt with
  | true =>
    rw [exec_load_of_accepted hcmd hacc]
    exact hs.resume_answers hready.1 hacc (Nat.zero_le _)
  | false => exact ⟨_, exec_load_of_refused hcmd hacc, hs.raise _ hready.2⟩

theorem Inv.execFftRun_answers (hready : s.Ready) : ∃ t, exec .fftRun s = .next t ∧ Inv t := by
  cases hfv : s.fv with
  | true =>
    obtain ⟨z, hz⟩ := (hs.bufFilled hfv).exists_holds zeroC
    obtain ⟨b, hok, hb, -⟩ := transform_completes hz
    exact ⟨_, execFftRun_next.2 (.inl ⟨hfv, b, hok, rfl⟩),
      hs.storeTransform (transform_inForm hok ⟨hs.bufWf, hs.bufWithin⟩) hb.filledTo⟩
  | false => exact ⟨_, execFftRun_next.2 (.inr ⟨hfv, rfl⟩), hs.raise _ hready.2⟩

theorem Inv.execFftGets_answers (hready : s.Ready) : ∃ t, exec .fftGets s = .next t ∧ Inv t := by
  cases hfv : s.fv with
  | true =>
    obtain ⟨z, hz⟩ := (hs.bufFilled hfv).exists_holds zeroC
    exact ⟨_, execFftGets_of_holds hfv fun i hi => hz i (hi.trans_le s.cfg.half_le_n), hs.putWords _⟩
  | false => exact ⟨_, execFftGets_next.2 (.inr ⟨hfv, rfl⟩), hs.raise _ hready.2⟩

theorem Inv.execFirConv_answers (hready : s.Ready) : ∃ t, exec .firConv s = .next t ∧ Inv t := by
  by_cases hnull : s.kv = false ∨ s.xv = false
  · exact ⟨_, execFirConv_next.2 (.inr (.inr ⟨hnull, rfl⟩)), hs.raise _ hready.2⟩
  · obtain ⟨hkv, hxv⟩ : s.kv = true ∧ s.xv = true := by simpa using hnull
    by_cases h0 : s.klen + s.xlen = 0
    · exact ⟨_, execFirConv_next.2 (.inr (.inl ⟨hkv, hxv, h0, rfl⟩)), hs.raise _ hready.2⟩
    · obtain ⟨x, hx⟩ := (hs.sigFilled hxv).exists_holds plusZero
      obtain ⟨h, hh⟩ := (hs.kerFilled hkv).exists_holds plusZero
      have hm := s.cfg.conv_length_le_ymax hs.klenBound hs.xlenBound
      obtain ⟨o, hok, ho, -⟩ := applyKernel_completes hm fun n _ =>
        convElement_eq_ok hs.klenBound hs.xlenBound hx hh n
      exact ⟨_, execFirConv_next.2 (.inl ⟨hkv, hxv, h0, _, hok, rfl⟩),
        hs.storeResult (applyKernel_inForm hok ⟨hs.outWf, hs.outWithin⟩) ho.filledTo hm⟩

theorem Inv.execFirFilt_answers (hready : s.Ready) : ∃ t, exec .firFilt s = .next t ∧ Inv t := by
  by_cases hnull : s.kv = false ∨ s.xv = false
  · exact ⟨_, execFirFilt_next.2 (.inr ⟨hnull, rfl⟩), hs.raise _ hready.2⟩
  · obtain ⟨hkv, hxv⟩ : s.kv = true ∧ s.xv = true := by simpa using hnull
    obtain ⟨x, hx⟩ := (hs.sigFilled hxv).exists_holds plusZero
    obtain ⟨h, hh⟩ := (hs.kerFilled hkv).exists_holds plusZero
    have hm := hs.xlenBound.trans s.cfg.lmax_le_ymax
    obtain ⟨o, hok, ho, -⟩ := applyKernel_completes hm fun n hn =>
      filtElement_eq_ok hs.klenBound hs.xlenBound hx hh hn
    exact ⟨_, execFirFilt_next.2 (.inl ⟨hkv, hxv, _, hok, rfl⟩),
      hs.storeResult (applyKernel_inForm hok ⟨hs.outWf, hs.outWithin⟩) ho.filledTo hm⟩

theorem Inv.execFirGety_answers (hready : s.Ready) : ∃ t, exec .firGety s = .next t ∧ Inv t := by
  cases hyv : s.yv with
  | true =>
    obtain ⟨y, hy⟩ := (hs.outFilled hyv).exists_holds plusZero
    exact ⟨_, execFirGety_of_holds hyv hs.ylenBound hy, hs.putWords _⟩
  | false => exact ⟨_, execFirGety_next.2 (.inr ⟨hyv, rfl⟩), hs.raise _ hready.2⟩

/-- Every command run by a ready core. -/
theorem Inv.exec_answers (i : Instr) (hready : s.Ready) : ∃ t, exec i s = .next t ∧ Inv t := by
  cases i with
  | nop => exact ⟨_, execNop_next.2 rfl, hs⟩
  | stat => exact ⟨_, execStat_next.2 rfl, hs.putWords _⟩
  | fftSetr cnt => exact hs.exec_load_answers hready rfl
  | fftSetc cnt => exact hs.exec_load_answers hready rfl
  | fftRun => exact hs.execFftRun_answers hready
  | fftGets => exact hs.execFftGets_answers hready
  | firSetk cnt => exact hs.exec_load_answers hready rfl
  | firSetx cnt => exact hs.exec_load_answers hready rfl
  | firConv => exact hs.execFirConv_answers hready
  | firFilt => exact hs.execFirFilt_answers hready
  | firGety => exact hs.execFirGety_answers hready

/-- A step of a core that is not faulted answers a state with the invariants. -/
theorem Inv.step_answers (hf : s.fault = false) : ∃ t, step s = .next t ∧ Inv t := by
  obtain ⟨hstopped, -⟩ | ⟨-, h, hh, e⟩ | ⟨-, e⟩ | ⟨hready, w, rest, -, e⟩ := step_cases s
  · exact absurd (hf.symm.trans hstopped) (by decide)
  · rw [e]
    obtain ⟨hacc, htaken⟩ := hs.heldGood h hh
    exact hs.resume_answers hf hacc htaken.le
  · exact ⟨s, e, hs⟩
  · rw [e]
    obtain ⟨i, -, e'⟩ | ⟨err, -, e'⟩ := runHeader_cases w (Machine.takeWords 1 s)
    · rw [e']
      exact (hs.takeWords 1).exec_answers i hready
    · exact ⟨_, e', (hs.takeWords 1).raise _ hready.2⟩

end

theorem resetOf_inv (c : Config) : Inv (State.resetOf c) := by
  obtain ⟨hbuf, hker, hsig, hout⟩ := resetOf_stores_wf c
  exact
    { bufWf := hbuf, kerWf := hker, sigWf := hsig, outWf := hout,
      bufWithin := fun p hp => absurd hp List.not_mem_nil, kerWithin := fun p hp => absurd hp List.not_mem_nil,
      sigWithin := fun p hp => absurd hp List.not_mem_nil, outWithin := fun p hp => absurd hp List.not_mem_nil,
      bufFilled := nofun, kerFilled := nofun, sigFilled := nofun, outFilled := nofun,
      klenBound := Nat.zero_le _, xlenBound := Nat.zero_le _, ylenBound := Nat.zero_le _,
      klenZero := fun _ => rfl, xlenZero := fun _ => rfl, ylenZero := fun _ => rfl,
      causeZero := fun _ => rfl, causeRange := nofun, heldReady := nofun, heldGood := nofun }

/-- Settles O50: a core with nothing loaded. -/
theorem invAfterReset : Obligations.InvAfterReset := by
  unfold Obligations.InvAfterReset
  exact resetOf_inv

/-- Settles O51: a step answers one state, and that has the invariants; the host moves words or resets. -/
theorem invKeptByEveryEvent : Obligations.InvKeptByEveryEvent := by
  unfold Obligations.InvKeptByEveryEvent
  intro s t e hs h
  obtain ⟨-, h⟩ | ⟨w, -, rfl⟩ | ⟨-, rfl⟩ | ⟨-, rfl⟩ := event_next.1 h
  · obtain ⟨t', h', ht'⟩ := hs.step_answers (fault_of_step_next h)
    exact Host.Outcome.next.inj (h'.symm.trans h) ▸ ht'
  · cases hf : s.fault with
    | true => rwa [hostAppend_of_fault w hf]
    | false =>
      rw [hostAppend_of_ready w hf]
      exact hs.withInch _
  · exact hs.withOutch _
  · exact resetOf_inv s.cfg

/-- Settles O52: a step answers. -/
theorem onlyFaultedCoreStops : Obligations.OnlyFaultedCoreStops := by
  unfold Obligations.OnlyFaultedCoreStops
  intro s hs hf
  obtain ⟨t, h, -⟩ := hs.step_answers hf
  exact ⟨t, h⟩

/-! Every command ends. -/

/-- A command of a ready core with its payload on INCH is left by the core, which has taken what the command accepts. -/
theorem exec_ends {i : Instr} {s t : State} (hs : s.Ready) (h : exec i s = .next t)
    (hw : payloadTaken s.cfg i ≤ s.inch.length) : t.held = none ∧ t.inch = s.inch.drop (payloadTaken s.cfg i) := by
  cases hcmd : loadCmdOf i with
  | none =>
    have hzero : payloadTaken s.cfg i = 0 ∧ payloadWords i = 0 := by simp [payloadTaken, payloadWords, hcmd]
    obtain hdone | ⟨c, rfl⟩ | ⟨cmd, hcmd', -⟩ := exec_cases h
    · exact ⟨hdone.held hs.2, by rw [hdone.inch, hzero.1, hzero.2]⟩
    · exact ⟨hs.2, by rw [hzero.1]; rfl⟩
    · cases hcmd.symm.trans hcmd'
  | some cmd =>
    cases hacc : cntAccepted s.cfg cmd i.cnt with
    | true =>
      have hpayload : payloadTaken s.cfg i = payloadOf cmd i.cnt := by simp [payloadTaken, hcmd, hacc]
      rw [hpayload] at hw ⊢
      have hdone := completeLoad_done ((exec_load_of_enough hcmd hacc hw).symm.trans h)
      exact ⟨hdone.held, hdone.inch⟩
    | false =>
      have hpayload : payloadTaken s.cfg i = 0 := by simp [payloadTaken, hcmd, hacc]
      obtain rfl := Host.Outcome.next.inj ((exec_load_of_refused hcmd hacc).symm.trans h)
      exact ⟨hs.2, by rw [hpayload]; rfl⟩

/-- Settles O53: the step answers, and the command it has run is over. -/
theorem everyCommandEnds : Obligations.EveryCommandEnds := by
  unfold Obligations.EveryCommandEnds
  intro s h rest i hs hready hi hd hw
  obtain ⟨t, ht, -⟩ := hs.step_answers hready.1
  exact ⟨t, ht, exec_ends (s := { s with inch := rest, pc := s.pc + 1 }) hready
    ((step_of_decode_ok hready hi hd).symm.trans ht) hw⟩

end Sys2Proof.Machine
end

section
/-! PROOFS. Runs (`spec/70_reset_and_hazards.md` section 4): the words of W in order, the ends of a run, and that its outcome does not
depend on the schedule. -/

namespace Sys2Proof.Machine

/-! How a run stands (R261). -/

/-- The ways a run can stand, each with what it says of the run. -/
theorem status_cases (r : Run) :
    (r.status = .goneWrong ∧ r.core.fault = true) ∨
    (r.status = .running ∧ r.core.fault = false ∧ r.core.inch ≠ []) ∨
    (r.status = .running ∧ r.core.fault = false ∧ r.core.inch = [] ∧ r.core.held = none ∧ r.pending ≠ []) ∨
    (r.status = .stuck ∧ r.core.fault = false ∧ r.core.inch = [] ∧ r.core.held ≠ none ∧ r.pending = []) ∨
    (r.status = .notEnded ∧ r.core.fault = false ∧ r.core.inch = [] ∧ r.core.held ≠ none ∧ r.pending ≠ []) ∨
    (r.status = .endedWell ∧ r.core.fault = false ∧ r.core.inch = [] ∧ r.core.held = none ∧ r.pending = []) := by
  rw [Run.status]
  by_cases hf : r.core.fault = true
  · simp [hf]
  · by_cases hi : r.core.inch = []
    · cases hh : r.core.held <;> by_cases hp : r.pending = [] <;> simp [hf, hi, hp]
    · simp [hf, hi]

/-- A run that is over has a faulted core, or a core that waits with all of W appended. -/
theorem over_iff {r : Run} : r.status.Over ↔ r.core.fault = true ∨ (r.core.inch = [] ∧ r.pending = []) := by
  obtain ⟨hst, h⟩ | ⟨hst, hf, h⟩ | ⟨hst, hf, h⟩ | ⟨hst, -, h⟩ | ⟨hst, hf, h⟩ | ⟨hst, -, h⟩ := status_cases r
  · simp [RunStatus.Over, hst, h]
  · simp [RunStatus.Over, hst, hf, h]
  · simp [RunStatus.Over, hst, hf, h]
  · simp [RunStatus.Over, hst, h]
  · simp [RunStatus.Over, hst, hf, h]
  · simp [RunStatus.Over, hst, h]

/-- In a run that has kept to its words, with INCH empty, W is exhausted when all its words are taken. -/
theorem Run.Follows.pending_eq_nil_iff {words : List W64} {r : Run} (h : r.Follows words) (hi : r.core.inch = []) :
    r.pending = [] ↔ r.core.pc = words.length := by
  obtain ⟨hle, hwords⟩ := h
  rw [hi, List.nil_append] at hwords
  rw [hwords, List.drop_eq_nil_iff]
  omega

/-- Settles O56: each end by the way the run stands. -/
theorem runEndsAsDefined : Obligations.RunEndsAsDefined := by
  unfold Obligations.RunEndsAsDefined
  refine ⟨fun c words => ⟨⟨Nat.zero_le _, rfl⟩, rfl, rfl, rfl⟩, fun words r hr => ?_⟩
  have hresult : (r.status = .endedWell → r.result = some (r.received ++ r.core.outch, statusWord r.core)) ∧
      (r.status ≠ .endedWell → r.result = none) := ⟨fun h => if_pos h, fun h => if_neg h⟩
  obtain ⟨hst, hf⟩ | ⟨hst, hf, hi⟩ | ⟨hst, hf, hi, hh, hp⟩ | ⟨hst, hf, hi, hh, hp⟩ | ⟨hst, hf, hi, hh, hp⟩ |
    ⟨hst, hf, hi, hh, hp⟩ := status_cases r
  · refine ⟨?_, ?_, ?_, ?_, hresult⟩ <;> simp [hst, hf, State.Idle, State.Ready]
  · refine ⟨?_, ?_, ?_, ?_, hresult⟩ <;> simp [hst, hf, hi, State.Idle, State.Ready]
  · have hpc : r.core.pc ≠ words.length := fun h => hp ((hr.pending_eq_nil_iff hi).2 h)
    refine ⟨?_, ?_, ?_, ?_, hresult⟩ <;> simp [hst, hf, hi, hh, hpc, State.Idle, State.Ready]
  · have hpc := (hr.pending_eq_nil_iff hi).1 hp
    refine ⟨?_, ?_, ?_, ?_, hresult⟩ <;> simp [hst, hf, hi, hh, hpc, State.Idle, State.Ready]
  · have hpc : r.core.pc ≠ words.length := fun h => hp ((hr.pending_eq_nil_iff hi).2 h)
    refine ⟨?_, ?_, ?_, ?_, hresult⟩ <;> simp [hst, hf, hi, hh, hpc, State.Idle, State.Ready]
  · have hpc := (hr.pending_eq_nil_iff hi).1 hp
    refine ⟨?_, ?_, ?_, ?_, hresult⟩ <;> simp [hst, hf, hi, hh, hpc, State.Idle, State.Ready]

/-! The words of W in order. -/

/-- Words that leave INCH are the next words of W, and pc counts them. -/
theorem Run.Follows.of_flows {words : List W64} {r : Run} {t : State} (h : r.Follows words) (hflow : Flows r.core t) :
    ({ r with core := t } : Run).Follows words := by
  obtain ⟨hle, hwords⟩ := h
  obtain ⟨⟨k, hk, hi, hpc⟩, -⟩ := hflow
  have hlen := congrArg List.length hwords
  rw [List.length_append, List.length_drop] at hlen
  refine ⟨?_, ?_⟩
  · simp only [hpc]
    omega
  · simp only [hi, hpc]
    rw [← List.drop_drop, ← hwords, List.drop_append_of_le_length hk]

/-- Settles O57: a step takes words from the front, an offer moves the next word of W to the back of INCH. -/
theorem runFollowsKept : Obligations.RunFollowsKept := by
  unfold Obligations.RunFollowsKept
  intro words a r r' h hadv
  obtain ⟨-, t, ht, rfl⟩ | ⟨-, rfl⟩ | ⟨-, rfl⟩ := advance_next.1 hadv
  · exact h.of_flows (step_flows ht)
  · obtain ⟨-, e⟩ | ⟨-, w, rest, hp, e⟩ := appendNext_cases r
    · exact e.symm ▸ h
    · rw [e]
      refine ⟨h.1, ?_⟩
      have hwords := h.2
      rw [hp] at hwords
      simpa using hwords
  · obtain ⟨-, e⟩ | ⟨w, rest, -, e⟩ := takeFront_cases r
    · exact e.symm ▸ h
    · rw [e]
      exact h

/-! A run that is over stays as it is. -/

/-- The invariants are kept by every action of a run. -/
theorem advance_inv {a : RunAction} {r r' : Run} (hr : Inv r.core) (h : r.advance a = .next r') : Inv r'.core := by
  obtain ⟨-, t, ht, rfl⟩ | ⟨-, rfl⟩ | ⟨-, rfl⟩ := advance_next.1 h
  · exact invKeptByEveryEvent r.core t .core hr ht
  · obtain ⟨-, e⟩ | ⟨-, w, rest, -, e⟩ := appendNext_cases r
    · exact e.symm ▸ hr
    · rw [e]
      exact hr.withInch _
  · obtain ⟨-, e⟩ | ⟨w, rest, -, e⟩ := takeFront_cases r
    · exact e.symm ▸ hr
    · rw [e]
      exact hr.withOutch _

/-- A core with the invariants and nothing on INCH waits. -/
theorem step_of_inch_nil {s : State} (hs : Inv s) (hf : s.fault = false) (hi : s.inch = []) : step s = .next s :=
  waitingChangesNothing s hf hi hs.heldGood

/-- A taking moves a word from OUTCH to the words received, and nothing else of the outcome changes. -/
theorem takeFront_outcome (r : Run) : r.takeFront.outcome = r.outcome := by
  obtain ⟨-, e⟩ | ⟨w, rest, ho, e⟩ := takeFront_cases r
  · rw [e]
  · have houtput : r.received ++ [w] ++ rest = r.received ++ r.core.outch := by simp [ho]
    rw [e]
    exact congrArg (fun out => (r.status, out, statusWord r.core)) houtput

/-- Settles O58: the output of each action, and a core that waits or has stopped. -/
theorem runOutputGrowsUntilOver : Obligations.RunOutputGrowsUntilOver := by
  unfold Obligations.RunOutputGrowsUntilOver
  intro a r r' h
  obtain ⟨rfl, t, ht, rfl⟩ | ⟨rfl, rfl⟩ | ⟨rfl, rfl⟩ := advance_next.1 h
  · obtain ⟨-, ws, hws⟩ := step_flows ht
    refine ⟨⟨ws, ?_, fun hne => absurd rfl hne⟩, fun hr hover => ?_⟩
    · simp only [Run.output, hws, List.append_assoc]
    · have hf := fault_of_step_next ht
      obtain hf' | ⟨hi, -⟩ := over_iff.1 hover
      · simp [hf] at hf'
      · obtain rfl := Host.Outcome.next.inj ((step_of_inch_nil hr hf hi).symm.trans ht)
        rfl
  · obtain ⟨-, e⟩ | ⟨hf, w, rest, hp, e⟩ := appendNext_cases r
    · rw [e]
      exact ⟨⟨[], by simp, fun _ => rfl⟩, fun _ _ => rfl⟩
    · refine ⟨⟨[], by simp [e, Run.output], fun _ => rfl⟩, fun _ hover => ?_⟩
      obtain hf' | ⟨-, hp'⟩ := over_iff.1 hover
      · simp [hf] at hf'
      · simp [hp] at hp'
  · have hout : r.takeFront.output = r.output := congrArg (fun o => o.2.1) (takeFront_outcome r)
    exact ⟨⟨[], by simpa using hout, fun _ => rfl⟩, fun _ _ => takeFront_outcome r⟩

/-! More words behind INCH and in front of OUTCH. -/

/-- The state with more words at the back of INCH and more words, older ones, in front of those on OUTCH. -/
def padded (older more : List W64) (s : State) : State := { s with inch := s.inch ++ more, outch := older ++ s.outch }

section

variable (older more : List W64)

theorem completeLoad_padded {cmd : LoadCmd} {cnt : Nat} {ws : List W64} {s t : State}
    (h : completeLoad cmd cnt ws s = .next t) :
    completeLoad cmd cnt ws (padded older more s) = .next (padded older more t) := by
  cases cmd with
  | fftSetr =>
    obtain ⟨b, hb, rfl⟩ := (thenNext_eq_next ..).1 h
    exact (thenNext_eq_next ..).2 ⟨b, hb, rfl⟩
  | fftSetc =>
    obtain ⟨b, hb, rfl⟩ := (thenNext_eq_next ..).1 h
    exact (thenNext_eq_next ..).2 ⟨b, hb, rfl⟩
  | firSetk =>
    obtain ⟨k, hk, rfl⟩ := (thenNext_eq_next ..).1 h
    exact (thenNext_eq_next ..).2 ⟨k, hk, rfl⟩
  | firSetx =>
    obtain ⟨x, hx, rfl⟩ := (thenNext_eq_next ..).1 h
    exact (thenNext_eq_next ..).2 ⟨x, hx, rfl⟩

theorem takeWords_padded {k : Nat} {s : State} (h : k ≤ s.inch.length) :
    takeWords k (padded older more s) = padded older more (takeWords k s) := by
  simp [takeWords, padded, List.drop_append_of_le_length h]

/-- A load that goes on and completes does not see the words behind its payload. -/
theorem resume_padded_of_enough {h : Held} {s t : State} (hw : payloadOf h.cmd h.cnt ≤ h.taken.length + s.inch.length)
    (hr : resume h s = .next t) : resume h (padded older more s) = .next (padded older more t) := by
  have hleft : payloadLeft h.cmd h.cnt h.taken ≤ s.inch.length := by
    rw [payloadLeft]
    omega
  have hafter : afterPayload h.cmd h.cnt h.taken (padded older more s) =
      padded older more (afterPayload h.cmd h.cnt h.taken s) := by
    rw [afterPayload, takeWords_padded older more hleft]
    rfl
  have hpayload : fullPayload h.cmd h.cnt h.taken (padded older more s) = fullPayload h.cmd h.cnt h.taken s := by
    simp only [fullPayload, padded, List.take_append_of_le_length hleft]
  rw [resume_of_enough hw] at hr
  rw [resume_of_enough (by simp only [padded, List.length_append]; omega), hafter, hpayload]
  exact completeLoad_padded older more hr

/-- A command that does not hold the core does not see the words behind its payload, nor those on OUTCH. -/
theorem exec_padded {i : Instr} {s t : State} (h : exec i s = .next t) (ht : t.held = none) :
    exec i (padded older more s) = .next (padded older more t) := by
  have load {cmd : LoadCmd} (hcmd : loadCmdOf i = some cmd) : exec i (padded older more s) = .next (padded older more t) := by
    cases hacc : cntAccepted s.cfg cmd i.cnt with
    | true =>
      rw [exec_load_of_accepted hcmd hacc] at h
      rw [exec_load_of_accepted (s := padded older more s) hcmd hacc]
      obtain ⟨-, hw⟩ | ⟨-, rfl⟩ := resume_cases h
      · exact resume_padded_of_enough older more hw h
      · cases ht
    | false =>
      rw [exec_load_of_refused hcmd hacc] at h
      rw [exec_load_of_refused (s := padded older more s) hcmd hacc]
      obtain rfl := Host.Outcome.next.inj h
      rfl
  have words (ws : List W64) : padded older more (putWords ws s) = putWords ws (padded older more s) := by
    simp [padded, putWords]
  cases i with
  | nop =>
    obtain rfl := execNop_next.1 h
    exact execNop_next.2 rfl
  | stat =>
    obtain rfl := execStat_next.1 h
    exact execStat_next.2 (words _)
  | fftSetr cnt => exact load rfl
  | fftSetc cnt => exact load rfl
  | fftRun =>
    obtain ⟨hfv, b, hb, rfl⟩ | ⟨hfv, rfl⟩ := execFftRun_next.1 h
    · exact execFftRun_next.2 (.inl ⟨hfv, b, hb, rfl⟩)
    · exact execFftRun_next.2 (.inr ⟨hfv, rfl⟩)
  | fftGets =>
    obtain ⟨hfv, zs, hzs, rfl⟩ | ⟨hfv, rfl⟩ := execFftGets_next.1 h
    · exact execFftGets_next.2 (.inl ⟨hfv, zs, hzs, words _⟩)
    · exact execFftGets_next.2 (.inr ⟨hfv, rfl⟩)
  | firSetk cnt => exact load rfl
  | firSetx cnt => exact load rfl
  | firConv =>
    obtain ⟨hkv, hxv, hm, r, hr, rfl⟩ | ⟨hkv, hxv, hm, rfl⟩ | ⟨hnull, rfl⟩ := execFirConv_next.1 h
    · exact execFirConv_next.2 (.inl ⟨hkv, hxv, hm, r, hr, rfl⟩)
    · exact execFirConv_next.2 (.inr (.inl ⟨hkv, hxv, hm, rfl⟩))
    · exact execFirConv_next.2 (.inr (.inr ⟨hnull, rfl⟩))
  | firFilt =>
    obtain ⟨hkv, hxv, r, hr, rfl⟩ | ⟨hnull, rfl⟩ := execFirFilt_next.1 h
    · exact execFirFilt_next.2 (.inl ⟨hkv, hxv, r, hr, rfl⟩)
    · exact execFirFilt_next.2 (.inr ⟨hnull, rfl⟩)
  | firGety =>
    obtain ⟨hyv, ys, hys, rfl⟩ | ⟨hyv, rfl⟩ := execFirGety_next.1 h
    · exact execFirGety_next.2 (.inl ⟨hyv, ys, hys, words _⟩)
    · exact execFirGety_next.2 (.inr ⟨hyv, rfl⟩)

/-- A load that was held goes on, with more words behind it, to what it would have done with all of them at once. -/
theorem step_padded_heldAfter {h : Held} {s : State} (hf : s.fault = false)
    (hw : h.taken.length + s.inch.length < payloadOf h.cmd h.cnt) :
    step (padded older more (heldAfter h.cmd h.cnt h.taken s)) = resume h (padded older more s) := by
  have hpadded : padded older more (heldAfter h.cmd h.cnt h.taken s) =
      { heldAfter h.cmd h.cnt h.taken { s with outch := older ++ s.outch } with inch := more } := by
    simp [padded, hold, takeWords]
  rw [hpadded]
  exact step_heldAfter_append (s := { s with outch := older ++ s.outch }) hf hw

theorem runHeader_of_decode_ok {w : W64} {i : Instr} (hd : decode w = .ok i) (s : State) : runHeader w s = exec i s := by
  simp [runHeader, hd]

theorem runHeader_of_decode_error {w : W64} {e : DecodeError} (hd : decode w = .error e) (s : State) :
    runHeader w s = .next (raise (decodeCause e) s) := by
  simp [runHeader, hd]

/-- A step with more words around it is the same step, or the core waits for the words that are then there. -/
theorem step_padded {s t : State} (h : step s = .next t) :
    step (padded older more s) = .next (padded older more t) ∨
      (t.inch = [] ∧ step (padded older more t) = step (padded older more s)) := by
  obtain ⟨⟨-, hi⟩, rfl⟩ | ⟨hf, hd, hh, hr⟩ | ⟨hready, w, rest, hi, -⟩ := step_next_cases h
  · exact .inr ⟨hi, rfl⟩
  · rw [step_of_held (s := padded older more s) hf hh]
    obtain ⟨-, hw⟩ | ⟨hw, rfl⟩ := resume_cases hr
    · exact .inl (resume_padded_of_enough older more hw hr)
    · exact .inr ⟨by simp, step_padded_heldAfter older more hf hw⟩
  · have hready' : (padded older more s).Ready := hready
    have hi' : (padded older more s).inch = w :: (rest ++ more) := by simp [padded, hi]
    rw [step_of_ready hready hi] at h
    rw [step_of_ready hready' hi', takeWords_padded older more (by simp [hi])]
    obtain ⟨i, hd, e⟩ | ⟨err, hd, e⟩ := runHeader_cases w (takeWords 1 s)
    · rw [e] at h
      rw [runHeader_of_decode_ok hd]
      by_cases ht : t.held = none
      · exact .inl (exec_padded older more h ht)
      · obtain ⟨cmd, hcmd, hacc, hlt, rfl⟩ := exec_held (s := takeWords 1 s) hready.2 h ht
        refine .inr ⟨List.drop_length, ?_⟩
        rw [exec_load_of_accepted (s := padded older more (takeWords 1 s)) hcmd hacc]
        exact step_padded_heldAfter (h := ⟨cmd, i.cnt, []⟩) older more hready.1 (by simpa using hlt)
    · obtain rfl := Host.Outcome.next.inj (e.symm.trans h)
      exact .inl (runHeader_of_decode_error hd _)

end

/-! The core until it waits or stops. -/

/-- The core after as many steps as INCH has words. -/
def settled (s : State) : State := coreSteps s.inch.length s

/-- A step that finds a word takes one. -/
theorem step_takes {s t : State} (hs : Inv s) (hi : s.inch ≠ []) (h : step s = .next t) :
    t.inch.length < s.inch.length := by
  have hpos : 0 < s.inch.length := List.length_pos_iff.2 hi
  obtain ⟨⟨-, hnil⟩, -⟩ | ⟨-, hd, hh, hr⟩ | ⟨-, w, rest, hcons, hrun⟩ := step_next_cases h
  · exact absurd hnil hi
  · obtain ⟨hdone, -⟩ | ⟨-, rfl⟩ := resume_cases hr
    · have hgood := (hs.heldGood hd hh).2
      rw [hdone.inch, release_inch, takeWords_inch, List.length_drop, payloadLeft]
      omega
    · simpa using hpos
  · have hflow : Flows (takeWords 1 s) t := by
      obtain ⟨i, -, he⟩ | ⟨c, rfl⟩ := hrun
      · exact exec_flows he
      · exact .of_eq rfl rfl rfl
    obtain ⟨⟨k, -, hinch, -⟩, -⟩ := hflow
    rw [hinch, List.length_drop, takeWords_inch, List.length_drop]
    omega

/-- A core that has stopped, or waits with nothing on INCH. -/
def AtRest (s : State) : Prop := Inv s ∧ (s.fault = true ∨ s.inch = [])

theorem coreSteps_atRest (k : Nat) {s : State} (h : AtRest s) : coreSteps k s = s := by
  obtain ⟨hs, hf | hi⟩ := h
  · exact coreSteps_faulted k hf
  · cases hf : s.fault with
    | true => exact coreSteps_faulted k hf
    | false => exact coreSteps_rest k (step_of_inch_nil hs hf hi)

/-- A core that is not at rest has a step that takes a word. -/
theorem atRest_or_step {s : State} (hs : Inv s) :
    AtRest s ∨ ∃ t, step s = .next t ∧ Inv t ∧ t.inch.length < s.inch.length := by
  cases hf : s.fault with
  | true => exact .inl ⟨hs, .inl hf⟩
  | false =>
    by_cases hi : s.inch = []
    · exact .inl ⟨hs, .inr hi⟩
    · obtain ⟨t, ht, hinv⟩ := hs.step_answers hf
      exact .inr ⟨t, ht, hinv, step_takes hs hi ht⟩

/-- As many steps as INCH has words bring the core to rest. -/
theorem atRest_coreSteps {k : Nat} {s : State} (hs : Inv s) (hk : s.inch.length ≤ k) : AtRest (coreSteps k s) := by
  induction k generalizing s with
  | zero => exact ⟨hs, .inr (List.length_eq_zero_iff.1 (Nat.le_zero.1 hk))⟩
  | succ k ih =>
    obtain hrest | ⟨t, ht, hinv, hlt⟩ := atRest_or_step hs
    · rwa [coreSteps_atRest _ hrest]
    · rw [coreSteps, ht]
      exact ih hinv (by omega)

/-- Beyond that many steps nothing changes. -/
theorem coreSteps_eq_coreSteps {j k : Nat} {s : State} (hs : Inv s) (hj : s.inch.length ≤ j) (hk : s.inch.length ≤ k) :
    coreSteps j s = coreSteps k s := by
  induction j generalizing s k with
  | zero => rw [coreSteps_atRest k ⟨hs, .inr (List.length_eq_zero_iff.1 (Nat.le_zero.1 hj))⟩]; rfl
  | succ j ih =>
    obtain hrest | ⟨t, ht, hinv, hlt⟩ := atRest_or_step hs
    · rw [coreSteps_atRest _ hrest, coreSteps_atRest _ hrest]
    · obtain ⟨k, rfl⟩ : ∃ n, k = n + 1 := ⟨k - 1, by omega⟩
      rw [coreSteps, coreSteps, ht]
      exact ih hinv (by omega) (by omega)

theorem settled_of_atRest {s : State} (h : AtRest s) : settled s = s := coreSteps_atRest _ h

theorem atRest_settled {s : State} (hs : Inv s) : AtRest (settled s) := atRest_coreSteps hs le_rfl

theorem step_keeps_inv {s t : State} (hs : Inv s) (h : step s = .next t) : Inv t := invKeptByEveryEvent s t .core hs h

/-- A step does not change where the core comes to rest. -/
theorem settled_of_step {s t : State} (hs : Inv s) (h : step s = .next t) : settled s = settled t := by
  have hmore : coreSteps (s.inch.length + t.inch.length + 1) s = coreSteps (s.inch.length + t.inch.length) t := by
    rw [coreSteps, h]
  rw [settled, settled, coreSteps_eq_coreSteps hs le_rfl (show _ ≤ s.inch.length + t.inch.length + 1 by omega), hmore]
  exact coreSteps_eq_coreSteps (step_keeps_inv hs h) (by omega) le_rfl

theorem Inv.padded {s : State} (hs : Inv s) (older more : List W64) : Inv (padded older more s) :=
  (hs.withInch (s.inch ++ more)).withOutch (older ++ s.outch)

/-- Nor does it with more words around it, whether it sees them or not. -/
theorem settled_padded_of_step {s t : State} (hs : Inv s) (h : step s = .next t) (older more : List W64) :
    settled (padded older more s) = settled (padded older more t) := by
  obtain hsame | ⟨-, hwait⟩ := step_padded older more h
  · exact settled_of_step (hs.padded older more) hsame
  · have hf := fault_of_step_next h
    obtain ⟨u, hu, -⟩ := (hs.padded older more).step_answers hf
    rw [settled_of_step (hs.padded older more) hu,
      settled_of_step ((step_keeps_inv hs h).padded older more) (hwait.trans hu)]

theorem settled_padded_coreSteps {s : State} (hs : Inv s) (older more : List W64) (k : Nat) :
    settled (padded older more (coreSteps k s)) = settled (padded older more s) := by
  induction k generalizing s with
  | zero => rfl
  | succ k ih =>
    obtain hrest | ⟨t, ht, hinv, -⟩ := atRest_or_step hs
    · rw [coreSteps_atRest _ hrest]
    · rw [coreSteps, ht, settled_padded_of_step hs ht]
      exact ih hinv

/-- Older words on OUTCH stay in front of it. -/
theorem settled_padded_nil {s : State} (hs : Inv s) (older : List W64) :
    settled (padded older [] s) = padded older [] (settled s) := by
  obtain ⟨hinv, hrest⟩ := atRest_settled hs
  have hatRest : AtRest (padded older [] (settled s)) :=
    ⟨hinv.padded older [], hrest.imp_right fun hi => by simp [padded, hi]⟩
  rw [← settled_padded_coreSteps hs older [] s.inch.length]
  exact settled_of_atRest hatRest

/-! The outcome of a run. -/

theorem finish_of_fault {r : Run} (h : r.core.fault = true) : r.finish = r := by
  simp only [Run.finish, appendMany_faulted r _ h, coreSteps_faulted _ h]

theorem finish_of_ready {r : Run} (h : r.core.fault = false) :
    r.finish = { r with core := settled (padded [] r.pending r.core), pending := [] } := by
  simp only [Run.finish, appendMany_all r h, settled, padded, List.nil_append]

/-- A step of the core keeps the outcome: a core that goes on comes to rest in the same state, and a faulted one has its fault
however many words stand behind it. -/
theorem finish_outcome_of_step {r : Run} {t : State} (hr : Inv r.core) (h : step r.core = .next t) :
    ({ r with core := t } : Run).finish.outcome = r.finish.outcome := by
  rw [finish_of_ready (fault_of_step_next h), settled_padded_of_step hr h]
  cases ht : t.fault with
  | false => rw [finish_of_ready ht]
  | true =>
    have hrest : AtRest (padded [] r.pending t) := ⟨(step_keeps_inv hr h).padded _ _, .inl ht⟩
    rw [finish_of_fault ht, settled_of_atRest hrest]
    simp [Run.outcome, Run.status, Run.output, padded, ht, statusWord]

/-- An offer that is taken puts the word where finishing the run would put it. -/
theorem finish_appendNext (r : Run) : r.appendNext.finish = r.finish := by
  obtain ⟨-, e⟩ | ⟨hf, w, rest, hp, e⟩ := appendNext_cases r
  · rw [e]
  · have hf' : r.appendNext.core.fault = false := by rw [e]; exact hf
    rw [finish_of_ready hf, finish_of_ready hf', e, hp]
    simp [padded]

/-- A word taken stays the oldest of the output. -/
theorem finish_outcome_takeFront {r : Run} (hr : Inv r.core) : r.takeFront.finish.outcome = r.finish.outcome := by
  obtain ⟨-, e⟩ | ⟨w, rest, ho, e⟩ := takeFront_cases r
  · rw [e]
  · cases hf : r.core.fault with
    | true =>
      have hf' : r.takeFront.core.fault = true := by rw [e]; exact hf
      rw [finish_of_fault hf, finish_of_fault hf', takeFront_outcome]
    | false =>
      have hpadded : padded [] r.pending r.core = padded [w] [] (padded [] r.pending { r.core with outch := rest }) := by
        simp [padded, ho]
      have hf' : r.takeFront.core.fault = false := by rw [e]; exact hf
      rw [finish_of_ready hf, finish_of_ready hf', hpadded, settled_padded_nil ((hr.withOutch rest).padded _ _), e]
      simp [Run.outcome, Run.status, Run.output, padded, statusWord]

/-- No action changes what comes of a run. -/
theorem advance_finish_outcome {a : RunAction} {r r' : Run} (hr : Inv r.core) (h : r.advance a = .next r') :
    r'.finish.outcome = r.finish.outcome := by
  obtain ⟨-, t, ht, rfl⟩ | ⟨-, rfl⟩ | ⟨-, rfl⟩ := advance_next.1 h
  · exact finish_outcome_of_step hr ht
  · rw [finish_appendNext]
  · exact finish_outcome_takeFront hr

/-- Settles O59: by each kind of action. -/
theorem runOutcomeSettled : Obligations.RunOutcomeSettled := by
  unfold Obligations.RunOutcomeSettled
  exact fun a r r' hr h => advance_finish_outcome hr h

/-! Schedules. -/

/-- Offers one after another. -/
theorem acts_replicate_append (k : Nat) (r : Run) :
    Run.acts (List.replicate k .append) r = .next (r.appendMany k) := by
  induction k generalizing r with
  | zero => rfl
  | succ k ih => exact acts_cons_next.2 ⟨r.appendNext, rfl, ih _⟩

/-- Steps of the core one after another, as far as it has them. -/
theorem exists_acts_coreSteps (k : Nat) (r : Run) :
    ∃ actions, Run.acts actions r = .next { r with core := coreSteps k r.core } := by
  induction k generalizing r with
  | zero => exact ⟨[], rfl⟩
  | succ k ih =>
    cases h : step r.core with
    | next t =>
      obtain ⟨actions, hacts⟩ := ih { r with core := t }
      refine ⟨.core :: actions, acts_cons_next.2 ⟨{ r with core := t }, advance_next.2 (.inl ⟨rfl, t, h, rfl⟩), ?_⟩⟩
      rw [hacts, coreSteps, h]
    | fault f => exact ⟨[], by rw [coreSteps, h]; rfl⟩
    | refused e => exact ⟨[], by rw [coreSteps, h]; rfl⟩

/-- Every run can be finished: the host appends all of W, and the core goes on. -/
theorem exists_acts_finish (r : Run) : ∃ actions, Run.acts actions r = .next r.finish := by
  obtain ⟨steps, hsteps⟩ := exists_acts_coreSteps (r.appendMany r.pending.length).core.inch.length
    (r.appendMany r.pending.length)
  exact ⟨List.replicate r.pending.length .append ++ steps,
    acts_append_next.2 ⟨_, acts_replicate_append _ r, hsteps⟩⟩

/-- A finished run is over. -/
theorem finish_over {r : Run} (hr : Inv r.core) : r.finish.status.Over := by
  rw [over_iff]
  cases hf : r.core.fault with
  | true => exact .inl (by rw [finish_of_fault hf]; exact hf)
  | false =>
    obtain ⟨-, hrest⟩ := atRest_settled (hr.padded [] r.pending)
    rw [finish_of_ready hf]
    exact hrest.imp_right fun hi => ⟨hi, rfl⟩

/-- There is nothing left to finish in a run that is over. -/
theorem finish_of_over {r : Run} (h : r.status.Over) : r.finish = r := by
  cases hf : r.core.fault with
  | true => exact finish_of_fault hf
  | false =>
    obtain hf' | ⟨hi, hp⟩ := over_iff.1 h
    · exact absurd (hf.symm.trans hf') (by decide)
    · have hpadded : padded [] r.pending r.core = r.core := by simp [padded, hp]
      have hsettled : settled r.core = r.core := by rw [settled, hi]; rfl
      rw [finish_of_ready hf, hpadded, hsettled, ← hp]

/-- Settles O60: the outcome of the finished run is the same from the start to the end of a schedule. -/
theorem runIndependentOfSchedule : Obligations.RunIndependentOfSchedule := by
  unfold Obligations.RunIndependentOfSchedule
  intro c words
  have hstart : Inv (Run.start c words).core := resetOf_inv c
  refine ⟨exists_acts_finish _, finish_over hstart, fun actions r hacts hover => ?_⟩
  obtain ⟨-, houtcome⟩ := acts_keeps
    (P := fun r => Inv r.core ∧ r.finish.outcome = (Run.start c words).finish.outcome)
    (fun a r r' ⟨hr, he⟩ h => ⟨advance_inv hr h, (advance_finish_outcome hr h).trans he⟩) hacts ⟨hstart, rfl⟩
  rw [← houtcome, finish_of_over hover]

end Sys2Proof.Machine
end
